-- ==== Sys2Proof/Word.lean ====
section
/-! DEFINITION. The value types of the hardware (spec 00_scope R7: bytes, 32-bit words, 4-bit nibbles; everything is
unsigned) and tables of a fixed number of entries, made from a function of the index. -/

namespace Sys2Proof

/-- An unsigned 8-bit value (R7). -/
abbrev Byte := BitVec 8

/-- An unsigned 32-bit value (R7). -/
abbrev Word := BitVec 32

/-- An unsigned 4-bit value (R7). -/
abbrev Nibble := BitVec 4

/-- `[f i, f (i+1), ...]`, `n` entries. -/
def listFrom {α : Type} (f : Nat → α) : Nat → Nat → List α
  | 0, _ => []
  | n + 1, i => f i :: listFrom f n (i + 1)

theorem listFrom_length {α : Type} (f : Nat → α) (n i : Nat) : (listFrom f n i).length = n := by
  induction n generalizing i with
  | zero => rfl
  | succ n ih => simp [listFrom, ih]

/-- The table of `n` entries whose entry `i` is `f i`. -/
def table {α : Type} (n : Nat) (f : Nat → α) : Vector α n :=
  ⟨(listFrom f n 0).toArray, by simp [listFrom_length]⟩

/-- A block: exactly 16 bytes (00_scope R9, block size of R5). -/
abbrev Block := Vector Byte 16

/-- Four 32-bit words: a block inside an engine (00_scope R9; 10_state R24). -/
structure Quad where
  w0 : Word
  w1 : Word
  w2 : Word
  w3 : Word
  deriving DecidableEq, Repr

end Sys2Proof
end

