-- ==== Sys2Proof/Machine/Bits.lean ====
section
/-! DEFINITION. The word operators, byte order and field arithmetic of the notation (spec 00_scope R7, 20_memory R41). -/

namespace Sys2Proof.Machine

/-- `rol32(a, n)` (R7). -/
def rol32 (a : Word) (n : Nat) : Word := a.rotateLeft n

/-- `ror32(a, n) = rol32(a, (32 - n) mod 32)` (R7). -/
def ror32 (a : Word) (n : Nat) : Word := rol32 a ((32 - n) % 32)

/-- `byte(a, i)`: byte 0 is the least significant (R7). -/
def byteOf (a : Word) (i : Nat) : Byte := a.extractLsb' (8 * i) 8

/-- `LE32(b0, b1, b2, b3)`: `b0` is the least significant byte (R7). -/
def le32 (b0 b1 b2 b3 : Byte) : Word :=
  b0.setWidth 32 ||| b1.setWidth 32 <<< 8 ||| b2.setWidth 32 <<< 16 ||| b3.setWidth 32 <<< 24

/-- `ror4(x)`, rotation right by one within 4 bits (R7). -/
def ror4 (x : Nibble) : Nibble := (x >>> 1) ||| (x <<< 3)

/-- The loop of `gfmul_P` (R7): `k` more turns with the values of `a` (9 bits), `b` and `r`. -/
def gfmulLoop (P : BitVec 9) : Nat → BitVec 9 → Byte → Byte → Byte
  | 0, _, _, r => r
  | k + 1, a, b, r =>
    gfmulLoop P k (if (a <<< 1).getLsbD 8 then (a <<< 1) ^^^ P else a <<< 1) (b >>> 1)
      (if b.getLsbD 0 then r ^^^ a.setWidth 8 else r)

/-- `gfmul_P(a, b)`: the product of two bytes over GF(2) modulo `P` (R7). -/
def gfmul (P : BitVec 9) (a b : Byte) : Byte := gfmulLoop P 8 (a.setWidth 9) b 0

/-- XOR of two quadruples, word by word (41_serpent R112). -/
def xorQuad (x y : Quad) : Quad := ⟨x.w0 ^^^ y.w0, x.w1 ^^^ y.w1, x.w2 ^^^ y.w2, x.w3 ^^^ y.w3⟩

/-- XOR of two blocks, byte by byte (43_cbc R144, R145). -/
def xorBlock (x y : Block) : Block := table 16 fun i => x.getD i 0 ^^^ y.getD i 0

/-- The four little-endian words of a block in address order: Twofish's reading (20_memory R41). -/
def quadOfBlock (b : Block) : Quad :=
  ⟨le32 b[0] b[1] b[2] b[3], le32 b[4] b[5] b[6] b[7], le32 b[8] b[9] b[10] b[11], le32 b[12] b[13] b[14] b[15]⟩

/-- The block of four little-endian words: Twofish's writing (20_memory R41). -/
def blockOfQuad (q : Quad) : Block :=
  #v[byteOf q.w0 0, byteOf q.w0 1, byteOf q.w0 2, byteOf q.w0 3, byteOf q.w1 0, byteOf q.w1 1, byteOf q.w1 2, byteOf q.w1 3,
    byteOf q.w2 0, byteOf q.w2 1, byteOf q.w2 2, byteOf q.w2 3, byteOf q.w3 0, byteOf q.w3 1, byteOf q.w3 2, byteOf q.w3 3]

/-- The sixteen bytes in the opposite order: `reverse(B)` (20_memory R41). -/
def reverseBlock (b : Block) : Block := table 16 fun i => b.getD (15 - i) 0

end Sys2Proof.Machine
end

