-- ==== Sys2Proof/Syntax.lean ====
section
/-! DEFINITION. The twenty commands (spec 30_encoding R52), one constructor per row of spec/opcode_table.json. Each carries
the bits its command word has outside the opcode, because the checks on them are part of the command's rule and not of
decoding (R52): format Z the 24-bit ARG, format O the 24-bit OFF, format C its six fields (R50). -/

namespace Sys2Proof

inductive Instr
  /-- `SYS.RESET` (70 R200), format Z. -/
  | sysReset (arg : BitVec 24)
  /-- `ERR.ACK` (60 R186), format Z. -/
  | errAck (arg : BitVec 24)
  /-- `KEY.CLONE` (44 R162), format Z. -/
  | keyClone (arg : BitVec 24)
  /-- `SESS.CREATE` (44 R161), format C: ALG, DIR, MODE, PAD, CMD[15:14], KEYBITS. -/
  | sessCreate (alg dir : BitVec 1) (mode pad rsv : BitVec 2) (keybits : BitVec 16)
  /-- `SESS.EXEC` (44 R160), format Z. -/
  | sessExec (arg : BitVec 24)
  /-- `TF.KEYX` (40 R78), format Z. -/
  | tfKeyx (arg : BitVec 24)
  /-- `TF.ENCB` (40 R76), format O. -/
  | tfEncb (off : BitVec 24)
  /-- `TF.DECB` (40 R77), format O. -/
  | tfDecb (off : BitVec 24)
  /-- `TF.CLOSE` (40 R79), format Z. -/
  | tfClose (arg : BitVec 24)
  /-- `SP.KEYX` (41 R109), format Z. -/
  | spKeyx (arg : BitVec 24)
  /-- `SP.ENCB` (41 R112), format O. -/
  | spEncb (off : BitVec 24)
  /-- `SP.DECB` (41 R113), format O. -/
  | spDecb (off : BitVec 24)
  /-- `SP.CLOSE` (41 R114), format Z. -/
  | spClose (arg : BitVec 24)
  /-- `P7.APPEND` (42 R130), format Z. -/
  | p7Append (arg : BitVec 24)
  /-- `P7.REMOVE` (42 R131), format Z. -/
  | p7Remove (arg : BitVec 24)
  /-- `NP.APPEND` (42 R132), format Z. -/
  | npAppend (arg : BitVec 24)
  /-- `NP.REMOVE` (42 R133), format Z. -/
  | npRemove (arg : BitVec 24)
  /-- `CBC.OPEN` (43 R140), format Z. -/
  | cbcOpen (arg : BitVec 24)
  /-- `CBC.STEP` (43 R143), format Z. -/
  | cbcStep (arg : BitVec 24)
  /-- `CBC.CLOSE` (43 R146), format Z. -/
  | cbcClose (arg : BitVec 24)
  deriving DecidableEq, Repr

end Sys2Proof
end

