-- ==== Sys2Proof/WellFormed.lean ====
section
/-! DEFINITION. The legal command words (spec 30_encoding R53): format Z has `CMD[31:8]` = 0; format C has `CMD[15:14]` = 0,
MODE = 0, PAD in (0, 1) and KEYBITS in (128, 192, 256); format O has no illegal word. An ill-formed command is still a
command: its rule refuses it (60 R185 step 2), so the meanings take every Instr, well-formed or not. -/

namespace Sys2Proof

/-- Format Z: the argument field is 0 (R50, R53). -/
def WellFormed.argZero (arg : BitVec 24) : Bool := arg == 0#24

/-- Format C, the reserved fields: `CMD[15:14]` = 0, MODE = 0, PAD in (0, 1) (R53). -/
def WellFormed.cfgFields (mode pad rsv : BitVec 2) : Bool := rsv == 0#2 && mode == 0#2 && (pad == 0#2 || pad == 1#2)

/-- Format C, the key size: 128, 192 or 256 (R53). -/
def WellFormed.keyBits (keybits : BitVec 16) : Bool := keybits == 128#16 || keybits == 192#16 || keybits == 256#16

/-- The command word of `i` is legal (R53). -/
def Instr.wellFormed : Instr → Bool
  | .sysReset arg => WellFormed.argZero arg
  | .errAck arg => WellFormed.argZero arg
  | .keyClone arg => WellFormed.argZero arg
  | .sessCreate _ _ mode pad rsv keybits => WellFormed.cfgFields mode pad rsv && WellFormed.keyBits keybits
  | .sessExec arg => WellFormed.argZero arg
  | .tfKeyx arg => WellFormed.argZero arg
  | .tfEncb _ => true
  | .tfDecb _ => true
  | .tfClose arg => WellFormed.argZero arg
  | .spKeyx arg => WellFormed.argZero arg
  | .spEncb _ => true
  | .spDecb _ => true
  | .spClose arg => WellFormed.argZero arg
  | .p7Append arg => WellFormed.argZero arg
  | .p7Remove arg => WellFormed.argZero arg
  | .npAppend arg => WellFormed.argZero arg
  | .npRemove arg => WellFormed.argZero arg
  | .cbcOpen arg => WellFormed.argZero arg
  | .cbcStep arg => WellFormed.argZero arg
  | .cbcClose arg => WellFormed.argZero arg

end Sys2Proof
end

