-- ==== Sys2Proof/Decode.lean ====
section
/-! DEFINITION. Decoding and encoding of command words (spec 30_encoding R50, R51, R52, R53). A decoder needs only
`CMD[7:0]` (R52); an opcode outside the table of R52 is rejected by name (`DecodeError.opcode`, cause OPCODE of R53). -/

namespace Sys2Proof

/-- Why a word is no command. -/
inductive DecodeError
  /-- The opcode is not one of the twenty of R52: refused with cause OPCODE (R53). -/
  | opcode (opc : Byte)
  deriving DecidableEq, Repr

/-- `CMD[7:0]`, the opcode OPC (R50). -/
def opcField (w : Word) : Byte := w.extractLsb' 0 8

/-- `CMD[31:8]`, the argument ARG of format Z and the offset OFF of format O (R50). -/
def argField (w : Word) : BitVec 24 := w.extractLsb' 8 24

/-- The fields of format C (R50, R51). -/
def createFields (w : Word) : Instr :=
  .sessCreate (w.extractLsb' 8 1) (w.extractLsb' 9 1) (w.extractLsb' 10 2) (w.extractLsb' 12 2) (w.extractLsb' 14 2)
    (w.extractLsb' 16 16)

/-- Decode a command word by its opcode (R52). -/
def decodeWord (w : Word) : Except DecodeError Instr :=
  if opcField w = 0x01#8 then .ok (.sysReset (argField w))
  else if opcField w = 0x02#8 then .ok (.errAck (argField w))
  else if opcField w = 0x03#8 then .ok (.keyClone (argField w))
  else if opcField w = 0x08#8 then .ok (createFields w)
  else if opcField w = 0x09#8 then .ok (.sessExec (argField w))
  else if opcField w = 0x10#8 then .ok (.tfKeyx (argField w))
  else if opcField w = 0x11#8 then .ok (.tfEncb (argField w))
  else if opcField w = 0x12#8 then .ok (.tfDecb (argField w))
  else if opcField w = 0x13#8 then .ok (.tfClose (argField w))
  else if opcField w = 0x20#8 then .ok (.spKeyx (argField w))
  else if opcField w = 0x21#8 then .ok (.spEncb (argField w))
  else if opcField w = 0x22#8 then .ok (.spDecb (argField w))
  else if opcField w = 0x23#8 then .ok (.spClose (argField w))
  else if opcField w = 0x30#8 then .ok (.p7Append (argField w))
  else if opcField w = 0x31#8 then .ok (.p7Remove (argField w))
  else if opcField w = 0x32#8 then .ok (.npAppend (argField w))
  else if opcField w = 0x33#8 then .ok (.npRemove (argField w))
  else if opcField w = 0x40#8 then .ok (.cbcOpen (argField w))
  else if opcField w = 0x41#8 then .ok (.cbcStep (argField w))
  else if opcField w = 0x42#8 then .ok (.cbcClose (argField w))
  else .error (.opcode (opcField w))

/-- The opcode of a command, from the table of R52. -/
def Instr.opcode : Instr → Byte
  | .sysReset _ => 0x01#8
  | .errAck _ => 0x02#8
  | .keyClone _ => 0x03#8
  | .sessCreate _ _ _ _ _ _ => 0x08#8
  | .sessExec _ => 0x09#8
  | .tfKeyx _ => 0x10#8
  | .tfEncb _ => 0x11#8
  | .tfDecb _ => 0x12#8
  | .tfClose _ => 0x13#8
  | .spKeyx _ => 0x20#8
  | .spEncb _ => 0x21#8
  | .spDecb _ => 0x22#8
  | .spClose _ => 0x23#8
  | .p7Append _ => 0x30#8
  | .p7Remove _ => 0x31#8
  | .npAppend _ => 0x32#8
  | .npRemove _ => 0x33#8
  | .cbcOpen _ => 0x40#8
  | .cbcStep _ => 0x41#8
  | .cbcClose _ => 0x42#8

/-- Bits 31:8 of the command word, from the formats of R50. -/
def Instr.argBits : Instr → BitVec 24
  | .sysReset arg => arg
  | .errAck arg => arg
  | .keyClone arg => arg
  | .sessCreate alg dir mode pad rsv keybits =>
    keybits.setWidth 24 <<< 8 ||| rsv.setWidth 24 <<< 6 ||| pad.setWidth 24 <<< 4 ||| mode.setWidth 24 <<< 2 |||
      dir.setWidth 24 <<< 1 ||| alg.setWidth 24
  | .sessExec arg => arg
  | .tfKeyx arg => arg
  | .tfEncb off => off
  | .tfDecb off => off
  | .tfClose arg => arg
  | .spKeyx arg => arg
  | .spEncb off => off
  | .spDecb off => off
  | .spClose arg => arg
  | .p7Append arg => arg
  | .p7Remove arg => arg
  | .npAppend arg => arg
  | .npRemove arg => arg
  | .cbcOpen arg => arg
  | .cbcStep arg => arg
  | .cbcClose arg => arg

/-- The command word of `i`: ARG above OPC (R50, R54). -/
def Instr.encode (i : Instr) : Word := i.argBits.setWidth 32 <<< 8 ||| i.opcode.setWidth 32

/-- The decoder as a partial function of the word. -/
def decode (w : Word) : Option Instr :=
  match decodeWord w with
  | .ok i => some i
  | .error _ => none

/-- The command read from a table row's `nbits` bits `w`: the bits above `nbits` are 0, and a command has 32 bits (R50),
one 32-bit value, so no byte order arises (20_memory R41). -/
def decodeTableWord (nbits w : Nat) : Option Instr :=
  if nbits ≤ 32 then decode (BitVec.ofNat 32 (w % 2 ^ nbits)) else none

end Sys2Proof
end

