-- ==== Sys2Proof/Config.lean ====
section
/-! DEFINITION. What an implementation fixes, and the free values. The spec leaves open the capacity BUF_CAP (00_scope R5,
92 D6), the random IV (R5, 92 D7) and every value it calls unspecified (10_state R17 to R22, R25; 93 U1, U7, U8, U11, U17).
Each is an opaque constant with no body: nothing can be proved of its value. -/

namespace Sys2Proof

/-- Which storage a free value is for, so that the unspecified bytes of two stores are never provably equal. -/
inductive Config.Store
  | key | wkey | dbuf | ivreg | rnd | tfK | tfM | spK
  deriving DecidableEq, Repr

/-- A free byte: store, number of the draw, index inside the store. DESIGN CHOICE, safe (log 3). -/
opaque Config.freeByte : Config.Store → Nat → Nat → Byte

/-- A free 32-bit word: store, number of the draw, index inside the store. DESIGN CHOICE, safe (log 3). -/
opaque Config.freeWord : Config.Store → Nat → Nat → Word

/-- How many blocks of 16 bytes BUF_CAP has beyond the 48 bytes it has at least; any number (log 6). -/
opaque Config.extraBlocks : Nat

/-- BUF_CAP, the capacity of DBUF in bytes: "at least 48, multiple of 16" (00_scope R5). Below 2^32, because DLEN, a 32-bit
register, counts up to it (10_state R15): DEDUCED, log 6. -/
def Config.bufCap : Nat := 16 * (Config.extraBlocks % 268435453) + 48

end Sys2Proof
end

