-- ==== Sys2Proof/Machine/State.lean ====
section
/-! DEFINITION. The state of one CORE instance (spec 10_state R10 to R22), as plain data, its value after reset (R25), and the
reasons a step can stop. Beside the spec's state it holds three fields of the model's own: `host`, `busRead` and `draws`
(log 1, 2, 3). -/

namespace Sys2Proof.Machine

/-- PHASE (10_state R13): where the mode driver is in its protocol. The values 5, 6, 7 never occur. -/
inductive Phase
  | none | created | opened | stepping | closed
  deriving DecidableEq, Repr

/-- The causes of a refusal (60_exceptions R182). -/
inductive Cause
  | nullKey | nullData | keybits | cfg | opcode | operand | phase | keylen | length | capacity | noKeySched | noSession
  deriving DecidableEq, Repr

/-- The width of a host access: 8, 16 or 32 bits. R26 lists accesses of 8 and of 32 bits only. -/
inductive Width
  | byte | half | word
  deriving DecidableEq, Repr

/-- One host access (00_scope R6): a read, or a write of a value, of a width, at a byte offset from the base of the window. -/
inductive Access
  | read (width : Width) (off : Nat)
  | write (width : Width) (off : Nat) (value : Word)
  deriving DecidableEq, Repr

/-- What an offset of the window names for an access of one width (10_state R26). -/
inductive Region
  | cmd | status | errcode | errcmd | cfg | keylen | dlen | cur | rem
  | key (i : Nat)
  | dbuf (i : Nat)
  | reserved
  /-- A width or an offset that R26 does not list (93 U6). -/
  | unlisted
  deriving DecidableEq, Repr

/-- DBUF: the bytes that hold a specified value, as (index, byte) pairs. A byte not listed is unspecified (R19): it has no
value of its own, and whoever reads it gets a free value (log 5). -/
abbrev Memory := List Host.Cell

/-- The canonical form: indexes strictly rising. A listed byte never equals what an unlisted one holds, because an
unlisted one holds no specified value (log 5). -/
abbrev Memory.wf (m : Memory) : Prop := m.Pairwise (fun x y => x.1 < y.1)

/-- Why a step of the machine stops with a fault: never. R8: a command is Done or Refused, "There is no third outcome", and
a refused command is a next state (R183); R211: the block never halts. -/
inductive Fault
  deriving DecidableEq, Repr

/-- Why a step has no meaning in the model. -/
inductive Refusal
  /-- An instruction that has no meaning yet. Raised by exec's arms only; safe. No arm of this model raises it. -/
  | notModelled (mnemonic : String)
  /-- A host access of a width or at an offset that 10_state R26 does not list, whose effect the spec leaves unspecified
  (20_memory R43, 93 U6: "the model admits only the listed accesses"). Raised by the host port; safe (log 9). -/
  | unlistedAccess (width : Width) (off : Nat)
  deriving DecidableEq, Repr

/-- The complete state of one CORE instance (10_state R10), and the model's three own fields at the end. -/
structure State where
  /-- STATUS[0], ERR (R12). -/
  err : Bool
  /-- STATUS[1], CFG_VALID (R12). -/
  cfgValid : Bool
  /-- STATUS[2], KEY_VALID (R12). -/
  keyValid : Bool
  /-- STATUS[3], DATA_VALID (R12). -/
  dataValid : Bool
  /-- STATUS[4], WKEY_VALID (R12, R18). -/
  wkeyValid : Bool
  /-- STATUS[5], TFX_VALID (R12, R21). -/
  tfxValid : Bool
  /-- STATUS[6], SPX_VALID (R12, R22). -/
  spxValid : Bool
  /-- STATUS[10:8], PHASE (R13). -/
  phase : Phase
  /-- CFG (R11). -/
  cfg : Word
  /-- ERRCODE (R14). -/
  errcode : Word
  /-- ERRCMD (R14). -/
  errcmd : Word
  /-- KEYLEN (R17). -/
  keylen : Word
  /-- DLEN (R15). -/
  dlen : Word
  /-- CUR (R13). -/
  cur : Word
  /-- REM (R16). -/
  rem : Word
  /-- KEY[0..31] (R17). -/
  key : Vector Byte 32
  /-- WKEY[0..31] (R18). -/
  wkey : Vector Byte 32
  /-- WKLEN, an integer 0..32 (R18). -/
  wklen : Nat
  /-- DBUF[0..BUF_CAP-1] (R19). -/
  dbuf : Memory
  /-- IVREG[0..15] (R20). -/
  ivreg : Block
  /-- TF_K[0..39] (R21). -/
  tfK : Vector Word 40
  /-- TF_M[0..3][0..255] (R21). -/
  tfM : Vector (Vector Word 256) 4
  /-- SP_K[0..131] (R22). -/
  spK : Vector Word 132
  /-- The model's own: the number of the next draw of free values (log 3). -/
  draws : Nat
  /-- The model's own: the host's accesses not yet served, oldest first (log 1). -/
  host : List Access
  /-- The model's own: the value the last host read returned (log 2). -/
  busRead : Word
  deriving DecidableEq, Repr

/-- Thirty-two unspecified key bytes of one store, from draw `n` (R25). -/
def freeKey (u : Config.Store) (n : Nat) : Vector Byte 32 := table 32 (Config.freeByte u n)

/-- Sixteen unspecified bytes of one store, from draw `n`: IVREG (R20), RND (00_scope R5). -/
def freeBlock (u : Config.Store) (n : Nat) : Block := table 16 (Config.freeByte u n)

/-- An unspecified TF_K, from draw `n` (R21). -/
def freeTfK (n : Nat) : Vector Word 40 := table 40 (Config.freeWord .tfK n)

/-- An unspecified TF_M, from draw `n` (R21). -/
def freeTfM (n : Nat) : Vector (Vector Word 256) 4 := table 4 fun j => table 256 fun x => Config.freeWord .tfM n (256 * j + x)

/-- An unspecified SP_K, from draw `n` (R22). -/
def freeSpK (n : Nat) : Vector Word 132 := table 132 (Config.freeWord .spK n)

/-- The table of reset values R25, its unspecified entries taken from draw `n` (log 4), with the host's pending accesses and
the value of its last read as given. -/
def State.afterReset (n : Nat) (host : List Access) (busRead : Word) : State where
  err := false
  cfgValid := false
  keyValid := false
  dataValid := false
  wkeyValid := false
  tfxValid := false
  spxValid := false
  phase := .none
  cfg := 0
  errcode := 0
  errcmd := 0
  keylen := 0
  dlen := 0
  cur := 0
  rem := 0
  key := freeKey .key n
  wkey := freeKey .wkey n
  wklen := 0
  dbuf := []
  ivreg := freeBlock .ivreg n
  tfK := freeTfK n
  tfM := freeTfM n
  spK := freeSpK n
  draws := n + 1
  host := host
  busRead := busRead

/-- The machine right after power-on (R25, R200): no host access pending. -/
def State.reset : State := State.afterReset 0 [] 0

end Sys2Proof.Machine
end

