-- ==== Sys2Proof/Machine/Flags.lean ====
section
/-! DEFINITION. The flags and coded fields of the registers: STATUS (spec 10_state R12, R13), ERRCODE (R14, 60_exceptions
R181, R182) and CFG (R11). There are no arithmetic flags (R12, 30_encoding R55). -/

namespace Sys2Proof.Machine

/-- The 3-bit code of PHASE (R13). -/
def phaseCode : Phase → BitVec 3
  | .none => 0
  | .created => 1
  | .opened => 2
  | .stepping => 3
  | .closed => 4

/-- A flag at bit `n` of a register. -/
def flagBit (b : Bool) (n : Nat) : Word := (BitVec.ofBool b).setWidth 32 <<< n

/-- STATUS as the host reads it (R12): bits 7 and 31:11 are 0. -/
def statusWord (s : State) : Word :=
  flagBit s.err 0 ||| flagBit s.cfgValid 1 ||| flagBit s.keyValid 2 ||| flagBit s.dataValid 3 ||| flagBit s.wkeyValid 4 |||
    flagBit s.tfxValid 5 ||| flagBit s.spxValid 6 ||| (phaseCode s.phase).setWidth 32 <<< 8

/-- The code of a cause, the value of ERRCODE.CAUSE (R182). -/
def causeCode : Cause → Byte
  | .nullKey => 0x01
  | .nullData => 0x02
  | .keybits => 0x03
  | .cfg => 0x04
  | .opcode => 0x05
  | .operand => 0x06
  | .phase => 0x07
  | .keylen => 0x08
  | .length => 0x09
  | .capacity => 0x0A
  | .noKeySched => 0x0B
  | .noSession => 0x0C

/-- The class of every refusal, InvalidArgument (R181). -/
def errorClass : Word := 1

/-- ERRCODE for a cause: CLASS in bits 3:0, CAUSE in bits 11:4, the rest 0 (R14, R183). -/
def errcodeOf (c : Cause) : Word := errorClass ||| (causeCode c).setWidth 32 <<< 4

/-- ERRCMD for a refused host write of the register at offset `off` (R14, R183). -/
def errcmdOfWrite (off : Nat) : Word := 0x000000FF ||| (BitVec.ofNat 32 off <<< 8)

/-- CFG.ALG (R11). -/
def cfgAlg (cfg : Word) : BitVec 1 := cfg.extractLsb' 8 1

/-- CFG.DIR (R11). -/
def cfgDir (cfg : Word) : BitVec 1 := cfg.extractLsb' 9 1

/-- CFG.MODE (R11). -/
def cfgMode (cfg : Word) : BitVec 2 := cfg.extractLsb' 10 2

/-- CFG.PAD (R11). -/
def cfgPad (cfg : Word) : BitVec 2 := cfg.extractLsb' 12 2

/-- CFG.KEYBITS (R11). -/
def cfgKeybits (cfg : Word) : BitVec 16 := cfg.extractLsb' 16 16

/-- CFG.ALG = Serpent (R11). -/
def State.isSerpent (s : State) : Bool := cfgAlg s.cfg == 1#1

/-- CFG.DIR = Decrypt (R11). -/
def State.isDecrypt (s : State) : Bool := cfgDir s.cfg == 1#1

/-- CFG.PAD = PKCS7 (R11). The reserved values 2 and 3 never reach CFG (R11); the model takes them as NoPadding (log 13). -/
def State.isPkcs7 (s : State) : Bool := cfgPad s.cfg == 0#2

end Sys2Proof.Machine
end

