-- ==== Sys2Proof/Machine/Operands.lean ====
section
/-! DEFINITION. The operand forms of the command formats (spec 30_encoding R50, R51, R53) and the conditions the commands
check, each as the pair of the condition and the cause raised where it fails (60_exceptions R182, R185, R190). -/

namespace Sys2Proof.Machine

/-- One check of a command: what must hold, and the cause of the refusal where it does not (R182). -/
abbrev Check := Bool × Cause

/-- Format O: the byte offset `zext_32(CMD[31:8])` (R51). -/
def offsetOf (off : BitVec 24) : Nat := off.toNat

/-- Format C: the value `CMD & 0xFFFFFF00` that CFG takes (R51). -/
def cfgOf (w : Word) : Word := w &&& 0xFFFFFF00

/-- Format Z: `CMD[31:8]` = 0, else OPERAND (R53). -/
def checkZ (arg : BitVec 24) : Check := (WellFormed.argZero arg, .operand)

/-- Format C: the reserved fields, else CFG (R53). -/
def checkCfgFields (mode pad rsv : BitVec 2) : Check := (WellFormed.cfgFields mode pad rsv, .cfg)

/-- Format C: the key size, else KEYBITS (R53). -/
def checkKeybits (keybits : BitVec 16) : Check := (WellFormed.keyBits keybits, .keybits)

/-- PHASE is None, Created or Closed: no run is open (R190). -/
def State.isIdle (s : State) : Bool := s.phase == .none || s.phase == .created || s.phase == .closed

/-- No run is open, else PHASE (R190). -/
def checkIdle (s : State) : Check := (s.isIdle, .phase)

/-- The cause of a session command in the wrong phase: NOSESSION if PHASE = None, else PHASE (R182, R185 step 3). -/
def sessionCause (s : State) : Cause := if s.phase = .none then .noSession else .phase

/-- PHASE is Created or Closed, else NOSESSION or PHASE (R190: `SESS.EXEC`, `CBC.OPEN`). -/
def checkStartable (s : State) : Check := (s.phase == .created || s.phase == .closed, sessionCause s)

/-- PHASE is Opened or Stepping, else NOSESSION or PHASE (R190: `CBC.STEP`). -/
def checkRunning (s : State) : Check := (s.phase == .opened || s.phase == .stepping, sessionCause s)

/-- PHASE is Stepping, else NOSESSION or PHASE (R190: `CBC.CLOSE`). -/
def checkStepping (s : State) : Check := (s.phase == .stepping, sessionCause s)

/-- The caller's key is present, else NULL_KEY (R182). -/
def checkKey (s : State) : Check := (s.keyValid, .nullKey)

/-- The working key is present, else NULL_KEY (R182). -/
def checkWkey (s : State) : Check := (s.wkeyValid, .nullKey)

/-- The data is present, else NULL_DATA (R182). -/
def checkData (s : State) : Check := (s.dataValid, .nullData)

/-- The sixteen bytes at `off` lie below DLEN, else OPERAND (20_memory R42, R182). -/
def checkBlock (off : Nat) (s : State) : Check := (decide (off + 16 ≤ s.dlen.toNat), .operand)

end Sys2Proof.Machine
end

