-- ==== Sys2Proof/Machine/Ops.lean ====
section
/-! DEFINITION. The shared operations over DBUF (spec 10_state R19, 20_memory R42), the refusal, which is the block's only
exception entry (60_exceptions R183), the acknowledge, its only return (R186), and the common course of a command (R184,
R185). -/

namespace Sys2Proof.Machine

/-- The specified byte at index `a`, none where the byte is unspecified (R19). -/
def Memory.find? : Memory → Nat → Option Byte
  | [], _ => none
  | (x, y) :: m, a => if x = a then some y else Memory.find? m a

/-- `DBUF[a] <- b`, keeping the canonical form. -/
def Memory.write : Memory → Nat → Byte → Memory
  | [], a, b => [(a, b)]
  | (x, y) :: m, a, b =>
    if a < x then (a, b) :: (x, y) :: m
    else if a = x then (a, b) :: m
    else (x, y) :: Memory.write m a b

/-- `MemWrite(a, n, v)`: the bytes of a list to consecutive indexes from `a` (20_memory R42). -/
def Memory.writeList : Memory → Nat → List Byte → Memory
  | m, _, [] => m
  | m, a, b :: bs => Memory.writeList (Memory.write m a b) (a + 1) bs

/-- Every byte at index `n` or above becomes unspecified (R19). -/
def Memory.forgetFrom (m : Memory) (n : Nat) : Memory := m.filter fun c => decide (c.1 < n)

/-- Every byte moves up by `k` (43_cbc R141). -/
def Memory.shiftUp (m : Memory) (k : Nat) : Memory := m.map fun c => (c.1 + k, c.2)

/-- Every byte moves down by `k`; those below `k` are dropped (43_cbc R147). -/
def Memory.shiftDown (m : Memory) (k : Nat) : Memory :=
  (m.filter fun c => decide (k ≤ c.1)).map fun c => (c.1 - k, c.2)

/-- The specified byte `DBUF[a]`, none where it is unspecified (R19). -/
def State.dbuf? (s : State) (a : Nat) : Option Byte := Memory.find? s.dbuf a

/-- What an event that reads `DBUF[a]` gets: the specified byte, or a free value of the current draw (93 U1, log 5). -/
def State.byteAt (s : State) (a : Nat) : Byte := (s.dbuf? a).getD (Config.freeByte .dbuf s.draws a)

/-- `MemRead(off, 16)` (20_memory R42). -/
def State.readBlock (s : State) (off : Nat) : Block := table 16 fun i => s.byteAt (off + i)

/-- The draw is used up: the next free values are others (log 3). -/
def State.nextDraw (s : State) : State := { s with draws := s.draws + 1 }

/-- The bytes at and above DLEN become unspecified: "after any command of the P7, CBC or SESS groups" (R19, log 8). -/
def State.forgetTail (s : State) : State := { s with dbuf := Memory.forgetFrom s.dbuf s.dlen.toNat }

/-- The sixteen bytes at `off` are replaced by a function of themselves, `MemWrite(off, 16, f (MemRead(off, 16)))`
(20_memory R42); nothing else changes. It reads DBUF, so it uses up a draw. -/
def State.blockUpdate (f : Block → Block) (off : Nat) (s : State) : State :=
  { s with dbuf := Memory.writeList s.dbuf off (f (s.readBlock off)).toList, draws := s.draws + 1 }

/-- What a refusal records (R183): ERR, ERRCODE = class | cause << 4, ERRCMD = `w`. -/
def State.recordError (c : Cause) (w : Word) (s : State) : State :=
  { s with err := true, errcode := errcodeOf c, errcmd := w }

/-- TAKING THE EXCEPTION: the refusal with cause `c` of the command word `w`, or of a host write with ERRCMD value `w`
(R183). Where ERR is already 1 nothing changes: the first error wins. -/
def State.refuse (c : Cause) (w : Word) (s : State) : State := if s.err then s else s.recordError c w

/-- THE RETURN FROM IT: ERR, ERRCODE and ERRCMD become 0 (R186). -/
def State.acknowledge (s : State) : State := { s with err := false, errcode := 0, errcmd := 0 }

/-- The cause of the first check of a list that fails (R185). -/
def firstFailing : List Check → Option Cause
  | [] => none
  | (ok, c) :: rest => if ok then firstFailing rest else some c

/-- The course of a command that runs even while ERR = 1 (R184: `SYS.RESET`, `ERR.ACK`): the first failing check refuses it
(R183, R185), and otherwise it is Done (00_scope R8). -/
def guarded (w : Word) (checks : List Check) (act : State → State) (s : State) : Host.Outcome State Fault Refusal :=
  match firstFailing checks with
  | some c => .next (s.refuse c w)
  | none => .next (act s)

/-- The course of every other command: dropped while ERR = 1 (R184), and otherwise as `guarded`. -/
def command (w : Word) (checks : List Check) (act : State → State) (s : State) : Host.Outcome State Fault Refusal :=
  if s.err then .next s else guarded w checks act s

end Sys2Proof.Machine
end

