-- ==== Sys2Proof/Machine/Padding.lean ====
section
/-! DEFINITION. The padding commands (spec 42_padding R130 to R133). Lengths are computed as natural numbers bounded by BUF_CAP
(30_encoding R55) and written back to the 32-bit DLEN. -/

namespace Sys2Proof.Machine

/-- `n = 16 - (DLEN mod 16)`, the number and the value of the bytes PKCS7 appends (R130). -/
def p7Count (dlen : Nat) : Nat := 16 - dlen % 16

/-- The effect of `P7.APPEND` (R130). -/
def p7AppendAct (s : State) : State :=
  State.forgetTail
    { s with
      dbuf := Memory.writeList s.dbuf s.dlen.toNat
        (List.replicate (p7Count s.dlen.toNat) (BitVec.ofNat 8 (p7Count s.dlen.toNat)))
      dlen := s.dlen + BitVec.ofNat 32 (p7Count s.dlen.toNat) }

/-- The length `P7.REMOVE` leaves of `dlen` bytes whose last is `marker` (R131): the marker byte goes, and `marker - 1` more
where it is at most 16, as far as there are bytes. -/
def p7RemoveLen (dlen : Nat) (marker : Byte) : Nat :=
  if dlen = 0 then 0
  else if 16 < marker.toNat then dlen - 1
  else dlen - 1 - min (marker.toNat - 1) (dlen - 1)

/-- The effect of `P7.REMOVE` (R131). It reads DBUF, so it uses up a draw. -/
def p7RemoveAct (s : State) : State :=
  State.forgetTail
    { s with
      dlen := BitVec.ofNat 32 (p7RemoveLen s.dlen.toNat (s.byteAt (s.dlen.toNat - 1)))
      draws := s.draws + 1 }

/-- The effect of `NP.APPEND`: none (R132). -/
def npAppendAct (s : State) : State := s

/-- The effect of `NP.REMOVE`: none (R133). -/
def npRemoveAct (s : State) : State := s

/-- The padded length fits the buffer, else CAPACITY (R130). -/
def checkAppendFits (s : State) : Check := (decide (s.dlen.toNat + p7Count s.dlen.toNat ≤ Config.bufCap), .capacity)

/-- `P7.APPEND` (R130). -/
def execP7Append (arg : BitVec 24) (s : State) : Host.Outcome State Fault Refusal :=
  command (Instr.p7Append arg).encode [checkZ arg, checkIdle s, checkData s, checkAppendFits s] p7AppendAct s

/-- `P7.REMOVE` (R131). -/
def execP7Remove (arg : BitVec 24) (s : State) : Host.Outcome State Fault Refusal :=
  command (Instr.p7Remove arg).encode [checkZ arg, checkIdle s, checkData s] p7RemoveAct s

/-- `NP.APPEND` (R132). -/
def execNpAppend (arg : BitVec 24) (s : State) : Host.Outcome State Fault Refusal :=
  command (Instr.npAppend arg).encode [checkZ arg, checkIdle s, checkData s] npAppendAct s

/-- `NP.REMOVE` (R133). -/
def execNpRemove (arg : BitVec 24) (s : State) : Host.Outcome State Fault Refusal :=
  command (Instr.npRemove arg).encode [checkZ arg, checkIdle s, checkData s] npRemoveAct s

end Sys2Proof.Machine
end

