-- ==== Sys2Proof/Machine/SerpentEngine.lean ====
section
/-! DEFINITION. The Serpent engine as functions of words and bytes (spec 41_serpent R100 to R113): S-boxes in bit-slice
form, linear step, key schedule, block transforms. -/

namespace Sys2Proof.Machine

/-- `SBOX[n]` (R100). -/
def spSboxes : List (List Nibble) :=
  [[0x3, 0x8, 0xF, 0x1, 0xA, 0x6, 0x5, 0xB, 0xE, 0xD, 0x4, 0x2, 0x7, 0x0, 0x9, 0xC],
   [0xF, 0xC, 0x2, 0x7, 0x9, 0x0, 0x5, 0xA, 0x1, 0xB, 0xE, 0x8, 0x6, 0xD, 0x3, 0x4],
   [0x8, 0x6, 0x7, 0x9, 0x3, 0xC, 0xA, 0xF, 0xD, 0x1, 0xE, 0x4, 0x0, 0xB, 0x5, 0x2],
   [0x0, 0xF, 0xB, 0x8, 0xC, 0x9, 0x6, 0x3, 0xD, 0x1, 0x2, 0x4, 0xA, 0x7, 0x5, 0xE],
   [0x1, 0xF, 0x8, 0x3, 0xC, 0x0, 0xB, 0x6, 0x2, 0x5, 0x4, 0xA, 0x9, 0xE, 0x7, 0xD],
   [0xF, 0x5, 0x2, 0xB, 0x4, 0xA, 0x9, 0xC, 0x0, 0x3, 0xE, 0x8, 0xD, 0x6, 0x7, 0x1],
   [0x7, 0x2, 0xC, 0x5, 0x8, 0x4, 0x6, 0xB, 0xE, 0x9, 0x1, 0xF, 0xD, 0x3, 0xA, 0x0],
   [0x1, 0xD, 0xF, 0x0, 0xE, 0x8, 0x2, 0xB, 0x7, 0x4, 0xC, 0xA, 0x9, 0x3, 0x5, 0x6]]

/-- `SINV[n]` (R101). -/
def spInverses : List (List Nibble) :=
  [[0xD, 0x3, 0xB, 0x0, 0xA, 0x6, 0x5, 0xC, 0x1, 0xE, 0x4, 0x7, 0xF, 0x9, 0x8, 0x2],
   [0x5, 0x8, 0x2, 0xE, 0xF, 0x6, 0xC, 0x3, 0xB, 0x4, 0x7, 0x9, 0x1, 0xD, 0xA, 0x0],
   [0xC, 0x9, 0xF, 0x4, 0xB, 0xE, 0x1, 0x2, 0x0, 0x3, 0x6, 0xD, 0x5, 0x8, 0xA, 0x7],
   [0x0, 0x9, 0xA, 0x7, 0xB, 0xE, 0x6, 0xD, 0x3, 0x5, 0xC, 0x2, 0x4, 0x8, 0xF, 0x1],
   [0x5, 0x0, 0x8, 0x3, 0xA, 0x9, 0x7, 0xE, 0x2, 0xC, 0xB, 0x6, 0x4, 0xF, 0xD, 0x1],
   [0x8, 0xF, 0x2, 0x9, 0x4, 0x1, 0xD, 0xE, 0xB, 0x6, 0x5, 0x3, 0x7, 0xC, 0xA, 0x0],
   [0xF, 0xA, 0x1, 0xD, 0x5, 0x3, 0x6, 0x0, 0x4, 0x9, 0xE, 0x7, 0x2, 0xC, 0x8, 0xB],
   [0x3, 0x0, 0x6, 0xD, 0x9, 0xE, 0xF, 0x8, 0x5, 0xC, 0xB, 0x7, 0xA, 0x1, 0x4, 0x2]]

/-- A 4-bit table of a list of tables, as a function: `T[n][v]`. -/
def nibbleAt (T : List (List Nibble)) (n : Nat) (v : Nibble) : Nibble := (T.getD n []).getD v.toNat 0

/-- The bit column `j` of four words: word 0 supplies the least significant bit (R102). -/
def column (x : Quad) (j : Nat) : Nibble :=
  (BitVec.ofBool (x.w0.getLsbD j)).setWidth 4 ||| (BitVec.ofBool (x.w1.getLsbD j)).setWidth 4 <<< 1 |||
    (BitVec.ofBool (x.w2.getLsbD j)).setWidth 4 <<< 2 ||| (BitVec.ofBool (x.w3.getLsbD j)).setWidth 4 <<< 3

/-- The number whose bits `0 .. n-1` are `f 0 .. f (n-1)`. -/
def wordOfBits (f : Nat → Bool) : (n : Nat) → BitVec n
  | 0 => 0#0
  | n + 1 => BitVec.cons (f n) (wordOfBits f n)

/-- `slice(T, x)`: a 4-bit table applied to every bit column (R102). -/
def slice (T : Nibble → Nibble) (x : Quad) : Quad :=
  ⟨wordOfBits (fun j => (T (column x j)).getLsbD 0) 32, wordOfBits (fun j => (T (column x j)).getLsbD 1) 32,
    wordOfBits (fun j => (T (column x j)).getLsbD 2) 32, wordOfBits (fun j => (T (column x j)).getLsbD 3) 32⟩

/-- `S_n(x)` (R102). -/
def spS (n : Nat) (x : Quad) : Quad := slice (nibbleAt spSboxes n) x

/-- `SI_n(x)` (R102). -/
def spSI (n : Nat) (x : Quad) : Quad := slice (nibbleAt spInverses n) x

/-- The linear step `LT` (R104). -/
def spLT (x : Quad) : Quad :=
  let a0 := rol32 x.w0 13
  let a2 := rol32 x.w2 3
  let a1 := x.w1 ^^^ a0 ^^^ a2
  let a3 := x.w3 ^^^ a2 ^^^ (a0 <<< 3)
  let b1 := rol32 a1 1
  let b3 := rol32 a3 7
  let b0 := a0 ^^^ b1 ^^^ b3
  let b2 := a2 ^^^ b3 ^^^ (b1 <<< 7)
  ⟨rol32 b0 5, b1, rol32 b2 22, b3⟩

/-- The inverse linear step `LTI` (R105). -/
def spLTI (x : Quad) : Quad :=
  let a2 := ror32 x.w2 22
  let a0 := ror32 x.w0 5
  let b2 := a2 ^^^ x.w3 ^^^ (x.w1 <<< 7)
  let b0 := a0 ^^^ x.w1 ^^^ x.w3
  let c3 := ror32 x.w3 7
  let c1 := ror32 x.w1 1
  let d3 := c3 ^^^ b2 ^^^ (b0 <<< 3)
  let d1 := c1 ^^^ b0 ^^^ b2
  ⟨ror32 b0 13, d1, ror32 b2 3, d3⟩

/-- The normalized WKEY: the first `L` bytes reversed, then 0x01 where `L < 32`, then zeros (R106). -/
def spNormalize (L : Nat) (wkey : Vector Byte 32) : Vector Byte 32 :=
  table 32 fun i => if i < L then wkey.getD (L - 1 - i) 0 else if i = L then 1 else 0

/-- The seed word `w[i-8]`, `i` in 0..7, of a normalized key (R107). -/
def spSeedWord (wkey : Vector Byte 32) (i : Nat) : Word :=
  le32 (wkey.getD (4 * i) 0) (wkey.getD (4 * i + 1) 0) (wkey.getD (4 * i + 2) 0) (wkey.getD (4 * i + 3) 0)

/-- The word the recurrence makes at index `i` from the words before it, latest first (R107: distances 8, 5, 3, 1). -/
def spNextPrekey (back : List Word) (i : Nat) : Word :=
  rol32 (back.getD 7 0 ^^^ back.getD 4 0 ^^^ back.getD 2 0 ^^^ back.getD 0 0 ^^^ 0x9E3779B9 ^^^ BitVec.ofNat 32 i) 11

/-- The list with the word of index `i` put in front (R107). -/
def spExtend (back : List Word) (i : Nat) : List Word := spNextPrekey back i :: back

/-- The words `w[-8 .. n-1]`, latest first (R107). -/
def spWords (wkey : Vector Byte 32) : Nat → List Word
  | 0 => (listFrom (spSeedWord wkey) 8 0).reverse
  | n + 1 => spExtend (spWords wkey n) n

/-- The prekeys `w[0..131]` (R107). -/
def spPrekeys (wkey : Vector Byte 32) : List Word := (spWords wkey 132).reverse.drop 8

/-- The prekey quadruple `i` (R108). -/
def spPrekeyQuad (w : List Word) (i : Nat) : Quad :=
  ⟨w.getD (4 * i) 0, w.getD (4 * i + 1) 0, w.getD (4 * i + 2) 0, w.getD (4 * i + 3) 0⟩

/-- The round-key quadruple `i`, by the S-box `(3 - i) mod 8` (R108; 35 = 3 + 4 * 8, so the subtraction stays in the naturals
for `i` in 0..32). -/
def spRoundKey (w : List Word) (i : Nat) : Quad := spS ((35 - i) % 8) (spPrekeyQuad w i)

/-- Word `j` of a quadruple. -/
def quadWord (q : Quad) (j : Nat) : Word := if j = 0 then q.w0 else if j = 1 then q.w1 else if j = 2 then q.w2 else q.w3

/-- SP_K of a normalized working key (R107, R108). -/
def spSchedule (wkey : Vector Byte 32) : Vector Word 132 :=
  table 132 fun n => quadWord (spRoundKey (spPrekeys wkey) (n / 4)) (n % 4)

/-- Block load (R110): the bytes reversed, then little-endian words. -/
def spLoad (b : Block) : Quad := quadOfBlock (reverseBlock b)

/-- Block store (R111): little-endian words, then the bytes reversed. -/
def spStore (q : Quad) : Block := reverseBlock (blockOfQuad q)

/-- `K_i`, the round-key quadruple `SP_K[4i..4i+3]` (R112). -/
def spKeyQuad (K : Vector Word 132) (i : Nat) : Quad :=
  ⟨K.getD (4 * i) 0, K.getD (4 * i + 1) 0, K.getD (4 * i + 2) 0, K.getD (4 * i + 3) 0⟩

/-- Round `n` of the encryption (R112). -/
def spRound (K : Vector Word 132) (n : Nat) (x : Quad) : Quad :=
  let y := spS (n % 8) x
  xorQuad (if n < 31 then spLT y else y) (spKeyQuad K (n + 1))

/-- Round `n` of the decryption (R113). -/
def spUnround (K : Vector Word 132) (n : Nat) (x : Quad) : Quad :=
  let y := xorQuad x (spKeyQuad K (n + 1))
  spSI (n % 8) (if n < 31 then spLTI y else y)

/-- The encryption of four words (R112). -/
def spEncQuad (K : Vector Word 132) (x : Quad) : Quad :=
  (List.range 32).foldl (fun y n => spRound K n y) (xorQuad x (spKeyQuad K 0))

/-- The decryption of four words (R113): rounds 31 down to 0. -/
def spDecQuad (K : Vector Word 132) (x : Quad) : Quad :=
  xorQuad ((List.range 32).foldr (fun n y => spUnround K n y) x) (spKeyQuad K 0)

/-- The block encryption (R110, R112, R111). -/
def spEncBlock (K : Vector Word 132) (b : Block) : Block := spStore (spEncQuad K (spLoad b))

/-- The block decryption (R110, R113, R111). -/
def spDecBlock (K : Vector Word 132) (b : Block) : Block := spStore (spDecQuad K (spLoad b))

end Sys2Proof.Machine
end

