-- ==== Sys2Proof/Machine/Serpent.lean ====
section
/-! DEFINITION. The Serpent commands (spec 41_serpent R109, R112 to R114). -/

namespace Sys2Proof.Machine

/-- The effect of `SP.KEYX` (R109): WKEY is normalized in place (R106), SP_K built from it, SPX_VALID. -/
def spKeyxAct (s : State) : State :=
  { s with wkey := spNormalize s.wklen s.wkey, wklen := 32, spK := spSchedule (spNormalize s.wklen s.wkey), spxValid := true }

/-- The effect of `SP.ENCB off` (R112). -/
def spEncAct (off : Nat) (s : State) : State := s.blockUpdate (spEncBlock s.spK) off

/-- The effect of `SP.DECB off` (R113). -/
def spDecAct (off : Nat) (s : State) : State := s.blockUpdate (spDecBlock s.spK) off

/-- The effect of `SP.CLOSE` (R114): SPX_VALID 0, the contents of SP_K unspecified; WKEY as it was. -/
def spCloseAct (s : State) : State := { s with spxValid := false, spK := freeSpK s.draws, draws := s.draws + 1 }

/-- The checks of `SP.ENCB` and `SP.DECB`, in order (R112, R113). -/
def spBlockChecks (off : Nat) (s : State) : List Check :=
  [checkIdle s, checkData s, (s.spxValid, .noKeySched), checkBlock off s]

/-- `SP.KEYX` (R109). -/
def execSpKeyx (arg : BitVec 24) (s : State) : Host.Outcome State Fault Refusal :=
  command (Instr.spKeyx arg).encode [checkZ arg, checkIdle s, checkWkey s] spKeyxAct s

/-- `SP.ENCB` (R112). -/
def execSpEncb (off : BitVec 24) (s : State) : Host.Outcome State Fault Refusal :=
  command (Instr.spEncb off).encode (spBlockChecks (offsetOf off) s) (spEncAct (offsetOf off)) s

/-- `SP.DECB` (R113). -/
def execSpDecb (off : BitVec 24) (s : State) : Host.Outcome State Fault Refusal :=
  command (Instr.spDecb off).encode (spBlockChecks (offsetOf off) s) (spDecAct (offsetOf off)) s

/-- `SP.CLOSE` (R114). -/
def execSpClose (arg : BitVec 24) (s : State) : Host.Outcome State Fault Refusal :=
  command (Instr.spClose arg).encode [checkZ arg, checkIdle s] spCloseAct s

end Sys2Proof.Machine
end

