-- ==== Sys2Proof/Machine/TwofishEngine.lean ====
section
/-! DEFINITION. The Twofish engine as functions of words and bytes (spec 40_twofish R60 to R77): fixed tables, key schedule,
round, block transforms. -/

namespace Sys2Proof.Machine

/-- The eight fixed permutations of the 4-bit values, table `n`, stage `s` (R60). -/
def tfNibbleTables : List (List (List Nibble)) :=
  [[[0x8, 0x1, 0x7, 0xD, 0x6, 0xF, 0x3, 0x2, 0x0, 0xB, 0x5, 0x9, 0xE, 0xC, 0xA, 0x4],
    [0xE, 0xC, 0xB, 0x8, 0x1, 0x2, 0x3, 0x5, 0xF, 0x4, 0xA, 0x6, 0x7, 0x0, 0x9, 0xD],
    [0xB, 0xA, 0x5, 0xE, 0x6, 0xD, 0x9, 0x0, 0xC, 0x8, 0xF, 0x3, 0x2, 0x4, 0x7, 0x1],
    [0xD, 0x7, 0xF, 0x4, 0x1, 0x2, 0x6, 0xE, 0x9, 0xB, 0x3, 0x0, 0x8, 0x5, 0xC, 0xA]],
   [[0x2, 0x8, 0xB, 0xD, 0xF, 0x7, 0x6, 0xE, 0x3, 0x1, 0x9, 0x4, 0x0, 0xA, 0xC, 0x5],
    [0x1, 0xE, 0x2, 0xB, 0x4, 0xC, 0x3, 0x7, 0x6, 0xD, 0xA, 0x5, 0xF, 0x9, 0x0, 0x8],
    [0x4, 0xC, 0x7, 0x5, 0x1, 0x6, 0x9, 0xA, 0x0, 0xE, 0xD, 0x8, 0x2, 0xB, 0x3, 0xF],
    [0xB, 0x9, 0x5, 0x1, 0xC, 0x3, 0xD, 0xE, 0x6, 0x4, 0x7, 0xF, 0x2, 0x0, 0x8, 0xA]]]

/-- `TQ[n][s][x]` (R60). -/
def TQ (n s : Nat) (x : Nibble) : Nibble := ((tfNibbleTables.getD n []).getD s []).getD x.toNat 0

/-- `qp(n, x)` (R61). -/
def qp (n : Nat) (x : Byte) : Byte :=
  let a0 : Nibble := x.extractLsb' 4 4
  let b0 : Nibble := x.extractLsb' 0 4
  let a1 := a0 ^^^ b0
  let b1 := a0 ^^^ ror4 b0 ^^^ (a0 <<< 3)
  let a2 := TQ n 0 a1
  let b2 := TQ n 1 b1
  let a3 := a2 ^^^ b2
  let b3 := a2 ^^^ ror4 b2 ^^^ (a2 <<< 3)
  let a4 := TQ n 2 a3
  let b4 := TQ n 3 b3
  b4.setWidth 8 <<< 4 ||| a4.setWidth 8

/-- The byte tables `q[n][x] = qp(n, x)` (R62). -/
def qTable (n : Nat) (x : Byte) : Byte := qp n x

/-- The MDS matrix (R63). -/
def tfMDS : List (List Byte) :=
  [[0x01, 0xEF, 0x5B, 0x5B], [0x5B, 0xEF, 0xEF, 0x01], [0xEF, 0x5B, 0x01, 0xEF], [0xEF, 0x01, 0xEF, 0x5B]]

/-- `QLAST`: the q table of the last lookup of byte lane `j` (R64). -/
def qLast (j : Nat) : Nat := [1, 0, 1, 0].getD j 0

/-- One product of the MDS matrix, row `i`, column `j`, in the field of polynomial 0x169 (R63, R64). -/
def mdsByte (i j : Nat) (v : Byte) : Byte := gfmul 0x169 ((tfMDS.getD i []).getD j 0) v

/-- The fixed word tables `m[j][x]` (R64). -/
def mTable (j : Nat) (x : Byte) : Word :=
  let v := qTable (qLast j) x
  le32 (mdsByte 0 j v) (mdsByte 1 j v) (mdsByte 2 j v) (mdsByte 3 j v)

/-- `N`, the length a key of `L` bytes is extended to (R65). -/
def tfKeySize (L : Nat) : Nat := if L ≤ 16 then 16 else if L ≤ 24 then 24 else 32

/-- The normalized key: `WKEY[0..L-1]` and then zero bytes up to `N` (R65). -/
def tfKeyBytes (wklen : Nat) (wkey : Vector Byte 32) : List Byte :=
  wkey.toList.take wklen ++ List.replicate (tfKeySize wklen - wklen) 0

/-- `k = N / 8`, DOC0's kLen (R65). -/
def tfKLen (wklen : Nat) : Nat := tfKeySize wklen / 8

/-- `Mw[i]`, the little-endian key words (R65). -/
def tfKeyWord (key : List Byte) (i : Nat) : Word :=
  le32 (key.getD (4 * i) 0) (key.getD (4 * i + 1) 0) (key.getD (4 * i + 2) 0) (key.getD (4 * i + 3) 0)

/-- `Me[0..k-1]`, the even key words (R65). -/
def tfMe (key : List Byte) (k : Nat) : List Word := listFrom (fun i => tfKeyWord key (2 * i)) k 0

/-- `Mo[0..k-1]`, the odd key words (R65). -/
def tfMo (key : List Byte) (k : Nat) : List Word := listFrom (fun i => tfKeyWord key (2 * i + 1)) k 0

/-- The RS matrix (R66). -/
def tfRS : List (List Byte) :=
  [[0x01, 0xA4, 0x55, 0x87, 0x5A, 0x58, 0xDB, 0x9E], [0xA4, 0x56, 0x82, 0xF3, 0x1E, 0xC6, 0x68, 0xE5],
   [0x02, 0xA1, 0xFC, 0xC1, 0x47, 0xAE, 0x3D, 0x19], [0xA4, 0x55, 0x87, 0x5A, 0x58, 0xDB, 0x9E, 0x03]]

/-- `s[r]`: row `r` of RS times the eight key bytes from index `o`, in the field of polynomial 0x14D (R66). -/
def rsByte (key : List Byte) (o r : Nat) : Byte :=
  (List.range 8).foldl (fun acc c => acc ^^^ gfmul 0x14D ((tfRS.getD r []).getD c 0) (key.getD (o + c) 0)) 0

/-- `Sv[i]` by the matrix (R66). -/
def rsWord (key : List Byte) (i : Nat) : Word :=
  le32 (rsByte key (8 * i) 0) (rsByte key (8 * i) 1) (rsByte key (8 * i) 2) (rsByte key (8 * i) 3)

/-- One turn of the shift-register form of R67 on the pair (p, q). -/
def rsRemStep (x : Word × Word) : Word × Word :=
  let p := x.1
  let q := x.2
  let t := q >>> 24
  let q1 := (q <<< 8) ||| (p >>> 24)
  let u1 := if t.getLsbD 7 then (t <<< 1) ^^^ 0x14D else t <<< 1
  let q2 := q1 ^^^ t ^^^ (u1 <<< 16)
  let u2 := if t.getLsbD 0 then u1 ^^^ (t >>> 1) ^^^ 0xA6 else u1 ^^^ (t >>> 1)
  (p <<< 8, q2 ^^^ (u2 <<< 24) ^^^ (u2 <<< 8))

/-- `rs_rem(p, q)`, the same value by eight shift-register turns (R67); the key schedule uses the matrix (log 12). -/
def rsRem (p q : Word) : Word := (Nat.repeat rsRemStep 8 (p, q)).2

/-- `Sv[0..k-1]` (R66). -/
def tfSv (key : List Byte) (k : Nat) : List Word := listFrom (rsWord key) k 0

/-- `S`: `Sv` reversed (R71). -/
def tfS (key : List Byte) (k : Nat) : List Word := (tfSv key k).reverse

/-- `QSTAGE[s][i]`: which q table lane `i` uses at stage `s` (R68). -/
def qStage (s i : Nat) : Nat := (([[0, 0, 1, 1], [0, 1, 0, 1], [1, 1, 0, 0], [1, 0, 0, 1]] : List (List Nat)).getD s []).getD i 0

/-- One lane of the h cascade: stages `s - 1` down to 0 (R68). -/
def hLane (i : Nat) (L : List Word) : Nat → Byte → Byte
  | 0, y => y
  | s + 1, y => hLane i L s (qTable (qStage s i) y ^^^ byteOf (L.getD s 0) i)

/-- The h-function (R68, R69). -/
def hFun (X : Word) (L : List Word) : Word :=
  mTable 0 (hLane 0 L L.length (byteOf X 0)) ^^^ mTable 1 (hLane 1 L L.length (byteOf X 1)) ^^^
    mTable 2 (hLane 2 L L.length (byteOf X 2)) ^^^ mTable 3 (hLane 3 L L.length (byteOf X 3))

/-- `A` of subkey pair `i` (R70). -/
def tfSubkeyA (me : List Word) (i : Nat) : Word := hFun (BitVec.ofNat 32 (2 * i) * 0x01010101) me

/-- `B` of subkey pair `i` (R70). -/
def tfSubkeyB (mo : List Word) (i : Nat) : Word := rol32 (hFun (BitVec.ofNat 32 (2 * i + 1) * 0x01010101) mo) 8

/-- `TF_K[n]` (R70). -/
def tfSubkey (me mo : List Word) (n : Nat) : Word :=
  let a := tfSubkeyA me (n / 2)
  let b := tfSubkeyB mo (n / 2)
  if n % 2 = 0 then a + b else rol32 (a + b + b) 9

/-- The 40 round subkeys (R70). -/
def tfSubkeys (me mo : List Word) : Vector Word 40 := table 40 (tfSubkey me mo)

/-- The four key-dependent tables (R72). -/
def tfTables (S : List Word) : Vector (Vector Word 256) 4 :=
  table 4 fun j => table 256 fun x => mTable j (hLane j S S.length (BitVec.ofNat 8 x))

/-- TF_K of the working key (R65, R70). -/
def tfScheduleK (wklen : Nat) (wkey : Vector Byte 32) : Vector Word 40 :=
  tfSubkeys (tfMe (tfKeyBytes wklen wkey) (tfKLen wklen)) (tfMo (tfKeyBytes wklen wkey) (tfKLen wklen))

/-- TF_M of the working key (R65, R66, R71, R72). -/
def tfScheduleM (wklen : Nat) (wkey : Vector Byte 32) : Vector (Vector Word 256) 4 :=
  tfTables (tfS (tfKeyBytes wklen wkey) (tfKLen wklen))

/-- `TF_M[j][x]`. -/
def tfLookup (M : Vector (Vector Word 256) 4) (j : Fin 4) (x : Byte) : Word := M[j][x.toNat]'(by have := x.isLt; omega)

/-- `G0(X)` (R73). -/
def tfG0 (M : Vector (Vector Word 256) 4) (X : Word) : Word :=
  tfLookup M 0 (byteOf X 0) ^^^ tfLookup M 1 (byteOf X 1) ^^^ tfLookup M 2 (byteOf X 2) ^^^ tfLookup M 3 (byteOf X 3)

/-- `G1(X)` (R74). -/
def tfG1 (M : Vector (Vector Word 256) 4) (X : Word) : Word :=
  tfLookup M 0 (byteOf X 3) ^^^ tfLookup M 1 (byteOf X 0) ^^^ tfLookup M 2 (byteOf X 1) ^^^ tfLookup M 3 (byteOf X 2)

/-- `f0` of a round (R75). -/
def tfF0 (M : Vector (Vector Word 256) 4) (a b ka : Word) : Word := tfG0 M a + tfG1 M b + ka

/-- `f1` of a round (R75). -/
def tfF1 (M : Vector (Vector Word 256) 4) (a b kb : Word) : Word := tfG0 M a + tfG1 M b + tfG1 M b + kb

/-- The forward round: source (a, b), target (c, d), subkeys (ka, kb) (R75). -/
def tfForward (M : Vector (Vector Word 256) 4) (a b c d ka kb : Word) : Word × Word :=
  (ror32 (c ^^^ tfF0 M a b ka) 1, rol32 d 1 ^^^ tfF1 M a b kb)

/-- The inverse round (R75). -/
def tfInverse (M : Vector (Vector Word 256) 4) (a b c d ka kb : Word) : Word × Word :=
  (rol32 c 1 ^^^ tfF0 M a b ka, ror32 (d ^^^ tfF1 M a b kb) 1)

/-- `TF_K[i]`. -/
def tfKey (K : Vector Word 40) (i : Nat) : Word := K.getD i 0

/-- One double-round of R76: rounds `2j` and `2j+1` on `r[0..3]`. -/
def tfDouble (K : Vector Word 40) (M : Vector (Vector Word 256) 4) (j : Nat) (r : Quad) : Quad :=
  let x := tfForward M r.w0 r.w1 r.w2 r.w3 (tfKey K (8 + 4 * j)) (tfKey K (9 + 4 * j))
  let y := tfForward M x.1 x.2 r.w0 r.w1 (tfKey K (10 + 4 * j)) (tfKey K (11 + 4 * j))
  ⟨y.1, y.2, x.1, x.2⟩

/-- One inverse double-round of R77. -/
def tfUndouble (K : Vector Word 40) (M : Vector (Vector Word 256) 4) (j : Nat) (r : Quad) : Quad :=
  let y := tfInverse M r.w2 r.w3 r.w0 r.w1 (tfKey K (10 + 4 * j)) (tfKey K (11 + 4 * j))
  let x := tfInverse M y.1 y.2 r.w2 r.w3 (tfKey K (8 + 4 * j)) (tfKey K (9 + 4 * j))
  ⟨y.1, y.2, x.1, x.2⟩

/-- The input whitening subkeys (R70). -/
def tfWhiteIn (K : Vector Word 40) : Quad := ⟨tfKey K 0, tfKey K 1, tfKey K 2, tfKey K 3⟩

/-- The output whitening subkeys (R70). -/
def tfWhiteOut (K : Vector Word 40) : Quad := ⟨tfKey K 4, tfKey K 5, tfKey K 6, tfKey K 7⟩

/-- The one swap of the word pairs (R76). -/
def tfSwap (r : Quad) : Quad := ⟨r.w2, r.w3, r.w0, r.w1⟩

/-- The encryption of four words (R76). -/
def tfEncQuad (K : Vector Word 40) (M : Vector (Vector Word 256) 4) (x : Quad) : Quad :=
  xorQuad (tfSwap ((List.range 8).foldl (fun r j => tfDouble K M j r) (xorQuad x (tfWhiteIn K)))) (tfWhiteOut K)

/-- The decryption of four words (R77): the double-rounds 7 down to 0. -/
def tfDecQuad (K : Vector Word 40) (M : Vector (Vector Word 256) 4) (x : Quad) : Quad :=
  xorQuad ((List.range 8).foldr (fun j r => tfUndouble K M j r) (tfSwap (xorQuad x (tfWhiteOut K)))) (tfWhiteIn K)

/-- The block encryption (R76). -/
def tfEncBlock (K : Vector Word 40) (M : Vector (Vector Word 256) 4) (b : Block) : Block :=
  blockOfQuad (tfEncQuad K M (quadOfBlock b))

/-- The block decryption (R77). -/
def tfDecBlock (K : Vector Word 40) (M : Vector (Vector Word 256) 4) (b : Block) : Block :=
  blockOfQuad (tfDecQuad K M (quadOfBlock b))

end Sys2Proof.Machine
end

