-- ==== Sys2Proof/Machine/Twofish.lean ====
section
/-! DEFINITION. The Twofish commands (spec 40_twofish R76 to R79). -/

namespace Sys2Proof.Machine

/-- The effect of `TF.KEYX` (R78): TF_K and TF_M of the working key, TFX_VALID; WKEY is not changed. -/
def tfKeyxAct (s : State) : State :=
  { s with tfK := tfScheduleK s.wklen s.wkey, tfM := tfScheduleM s.wklen s.wkey, tfxValid := true }

/-- The effect of `TF.ENCB off` (R76). -/
def tfEncAct (off : Nat) (s : State) : State := s.blockUpdate (tfEncBlock s.tfK s.tfM) off

/-- The effect of `TF.DECB off` (R77). -/
def tfDecAct (off : Nat) (s : State) : State := s.blockUpdate (tfDecBlock s.tfK s.tfM) off

/-- The effect of `TF.CLOSE` (R79): TFX_VALID 0, the contents of TF_K and TF_M unspecified. -/
def tfCloseAct (s : State) : State :=
  { s with tfxValid := false, tfK := freeTfK s.draws, tfM := freeTfM s.draws, draws := s.draws + 1 }

/-- The checks of `TF.ENCB` and `TF.DECB`, in order (R76, R77). -/
def tfBlockChecks (off : Nat) (s : State) : List Check :=
  [checkIdle s, checkData s, (s.tfxValid, .noKeySched), checkBlock off s]

/-- `TF.KEYX` (R78). -/
def execTfKeyx (arg : BitVec 24) (s : State) : Host.Outcome State Fault Refusal :=
  command (Instr.tfKeyx arg).encode [checkZ arg, checkIdle s, checkWkey s] tfKeyxAct s

/-- `TF.ENCB` (R76). -/
def execTfEncb (off : BitVec 24) (s : State) : Host.Outcome State Fault Refusal :=
  command (Instr.tfEncb off).encode (tfBlockChecks (offsetOf off) s) (tfEncAct (offsetOf off)) s

/-- `TF.DECB` (R77). -/
def execTfDecb (off : BitVec 24) (s : State) : Host.Outcome State Fault Refusal :=
  command (Instr.tfDecb off).encode (tfBlockChecks (offsetOf off) s) (tfDecAct (offsetOf off)) s

/-- `TF.CLOSE` (R79). -/
def execTfClose (arg : BitVec 24) (s : State) : Host.Outcome State Fault Refusal :=
  command (Instr.tfClose arg).encode [checkZ arg, checkIdle s] tfCloseAct s

end Sys2Proof.Machine
end

