-- ==== Sys2Proof/Machine/Cbc.lean ====
section
/-! DEFINITION. The CBC mode driver (spec 43_cbc R140 to R149): `CBC.OPEN`, `CBC.STEP`, `CBC.CLOSE`. ENC, DEC, KEYX and RELEASE
are the actions of the engine commands of the engine CFG.ALG names, without their checks (43_cbc, introduction). -/

namespace Sys2Proof.Machine

/-- `KEYX` of the engine of CFG.ALG (R140). -/
def engineKeyx (s : State) : State := if s.isSerpent then spKeyxAct s else tfKeyxAct s

/-- `ENC(off)` of the engine of CFG.ALG. -/
def engineEnc (off : Nat) (s : State) : State := if s.isSerpent then spEncAct off s else tfEncAct off s

/-- `DEC(off)` of the engine of CFG.ALG. -/
def engineDec (off : Nat) (s : State) : State := if s.isSerpent then spDecAct off s else tfDecAct off s

/-- `RELEASE` of the engine of CFG.ALG (R146). -/
def engineClose (s : State) : State := if s.isSerpent then spCloseAct s else tfCloseAct s

/-- The draw `RND`: sixteen free bytes (00_scope R5, log 7). -/
def rndBlock (s : State) : Block := freeBlock .rnd s.draws

/-- Open, direction Encrypt (R141): the data moves up by one block and `RND` is put before it. -/
def openEncrypt (s : State) : State :=
  { s with
    dbuf := Memory.writeList (Memory.shiftUp (Memory.forgetFrom s.dbuf s.dlen.toNat) 16) 0 (rndBlock s).toList
    dlen := s.dlen + 16
    ivreg := rndBlock s
    cur := 16
    rem := s.dlen + 16 - 16
    phase := .opened
    draws := s.draws + 1 }

/-- Open, direction Decrypt (R142): the first block is the IV. -/
def openDecrypt (s : State) : State :=
  { s with ivreg := s.readBlock 0, cur := 16, rem := s.dlen - 16, phase := .opened, draws := s.draws + 1 }

/-- The effect of `CBC.OPEN` (R140). -/
def cbcOpenAct (s : State) : State :=
  State.forgetTail (if s.isDecrypt then openDecrypt (engineKeyx s) else openEncrypt (engineKeyx s))

/-- The cursor moves on by one block (R144, R145). -/
def advance (s : State) : State :=
  { s with cur := s.cur + 16, rem := s.dlen - (s.cur + 16), phase := .stepping }

/-- Step, direction Encrypt (R144): the block is XORed with the one before it and enciphered in place. -/
def stepEncrypt (s : State) : State :=
  advance (engineEnc s.cur.toNat
    (s.blockUpdate (fun b => xorBlock b (s.readBlock (s.cur.toNat - 16))) s.cur.toNat))

/-- Step, direction Decrypt (R145): the block is deciphered in place and XORed with the current IV, and its old bytes are
the next IV. -/
def stepDecrypt (s : State) : State :=
  { advance ((engineDec s.cur.toNat s).blockUpdate (fun b => xorBlock b s.ivreg) s.cur.toNat) with
    ivreg := s.readBlock s.cur.toNat }

/-- The effect of `CBC.STEP` (R143). -/
def cbcStepAct (s : State) : State := State.forgetTail (if s.isDecrypt then stepDecrypt s else stepEncrypt s)

/-- Strip the IV (R147). -/
def stripIv (s : State) : State :=
  { s with dbuf := Memory.shiftDown (Memory.forgetFrom s.dbuf s.dlen.toNat) 16, dlen := s.dlen - 16 }

/-- The length left of `n` bytes when the zero bytes at the end are dropped (R148). -/
def trimLen (byte : Nat → Byte) : Nat → Nat
  | 0 => 0
  | n + 1 => if byte n = 0 then trimLen byte n else n + 1

/-- Trim the trailing zeros (R148). It reads DBUF, so it uses up a draw. -/
def trimZeros (s : State) : State :=
  State.forgetTail { s with dlen := BitVec.ofNat 32 (trimLen s.byteAt s.dlen.toNat), draws := s.draws + 1 }

/-- Remove the padding (R149). -/
def removePadding (s : State) : State := if s.isPkcs7 then p7RemoveAct s else npRemoveAct s

/-- PHASE, CUR, REM and IVREG after a close (R146); IVREG is unspecified. -/
def endRun (s : State) : State :=
  { s with phase := .closed, cur := 0, rem := 0, ivreg := freeBlock .ivreg s.draws, draws := s.draws + 1 }

/-- The effect of `CBC.CLOSE` (R146). -/
def cbcCloseAct (s : State) : State :=
  State.forgetTail (endRun
    (if s.isDecrypt then removePadding (trimZeros (stripIv (engineClose s))) else engineClose s))

/-- The length the mode driver is given is legal, else LENGTH (R140 check 5). -/
def checkOpenLength (s : State) : Check :=
  (s.dlen.toNat % 16 == 0 && decide ((if s.isDecrypt then 32 else 16) ≤ s.dlen.toNat), .length)

/-- The IV fits the buffer, else CAPACITY (R140 check 6). -/
def checkOpenFits (s : State) : Check := (s.isDecrypt || decide (s.dlen.toNat + 16 ≤ Config.bufCap), .capacity)

/-- A block remains, else LENGTH (R143). -/
def checkBlockLeft (s : State) : Check := (decide (s.cur.toNat + 16 ≤ s.dlen.toNat), .length)

/-- No block remains, else LENGTH (R146). -/
def checkAllDone (s : State) : Check := (s.cur == s.dlen, .length)

/-- `CBC.OPEN` (R140). -/
def execCbcOpen (arg : BitVec 24) (s : State) : Host.Outcome State Fault Refusal :=
  command (Instr.cbcOpen arg).encode
    [checkZ arg, checkStartable s, checkWkey s, checkData s, checkOpenLength s, checkOpenFits s] cbcOpenAct s

/-- `CBC.STEP` (R143). -/
def execCbcStep (arg : BitVec 24) (s : State) : Host.Outcome State Fault Refusal :=
  command (Instr.cbcStep arg).encode [checkZ arg, checkRunning s, checkBlockLeft s] cbcStepAct s

/-- `CBC.CLOSE` (R146). -/
def execCbcClose (arg : BitVec 24) (s : State) : Host.Outcome State Fault Refusal :=
  command (Instr.cbcClose arg).encode [checkZ arg, checkStepping s, checkAllDone s] cbcCloseAct s

end Sys2Proof.Machine
end

