-- ==== Sys2Proof/Machine/Session.lean ====
section
/-! DEFINITION. The session commands (spec 44_session R160 to R162): `KEY.CLONE`, `SESS.CREATE`, `SESS.EXEC`. -/

namespace Sys2Proof.Machine

/-- The effect of `KEY.CLONE` (R162): WKEY is KEY below KEYLEN and unspecified above. -/
def keyCloneAct (s : State) : State :=
  { s with
    wkey := table 32 fun i => if i < s.keylen.toNat then s.key.getD i 0 else Config.freeByte .wkey s.draws i
    wklen := s.keylen.toNat
    wkeyValid := true
    draws := s.draws + 1 }

/-- The effect of `SESS.CREATE` with command word `w` (R161). -/
def sessCreateAct (w : Word) (s : State) : State :=
  State.forgetTail { s with cfg := cfgOf w, cfgValid := true, phase := .created, cur := 0, rem := 0 }

/-- The repetition of `SESS.EXEC`: a step, again until REM = 0 (R160). The number bounds the turns; a legal run makes
exactly `(DLEN - 16) / 16` of them (43_cbc R151, log 14). -/
def stepLoop : Nat → State → State
  | 0, s => s
  | n + 1, s => if (cbcStepAct s).rem = 0 then cbcStepAct s else stepLoop n (cbcStepAct s)

/-- The padding `SESS.EXEC` appends when it encrypts (R160). -/
def sessAppend (s : State) : State :=
  if s.isDecrypt then s else if s.isPkcs7 then p7AppendAct s else npAppendAct s

/-- The run of `SESS.EXEC` after its open: the steps and the close (R160). -/
def sessRun (s : State) : State := cbcCloseAct (stepLoop (s.dlen.toNat / 16) s)

/-- The effect of `SESS.EXEC` (R160). -/
def sessExecAct (s : State) : State := sessRun (cbcOpenAct (sessAppend (keyCloneAct s)))

/-- KEYLEN is the session's key size, else KEYLEN (R160 check 5). -/
def checkKeylen (s : State) : Check := (s.keylen.toNat * 8 == (cfgKeybits s.cfg).toNat, .keylen)

/-- The length the mode driver will be given is legal, else LENGTH (R160 check 6). -/
def checkExecLength (s : State) : Check :=
  (if s.isDecrypt then decide (32 ≤ s.dlen.toNat) && s.dlen.toNat % 16 == 0
    else s.isPkcs7 || (decide (16 ≤ s.dlen.toNat) && s.dlen.toNat % 16 == 0), .length)

/-- `Lp`, the length after padding (R160 check 7). -/
def paddedLen (s : State) : Nat := if s.isPkcs7 then s.dlen.toNat + p7Count s.dlen.toNat else s.dlen.toNat

/-- The result fits the buffer, else CAPACITY (R160 check 7). -/
def checkExecFits (s : State) : Check := (s.isDecrypt || decide (paddedLen s + 16 ≤ Config.bufCap), .capacity)

/-- The seven checks of `SESS.EXEC`, in order (R160). -/
def sessExecChecks (arg : BitVec 24) (s : State) : List Check :=
  [checkZ arg, checkStartable s, checkKey s, checkData s, checkKeylen s, checkExecLength s, checkExecFits s]

/-- `KEY.CLONE` (R162). -/
def execKeyClone (arg : BitVec 24) (s : State) : Host.Outcome State Fault Refusal :=
  command (Instr.keyClone arg).encode [checkZ arg, checkIdle s, checkKey s] keyCloneAct s

/-- `SESS.CREATE` (R161). -/
def execSessCreate (alg dir : BitVec 1) (mode pad rsv : BitVec 2) (keybits : BitVec 16) (s : State) :
    Host.Outcome State Fault Refusal :=
  command (Instr.sessCreate alg dir mode pad rsv keybits).encode
    [checkCfgFields mode pad rsv, checkKeybits keybits, checkIdle s]
    (sessCreateAct (Instr.sessCreate alg dir mode pad rsv keybits).encode) s

/-- `SESS.EXEC` (R160). -/
def execSessExec (arg : BitVec 24) (s : State) : Host.Outcome State Fault Refusal :=
  command (Instr.sessExec arg).encode (sessExecChecks arg s) sessExecAct s

end Sys2Proof.Machine
end

