-- ==== Sys2Proof/Machine/System.lean ====
section
/-! DEFINITION. The system commands: `SYS.RESET` (spec 70_reset_and_hazards R200) and `ERR.ACK` (60_exceptions R186). Both run
even while ERR = 1 (R184) and in every PHASE (R190). -/

namespace Sys2Proof.Machine

/-- The effect of `SYS.RESET` (R200): the table R25, its unspecified entries from a fresh draw; the host's pending accesses
and last read are not the block's and stay. -/
def sysResetAct (s : State) : State := State.afterReset s.draws s.host s.busRead

/-- `SYS.RESET` (R200). -/
def execSysReset (arg : BitVec 24) (s : State) : Host.Outcome State Fault Refusal :=
  guarded (Instr.sysReset arg).encode [checkZ arg] sysResetAct s

/-- `ERR.ACK` (R186). -/
def execErrAck (arg : BitVec 24) (s : State) : Host.Outcome State Fault Refusal :=
  guarded (Instr.errAck arg).encode [checkZ arg] State.acknowledge s

end Sys2Proof.Machine
end

