-- ==== Sys2Proof/Machine/Dispatch.lean ====
section
/-! DEFINITION. One arm per command, each one call of its meaning. -/

namespace Sys2Proof.Machine

def exec (i : Instr) (s : State) : Host.Outcome State Fault Refusal :=
  match i with
  | .sysReset arg => Sys2Proof.Machine.execSysReset arg s
  | .errAck arg => Sys2Proof.Machine.execErrAck arg s
  | .keyClone arg => Sys2Proof.Machine.execKeyClone arg s
  | .sessCreate alg dir mode pad rsv keybits => Sys2Proof.Machine.execSessCreate alg dir mode pad rsv keybits s
  | .sessExec arg => Sys2Proof.Machine.execSessExec arg s
  | .tfKeyx arg => Sys2Proof.Machine.execTfKeyx arg s
  | .tfEncb off => Sys2Proof.Machine.execTfEncb off s
  | .tfDecb off => Sys2Proof.Machine.execTfDecb off s
  | .tfClose arg => Sys2Proof.Machine.execTfClose arg s
  | .spKeyx arg => Sys2Proof.Machine.execSpKeyx arg s
  | .spEncb off => Sys2Proof.Machine.execSpEncb off s
  | .spDecb off => Sys2Proof.Machine.execSpDecb off s
  | .spClose arg => Sys2Proof.Machine.execSpClose arg s
  | .p7Append arg => Sys2Proof.Machine.execP7Append arg s
  | .p7Remove arg => Sys2Proof.Machine.execP7Remove arg s
  | .npAppend arg => Sys2Proof.Machine.execNpAppend arg s
  | .npRemove arg => Sys2Proof.Machine.execNpRemove arg s
  | .cbcOpen arg => Sys2Proof.Machine.execCbcOpen arg s
  | .cbcStep arg => Sys2Proof.Machine.execCbcStep arg s
  | .cbcClose arg => Sys2Proof.Machine.execCbcClose arg s

end Sys2Proof.Machine
end

