-- ==== Sys2Proof/Machine/HostPort.lean ====
section
/-! DEFINITION. The host port: the map of the window (spec 10_state R26), host reads and writes (R11 to R19, 20_memory R43,
R44), and the write to CMD, which is the execution of a command (30_encoding R50). -/

namespace Sys2Proof.Machine

/-- What an aligned 32-bit access at `off` names (R26). KEY and DBUF are not accessed by words (20_memory R43). -/
def wordRegion (off : Nat) : Region :=
  if off = 0x00 then .cmd
  else if off = 0x04 then .status
  else if off = 0x08 then .errcode
  else if off = 0x0C then .errcmd
  else if off = 0x10 then .cfg
  else if off = 0x14 then .keylen
  else if off = 0x18 then .dlen
  else if off = 0x1C then .cur
  else if off = 0x20 then .rem
  else if off < 0x40 then .reserved
  else if off < 0x60 then .unlisted
  else if off < 0x1000 then .reserved
  else if off - 0x1000 < Config.bufCap then .unlisted
  else .reserved

/-- What an 8-bit access at `off` names (R26). The registers are not accessed by bytes (20_memory R43). -/
def byteRegion (off : Nat) : Region :=
  if off < 0x24 then .unlisted
  else if off < 0x40 then .reserved
  else if off < 0x60 then .key (off - 0x40)
  else if off < 0x1000 then .reserved
  else if off - 0x1000 < Config.bufCap then .dbuf (off - 0x1000)
  else .reserved

/-- What an access names (R26); every other width, and an unaligned word, is not listed (93 U6). -/
def regionOf (width : Width) (off : Nat) : Region :=
  match width with
  | .byte => byteRegion off
  | .half => .unlisted
  | .word => if off % 4 = 0 then wordRegion off else .unlisted

/-- The access returns `v` to the host (log 2); a read changes nothing else (20_memory R44). -/
def State.answer (v : Word) (s : State) : State := { s with busRead := v }

/-- The specified byte a host read of `DBUF[i]` returns, none where the read is a draw: at an index at or above DLEN, or where
no one has written the byte (R19, 93 U1). -/
def State.hostByte? (s : State) (i : Nat) : Option Byte := if i < s.dlen.toNat then s.dbuf? i else none

/-- A host read of `DBUF[i]` (R19): the specified byte below DLEN, or a free value, fresh for every read (93 U1, log 5). -/
def readDbuf (i : Nat) (s : State) : State :=
  match s.hostByte? i with
  | some b => s.answer (b.setWidth 32)
  | none => (s.answer ((Config.freeByte .dbuf s.draws i).setWidth 32)).nextDraw

/-- A host read (R26, 20_memory R44): CMD, KEY and reserved offsets return 0. -/
def serveRead (width : Width) (off : Nat) (s : State) : Host.Outcome State Fault Refusal :=
  match regionOf width off with
  | .cmd => .next (s.answer 0)
  | .status => .next (s.answer (statusWord s))
  | .errcode => .next (s.answer s.errcode)
  | .errcmd => .next (s.answer s.errcmd)
  | .cfg => .next (s.answer s.cfg)
  | .keylen => .next (s.answer s.keylen)
  | .dlen => .next (s.answer s.dlen)
  | .cur => .next (s.answer s.cur)
  | .rem => .next (s.answer s.rem)
  | .key _ => .next (s.answer 0)
  | .dbuf i => .next (readDbuf i s)
  | .reserved => .next (s.answer 0)
  | .unlisted => .refused (.unlistedAccess width off)

/-- A host write of KEYLEN (R17): above 32 refused with KEYLEN. -/
def writeKeylen (v : Word) (s : State) : State :=
  if 32 < v.toNat then s.refuse .keylen (errcmdOfWrite 0x14) else { s with keylen := v, keyValid := true }

/-- A host write of DLEN (R15): refused with PHASE during a run and with CAPACITY above BUF_CAP. No byte of DBUF changes: a byte
stored at or above the old DLEN and below the new one is specified (DEDUCED, log 17). -/
def writeDlen (v : Word) (s : State) : State :=
  if s.phase = .opened ∨ s.phase = .stepping then s.refuse .phase (errcmdOfWrite 0x18)
  else if Config.bufCap < v.toNat then s.refuse .capacity (errcmdOfWrite 0x18)
  else { s with dlen := v, dataValid := true }

/-- A host write of `KEY[i]` (R17, 20_memory R44). -/
def writeKey (i : Nat) (b : Byte) (s : State) : State := { s with key := s.key.setIfInBounds i b }

/-- A host write of `DBUF[i]`, in every phase (R19, 20_memory R44, 60_exceptions R190). The byte is stored at an index at or above
DLEN too: a host loads the data before it writes DLEN (30_encoding R54). It is specified once a write of DLEN has put
the index below it (DEDUCED, log 17); until then a host read is a draw (`State.hostByte?`). -/
def writeDbuf (i : Nat) (b : Byte) (s : State) : State := { s with dbuf := Memory.write s.dbuf i b }

/-- A command word written to CMD (30_encoding R50): the command it decodes to runs; a word that is none is refused with
OPCODE (R53), which while ERR = 1 changes nothing (60_exceptions R183, R184). -/
def runWord (w : Word) (s : State) : Host.Outcome State Fault Refusal :=
  match decode w with
  | some i => exec i s
  | none => .next (s.refuse .opcode w)

/-- A host write (R26): to a read-only register or a reserved offset it is ignored. -/
def serveWrite (width : Width) (off : Nat) (v : Word) (s : State) : Host.Outcome State Fault Refusal :=
  match regionOf width off with
  | .cmd => runWord v s
  | .status => .next s
  | .errcode => .next s
  | .errcmd => .next s
  | .cfg => .next s
  | .keylen => .next (writeKeylen v s)
  | .dlen => .next (writeDlen v s)
  | .cur => .next s
  | .rem => .next s
  | .key i => .next (writeKey i (v.setWidth 8) s)
  | .dbuf i => .next (writeDbuf i (v.setWidth 8) s)
  | .reserved => .next s
  | .unlisted => .refused (.unlistedAccess width off)

/-- One host access (00_scope R6, 20_memory R46). -/
def serve (a : Access) (s : State) : Host.Outcome State Fault Refusal :=
  match a with
  | .read width off => serveRead width off s
  | .write width off v => serveWrite width off v s

/-- The offset of CMD (R26). -/
def cmdOffset : Nat := 0x00

/-- The host access that issues a command word (30_encoding R50). -/
def commandAccess (w : Word) : Access := .write .word cmdOffset w

end Sys2Proof.Machine
end

