-- ==== Sys2Proof/Machine/Step.lean ====
section
/-! DEFINITION. One step: the oldest pending host access is served (spec 20_memory R46). With none pending the block waits, and
the step leaves the state as it is (70 R211). There is no fetch (20_memory R48): a command is a host write to CMD, and
`withFetchWord` puts that write first among the pending accesses (log 1). -/

namespace Sys2Proof.Machine

def step (s : State) : Host.Outcome State Fault Refusal :=
  match s.host with
  | [] => .next s
  | a :: rest => serve a { s with host := rest }

/-- `s` with the command word of a table row's bits `w` as the next host access (log 1). -/
def State.withFetchWord (s : State) (nbits w : Nat) : State :=
  { s with host := commandAccess (BitVec.ofNat 32 (w % 2 ^ nbits)) :: s.host }

end Sys2Proof.Machine
end

