-- ==== Sys2Proof/Machine/SerpentEquations.lean ====
section
/-! DEFINITION. The Serpent S-boxes as boolean equations on whole words (spec 41_serpent R103), the second form of the tables
of R100 and R101. The engine uses the tables; a statement says that the two forms agree. A product of words is written as
the set of its factors: bit `k` of the number stands for word `k`, and 0 for the product of none, the all-ones word `1`. -/

namespace Sys2Proof.Machine

/-- The equations `S0` to `S7`: for each box, the products whose XOR is `y0`, `y1`, `y2`, `y3` (R103). -/
def spEquations : List (List (List Nibble)) :=
  [[[0x0, 0x1, 0x4, 0x8, 0x3, 0x5, 0x6, 0x7, 0xD, 0xE],
     [0x0, 0x1, 0x5, 0x6, 0xA, 0x7, 0xD, 0xE],
     [0x2, 0x8, 0x3, 0x5, 0xA, 0x7, 0xE],
     [0x1, 0x2, 0x4, 0x8, 0x9]],
   [[0x0, 0x1, 0x2, 0x6, 0x9, 0xC, 0xD, 0xE],
     [0x0, 0x1, 0x4, 0x8, 0x3, 0x5, 0xA, 0xB, 0xD, 0xE],
     [0x0, 0x2, 0x4, 0x8, 0x3],
     [0x0, 0x2, 0x8, 0x5, 0x9, 0xB, 0xD, 0xE]],
   [[0x2, 0x4, 0x8, 0x5],
     [0x1, 0x2, 0x4, 0x6, 0x9, 0xC, 0x7, 0xB, 0xD],
     [0x1, 0x2, 0x8, 0x6, 0xA, 0xC, 0xB, 0xD],
     [0x0, 0x1, 0x2, 0x4, 0xA, 0x7]],
   [[0x1, 0x2, 0x8, 0x6, 0x9, 0xC, 0xD, 0xE],
     [0x1, 0x2, 0x5, 0x9, 0xC, 0xB, 0xD],
     [0x1, 0x4, 0x8, 0x3, 0xA, 0x7, 0xB],
     [0x1, 0x2, 0x4, 0x8, 0x3, 0x5, 0xC, 0x7, 0xD]],
   [[0x0, 0x2, 0x4, 0x8, 0x3, 0x9, 0xA],
     [0x1, 0x8, 0x5, 0x6, 0xA, 0xC, 0xD, 0xE],
     [0x1, 0x4, 0x3, 0x6, 0xA, 0xC, 0x7, 0xB, 0xE],
     [0x1, 0x2, 0x4, 0x6, 0x9, 0xA, 0xB]],
   [[0x0, 0x2, 0x4, 0x8, 0x3, 0x9, 0xA],
     [0x0, 0x1, 0x4, 0x8, 0x3, 0xA, 0xC, 0xB],
     [0x0, 0x2, 0x8, 0x5, 0xC, 0xB, 0xD, 0xE],
     [0x0, 0x1, 0x2, 0x4, 0x8, 0x9, 0x7, 0xD]],
   [[0x0, 0x1, 0x2, 0x4, 0x8, 0x5, 0x6, 0x7, 0xB, 0xE],
     [0x0, 0x2, 0x4, 0x9],
     [0x0, 0x1, 0x4, 0x3, 0x6, 0xA, 0xC, 0x7, 0xB, 0xE],
     [0x2, 0x4, 0x8, 0x3, 0x5, 0xC, 0x7, 0xE]],
   [[0x0, 0x4, 0x3, 0x9, 0xA, 0xC, 0xD, 0xE],
     [0x2, 0x4, 0x8, 0x3, 0x5, 0x6, 0x9, 0xB, 0xD],
     [0x1, 0x2, 0x4, 0x8, 0x9, 0xA, 0x7, 0xB, 0xE],
     [0x1, 0x2, 0x4, 0x5, 0x9, 0x7]]]

/-- The equations `SI0` to `SI7` (R103). -/
def spInverseEquations : List (List (List Nibble)) :=
  [[[0x0, 0x4, 0x3, 0x6, 0x9, 0xA, 0xC, 0xB, 0xD, 0xE],
     [0x1, 0x2, 0x4, 0x5, 0xA, 0xD, 0xE],
     [0x0, 0x1, 0x2, 0x4, 0x8, 0x3],
     [0x0, 0x1, 0x8, 0x6, 0xC, 0xB, 0xD, 0xE]],
   [[0x0, 0x1, 0x2, 0x3, 0xA, 0x7, 0xD, 0xE],
     [0x2, 0x4, 0x8, 0x9, 0xA, 0x7, 0xD, 0xE],
     [0x0, 0x1, 0x2, 0x8, 0x5, 0x6, 0x7, 0xD],
     [0x1, 0x4, 0x8, 0xA]],
   [[0x1, 0x2, 0x4, 0x6, 0xA],
     [0x2, 0x4, 0x3, 0x9, 0xC, 0xB, 0xD],
     [0x0, 0x1, 0x4, 0x8, 0x3, 0x9, 0xA, 0xB, 0xD],
     [0x0, 0x8, 0x3, 0x6, 0x7, 0xD]],
   [[0x1, 0x4, 0x8, 0x6, 0x9, 0xA, 0xE],
     [0x2, 0x4, 0x8, 0x6, 0x9, 0x7, 0xD, 0xE],
     [0x3, 0x5, 0x6, 0x9, 0xA, 0xC, 0xB, 0xD],
     [0x1, 0x2, 0x4, 0x5, 0x9, 0xC, 0x7, 0xB]],
   [[0x0, 0x1, 0x2, 0x4, 0x8, 0x9, 0xC, 0xB, 0xD],
     [0x4, 0x8, 0x3, 0x5, 0x9, 0xD],
     [0x0, 0x1, 0x2, 0x4, 0x8, 0x3, 0x5, 0xA, 0x7, 0xB],
     [0x2, 0x4, 0x3, 0x9, 0xC, 0xB]],
   [[0x1, 0x8, 0x6, 0xB],
     [0x1, 0x2, 0x8, 0x5, 0x6, 0x9, 0x7, 0xB],
     [0x1, 0x4, 0x3, 0xA, 0xB, 0xD],
     [0x0, 0x2, 0x4, 0x3, 0x9, 0x7]],
   [[0x0, 0x1, 0x8, 0x3, 0x5, 0x6, 0x7, 0xB, 0xE],
     [0x0, 0x2, 0x4, 0x8, 0x5],
     [0x0, 0x1, 0x2, 0x6, 0xA, 0xC, 0xB, 0xE],
     [0x0, 0x2, 0x4, 0x8, 0x3, 0x6, 0x9, 0xC, 0x7, 0xB, 0xE]],
   [[0x0, 0x1, 0x2, 0x6, 0xA, 0xC, 0xB, 0xE],
     [0x0, 0x1, 0x4, 0x8, 0x6, 0x9, 0xA, 0xD, 0xE],
     [0x2, 0x8, 0x5, 0xC, 0xB, 0xD],
     [0x4, 0x3, 0x9, 0xA, 0x7, 0xB]]]

/-- The product (AND) of the words a set names; the product of none is all ones, `1` in R103. -/
def spProduct (m : Nibble) (x : Quad) : Word :=
  (if m.getLsbD 0 then x.w0 else 0xFFFFFFFF) &&& (if m.getLsbD 1 then x.w1 else 0xFFFFFFFF) &&&
    (if m.getLsbD 2 then x.w2 else 0xFFFFFFFF) &&& (if m.getLsbD 3 then x.w3 else 0xFFFFFFFF)

/-- The XOR of the products of a list. -/
def spSum (ms : List Nibble) (x : Quad) : Word := ms.foldr (fun m acc => spProduct m x ^^^ acc) 0

/-- The four equations of box `n` of a table (R103). -/
def spBoolean (E : List (List (List Nibble))) (n : Nat) (x : Quad) : Quad :=
  let e := E.getD n []
  ⟨spSum (e.getD 0 []) x, spSum (e.getD 1 []) x, spSum (e.getD 2 []) x, spSum (e.getD 3 []) x⟩

end Sys2Proof.Machine
end

