-- ==== Sys2Proof/Safety.lean ====
section
/-! DEFINITION. What counts as a sound state and a sound run, in the terms the statements use: the invariant `Inv` that rules out
states no run reaches, the phase table and the priority of causes of spec 60_exceptions (R185, R190), the CBC chain of 43_cbc
R150, and the run of a list of commands. -/

namespace Sys2Proof.Machine

/-- DBUF in canonical form, inside BUF_CAP, and DLEN at most BUF_CAP (10_state R15, R19). -/
def State.bufferOk (s : State) : Prop :=
  Memory.wf s.dbuf ∧ (∀ c ∈ s.dbuf, c.1 < Config.bufCap) ∧ s.dlen.toNat ≤ Config.bufCap ∧ (s.dataValid = false → s.dlen = 0)

/-- The key lengths are at most 32, and 0 while the key is absent (10_state R17, R18). -/
def State.keysOk (s : State) : Prop :=
  s.keylen.toNat ≤ 32 ∧ s.wklen ≤ 32 ∧ (s.keyValid = false → s.keylen = 0) ∧ (s.wkeyValid = false → s.wklen = 0)

/-- A value CFG may hold while CFG_VALID = 1: no reserved value reaches it (10_state R11). -/
def legalCfg (cfg : Word) : Prop :=
  cfg.extractLsb' 0 8 = 0 ∧ cfgMode cfg = 0 ∧ (cfgPad cfg = 0 ∨ cfgPad cfg = 1) ∧ cfg.extractLsb' 14 2 = 0 ∧
    (cfgKeybits cfg = 128 ∨ cfgKeybits cfg = 192 ∨ cfgKeybits cfg = 256)

/-- CFG is legal where a session exists and reads 0 where none does (10_state R11, R13). -/
def State.configOk (s : State) : Prop :=
  (s.cfgValid = true → s.phase ≠ .none ∧ legalCfg s.cfg) ∧ (s.cfgValid = false → s.phase = .none ∧ s.cfg = 0)

/-- ERRCODE and ERRCMD hold a recorded error while ERR = 1 and are 0 otherwise (10_state R14). -/
def State.errorOk (s : State) : Prop :=
  (s.err = true → ∃ c, s.errcode = errcodeOf c) ∧ (s.err = false → s.errcode = 0 ∧ s.errcmd = 0)

/-- The expanded key of the engine CFG.ALG names is valid (43_cbc R143). -/
def State.engineValid (s : State) : Bool := if s.isSerpent then s.spxValid else s.tfxValid

/-- What holds while a run is open: CUR is a multiple of 16 between 16 and DLEN, REM counts what is left, data and keys are
present (10_state R13, R16; 43_cbc R143). -/
def State.running (s : State) : Prop :=
  16 ≤ s.cur.toNat ∧ s.cur.toNat ≤ s.dlen.toNat ∧ s.cur.toNat % 16 = 0 ∧ s.dlen.toNat % 16 = 0 ∧
    s.rem.toNat = s.dlen.toNat - s.cur.toNat ∧ s.dataValid = true ∧ s.wkeyValid = true ∧ s.engineValid = true

/-- The mode driver's registers fit PHASE (10_state R13, R16). -/
def State.runOk (s : State) : Prop :=
  match s.phase with
  | .opened => s.running ∧ s.cur = 16 ∧ 32 ≤ s.dlen.toNat
  | .stepping => s.running ∧ 32 ≤ s.cur.toNat
  | _ => s.cur = 0 ∧ s.rem = 0

/-- The invariant of the machine. -/
structure Inv (s : State) : Prop where
  buffer : s.bufferOk
  keys : s.keysOk
  config : s.configOk
  error : s.errorOk
  run : s.runOk

/-- A run of the mode driver is open: PHASE is Opened or Stepping (60_exceptions R190). -/
abbrev State.runOpen (s : State) : Prop := s.phase = .opened ∨ s.phase = .stepping

/-- A session stands ready: PHASE is Created or Closed (60_exceptions R190). -/
abbrev State.sessionReady (s : State) : Prop := s.phase = .created ∨ s.phase = .closed

/-- The twenty opcodes of the map 30_encoding R52. -/
def commandOpcodes : List Byte :=
  [0x01, 0x02, 0x03, 0x08, 0x09, 0x10, 0x11, 0x12, 0x13, 0x20, 0x21, 0x22, 0x23, 0x30, 0x31, 0x32, 0x33, 0x40, 0x41, 0x42]

/-- The three formats of a command word (30_encoding R50). -/
inductive Format
  | z | o | c
  deriving DecidableEq, Repr

/-- The format of a command (30_encoding R52). -/
def commandFormat : Instr → Format
  | .sysReset _ => .z
  | .errAck _ => .z
  | .keyClone _ => .z
  | .sessCreate _ _ _ _ _ _ => .c
  | .sessExec _ => .z
  | .tfKeyx _ => .z
  | .tfEncb _ => .o
  | .tfDecb _ => .o
  | .tfClose _ => .z
  | .spKeyx _ => .z
  | .spEncb _ => .o
  | .spDecb _ => .o
  | .spClose _ => .z
  | .p7Append _ => .z
  | .p7Remove _ => .z
  | .npAppend _ => .z
  | .npRemove _ => .z
  | .cbcOpen _ => .z
  | .cbcStep _ => .z
  | .cbcClose _ => .z

/-- The two commands that act even while ERR = 1 (60_exceptions R184). -/
def actsWhileError : Instr → Bool
  | .sysReset _ => true
  | .errAck _ => true
  | _ => false

/-- The table R190 for commands: none where the command passes the phase check, else the cause raised. -/
def phaseVerdict (i : Instr) (p : Phase) : Option Cause :=
  match i, p with
  | .sysReset _, _ => none
  | .errAck _, _ => none
  | .sessExec _, .none => some .noSession
  | .cbcOpen _, .none => some .noSession
  | .cbcStep _, .none => some .noSession
  | .cbcStep _, .created => some .phase
  | .cbcStep _, .closed => some .phase
  | .cbcStep _, _ => none
  | .cbcClose _, .none => some .noSession
  | .cbcClose _, .stepping => none
  | .cbcClose _, _ => some .phase
  | _, .opened => some .phase
  | _, .stepping => some .phase
  | _, _ => none

/-- A check of the order R185: the cause where the condition fails. -/
def failing (ok : Bool) (c : Cause) : Option Cause := if ok then none else some c

/-- R185 step 2: the argument field is well formed. -/
def argumentCause (i : Instr) : Option Cause :=
  match commandFormat i with
  | .z => failing (i.argBits == 0#24) .operand
  | .o => none
  | .c => (failing (i.argBits.extractLsb' 6 2 == 0 && i.argBits.extractLsb' 2 2 == 0 &&
      (i.argBits.extractLsb' 4 2 == 0 || i.argBits.extractLsb' 4 2 == 1)) .cfg).or
      (failing (i.argBits.extractLsb' 8 16 == 128 || i.argBits.extractLsb' 8 16 == 192 || i.argBits.extractLsb' 8 16 == 256)
        .keybits)

/-- R185 steps 4 to 6: the key, the data and the expanded key the command needs are present. -/
def presenceCause (i : Instr) (s : State) : Option Cause :=
  match i with
  | .keyClone _ => failing s.keyValid .nullKey
  | .tfKeyx _ => failing s.wkeyValid .nullKey
  | .spKeyx _ => failing s.wkeyValid .nullKey
  | .sessExec _ => (failing s.keyValid .nullKey).or (failing s.dataValid .nullData)
  | .cbcOpen _ => (failing s.wkeyValid .nullKey).or (failing s.dataValid .nullData)
  | .p7Append _ => failing s.dataValid .nullData
  | .p7Remove _ => failing s.dataValid .nullData
  | .npAppend _ => failing s.dataValid .nullData
  | .npRemove _ => failing s.dataValid .nullData
  | .tfEncb _ => (failing s.dataValid .nullData).or (failing s.tfxValid .noKeySched)
  | .tfDecb _ => (failing s.dataValid .nullData).or (failing s.tfxValid .noKeySched)
  | .spEncb _ => (failing s.dataValid .nullData).or (failing s.spxValid .noKeySched)
  | .spDecb _ => (failing s.dataValid .nullData).or (failing s.spxValid .noKeySched)
  | _ => none

/-- The length `Lp` that is put before the mode driver when SESS.EXEC encrypts (44_session R160 check 7). -/
def sessionLength (s : State) : Nat :=
  if cfgPad s.cfg = 0#2 then s.dlen.toNat + 16 - s.dlen.toNat % 16 else s.dlen.toNat

/-- R185 steps 7 to 9: the key length, the ranges and the capacity. -/
def rangeCause (i : Instr) (s : State) : Option Cause :=
  match i with
  | .tfEncb off => failing (off.toNat + 16 ≤ s.dlen.toNat) .operand
  | .tfDecb off => failing (off.toNat + 16 ≤ s.dlen.toNat) .operand
  | .spEncb off => failing (off.toNat + 16 ≤ s.dlen.toNat) .operand
  | .spDecb off => failing (off.toNat + 16 ≤ s.dlen.toNat) .operand
  | .p7Append _ => failing (s.dlen.toNat + (16 - s.dlen.toNat % 16) ≤ Config.bufCap) .capacity
  | .cbcOpen _ =>
    if cfgDir s.cfg = 1#1 then failing (s.dlen.toNat % 16 = 0 ∧ 32 ≤ s.dlen.toNat) .length
    else (failing (s.dlen.toNat % 16 = 0 ∧ 16 ≤ s.dlen.toNat) .length).or
      (failing (s.dlen.toNat + 16 ≤ Config.bufCap) .capacity)
  | .cbcStep _ => failing (s.cur.toNat + 16 ≤ s.dlen.toNat) .length
  | .cbcClose _ => failing (s.cur = s.dlen) .length
  | .sessExec _ =>
    (failing (s.keylen.toNat * 8 = (cfgKeybits s.cfg).toNat) .keylen).or
      (if cfgDir s.cfg = 1#1 then failing (32 ≤ s.dlen.toNat ∧ s.dlen.toNat % 16 = 0) .length
      else (failing (cfgPad s.cfg = 0#2 ∨ (16 ≤ s.dlen.toNat ∧ s.dlen.toNat % 16 = 0)) .length).or
        (failing (sessionLength s + 16 ≤ Config.bufCap) .capacity))
  | _ => none

/-- The cause a command is refused with while ERR = 0, in the order of R185 steps 2 to 9; none where it is Done. -/
def refusalCause (i : Instr) (s : State) : Option Cause :=
  (argumentCause i).or ((phaseVerdict i s.phase).or ((presenceCause i s).or (rangeCause i s)))

/-- The commands of a list one after another: each must give a next state. -/
def runCommands : List Instr → State → Host.Outcome State Fault Refusal
  | [], s => .next s
  | i :: is, s =>
    match exec i s with
    | .next t => runCommands is t
    | .fault r => .fault r
    | .refused r => .refused r

/-- The commands of a whole encryption or decryption, one by one, with `n` steps (44_session R163). -/
def sessionCommands (s : State) (n : Nat) : List Instr :=
  [.keyClone 0] ++ (if cfgDir s.cfg = 1#1 then [] else if cfgPad s.cfg = 0#2 then [.p7Append 0] else [.npAppend 0]) ++
    [.cbcOpen 0] ++ List.replicate n (.cbcStep 0) ++ [.cbcClose 0]

/-- How many steps a run of SESS.EXEC makes (43_cbc R151): `(DLEN - 16) / 16`, DLEN taken after the open. -/
def sessionSteps (s : State) : Nat :=
  if cfgDir s.cfg = 1#1 then (s.dlen.toNat - 16) / 16 else sessionLength s / 16

/-- The block encryption of the engine CFG.ALG names, under the expanded key that is there (43_cbc, introduction). -/
def State.encryption (s : State) : Block → Block :=
  if cfgAlg s.cfg = 1#1 then spEncBlock s.spK else tfEncBlock s.tfK s.tfM

/-- The block decryption of the engine CFG.ALG names (43_cbc, introduction). -/
def State.decryption (s : State) : Block → Block :=
  if cfgAlg s.cfg = 1#1 then spDecBlock s.spK else tfDecBlock s.tfK s.tfM

/-- `C_1, C_2, ...` of `C_0` and `P_1, P_2, ...`: `C_i = E(P_i ^ C_(i-1))` (43_cbc R150). -/
def cbcChain (E : Block → Block) : Block → List Block → List Block
  | _, [] => []
  | c, p :: ps => E (xorBlock p c) :: cbcChain E (E (xorBlock p c)) ps

/-- `P_1, P_2, ...` of `C_0` and `C_1, C_2, ...`: `P_i = D(C_i) ^ C_(i-1)` (43_cbc R150). -/
def cbcUnchain (D : Block → Block) : Block → List Block → List Block
  | _, [] => []
  | c, b :: bs => xorBlock (D b) c :: cbcUnchain D b bs

/-- DBUF holds the specified bytes of a list of blocks, from index 0, and DLEN is their length. -/
def State.holdsBlocks (s : State) (bs : List Block) : Prop :=
  s.dlen.toNat = 16 * bs.length ∧ ∀ a, a < 16 * bs.length → s.dbuf? a = some ((bs.getD (a / 16) (table 16 fun _ => 0)).getD (a % 16) 0)

/-- A block that agrees with every specified byte of DBUF from index `o` on: what a reader of the block can get (R19, 93 U1). -/
def State.reads (s : State) (o : Nat) (B : Block) : Prop := ∀ i v, i < 16 → s.dbuf? (o + i) = some v → B.getD i 0 = v

/-- A safe step of the machine: it is no refusal of the model (a host access of a width or offset R26 does not list). -/
def safeStep (s : State) : Bool :=
  match step s with
  | .next _ => true
  | .fault _ => false
  | .refused _ => false

end Sys2Proof.Machine
end

