-- ==== Sys2Proof/Certificates/Slice0/Obligations.lean ====
section
/-! DEFINITION. The statements about the machine, from the numbered rules of the spec.

How they are written. A command's statement gives its next state as the state before with the written fields named, so that
every field not named is unchanged: its frame. DBUF is described by the read of one byte, for every index. A value the spec
calls unspecified is bound by "there is": the statement holds whatever it is (DataByteRead names the draw). `State.reads` binds a block that agrees with
the specified bytes and is free elsewhere. `draws` is the model's own counter of free values and may always change. -/

open Sys2Proof Sys2Proof.Machine

/-! ## Encoding (30_encoding) -/

/-- Words written out from the formats of R50 and the opcode map R52; the last three are the examples of R54. -/
def Obligations.SampleWordsDecode : Prop :=
  decode 0x00000001#32 = some (.sysReset 0) ∧ decode 0x00000003#32 = some (.keyClone 0) ∧
    decode 0x00000130#32 = some (.p7Append 1) ∧ decode 0xFFFFFF22#32 = some (.spDecb 0xFFFFFF) ∧
    decode 0x0100CC08#32 = some (.sessCreate 0 0 3 0 3 256) ∧ decode 0x00001011#32 = some (.tfEncb 0x10) ∧
    decode 0x00000041#32 = some (.cbcStep 0) ∧ decode 0x00C01308#32 = some (.sessCreate 1 1 0 1 0 192) ∧
    decode 0x00000000#32 = none

/-- No bit of a command is dropped: decoding the encoded word gives the command back, well-formed or not (R50, R52). -/
def Obligations.DecodeEncodeRoundTrip : Prop := ∀ i : Instr, decode i.encode = some i

/-- Every word of the twenty opcodes is the encoding of what it decodes to (R50, R52). -/
def Obligations.EncodeDecodeRoundTrip : Prop := ∀ (w : Word) (i : Instr), decode w = some i → i.encode = w

/-- R53: an opcode outside the map is refused with OPCODE, and an ill-formed argument with OPERAND, CFG or KEYBITS. -/
def Obligations.IllegalWordsRefused : Prop :=
  ∀ (w : Word) (s : State), s.err = false →
    (w.extractLsb' 0 8 ∉ ([0x01, 0x02, 0x03, 0x08, 0x09, 0x10, 0x11, 0x12, 0x13, 0x20, 0x21, 0x22, 0x23, 0x30, 0x31, 0x32,
        0x33, 0x40, 0x41, 0x42] : List (BitVec 8)) →
      runWord w s = .next { s with err := true, errcode := 0x051, errcmd := w }) ∧
    (∀ i, decode w = some i → commandFormat i = .z → w.extractLsb' 8 24 ≠ 0 →
      runWord w s = .next { s with err := true, errcode := 0x061, errcmd := w }) ∧
    (w.extractLsb' 0 8 = 0x08 →
      (w.extractLsb' 14 2 ≠ 0 ∨ w.extractLsb' 10 2 ≠ 0 ∨ w.extractLsb' 12 2 = 2 ∨ w.extractLsb' 12 2 = 3) →
      runWord w s = .next { s with err := true, errcode := 0x041, errcmd := w }) ∧
    (w.extractLsb' 0 8 = 0x08 →
      w.extractLsb' 14 2 = 0 → w.extractLsb' 10 2 = 0 → (w.extractLsb' 12 2 = 0 ∨ w.extractLsb' 12 2 = 1) →
      (w.extractLsb' 16 16 ≠ 128 ∧ w.extractLsb' 16 16 ≠ 192 ∧ w.extractLsb' 16 16 ≠ 256) →
      runWord w s = .next { s with err := true, errcode := 0x031, errcmd := w })

/-! ## The step and the host port (10_state, 20_memory) -/

/-- The oldest pending host access, where it is a word written to CMD, runs the command the word decodes to (R50). -/
def Obligations.StepRunsDecodedCommand : Prop :=
  ∀ (s : State) (w : Word) (rest : List Access), s.host = commandAccess w :: rest →
    (∀ i, decode w = some i → step s = exec i { s with host := rest }) ∧
    (decode w = none → s.err = false →
      step s = .next { s with host := rest, err := true, errcode := 0x051, errcmd := w }) ∧
    (decode w = none → s.err = true → step s = .next { s with host := rest })

/-- R211: with no host access pending the block waits. -/
def Obligations.IdleStepWaits : Prop := ∀ s : State, s.host = [] → step s = .next s

/-- R8, R211: no step faults, and a step is refused only where the host makes an access R26 does not list (93 U6; log 9). -/
def Obligations.StepStopsOnlyAtUnlistedAccess : Prop :=
  (∀ (s : State) (f : Fault), step s ≠ .fault f) ∧
  (∀ (s : State) (r : Refusal), step s = .refused r →
    ∃ width off v rest, (s.host = .read width off :: rest ∨ s.host = .write width off v :: rest) ∧
      regionOf width off = .unlisted ∧ r = .unlistedAccess width off) ∧
  (∀ width off, regionOf width off = .unlisted ↔
    (width = .half ∨
      (width = .byte ∧ off < 0x24) ∨
      (width = .word ∧ (off % 4 ≠ 0 ∨ (0x40 ≤ off ∧ off < 0x60) ∨ (0x1000 ≤ off ∧ off < 0x1000 + Config.bufCap)))))

/-- R26, R44: what a host read returns, and that it changes nothing else. -/
def Obligations.RegisterReads : Prop :=
  ∀ (s : State) (width : Width) (off : Nat) (rest : List Access), s.host = .read width off :: rest →
    (∀ v, ((width = .word ∧
        (off = 0x00 ∧ v = 0 ∨ off = 0x04 ∧ v = statusWord s ∨ off = 0x08 ∧ v = s.errcode ∨ off = 0x0C ∧ v = s.errcmd ∨
          off = 0x10 ∧ v = s.cfg ∨ off = 0x14 ∧ v = s.keylen ∨ off = 0x18 ∧ v = s.dlen ∨ off = 0x1C ∧ v = s.cur ∨
          off = 0x20 ∧ v = s.rem)) ∨
        (width = .byte ∧ 0x40 ≤ off ∧ off < 0x60 ∧ v = 0)) →
      step s = .next { s with host := rest, busRead := v })

/-- R12, R13: the layout of STATUS. -/
def Obligations.StatusLayout : Prop :=
  ∀ s : State,
    (statusWord s).getLsbD 0 = s.err ∧ (statusWord s).getLsbD 1 = s.cfgValid ∧ (statusWord s).getLsbD 2 = s.keyValid ∧
    (statusWord s).getLsbD 3 = s.dataValid ∧ (statusWord s).getLsbD 4 = s.wkeyValid ∧
    (statusWord s).getLsbD 5 = s.tfxValid ∧ (statusWord s).getLsbD 6 = s.spxValid ∧ (statusWord s).getLsbD 7 = false ∧
    (statusWord s).extractLsb' 11 21 = 0 ∧
    (statusWord s).extractLsb' 8 3 =
      (match s.phase with | .none => 0 | .created => 1 | .opened => 2 | .stepping => 3 | .closed => 4)

/-- R19, R44: a host read of a DBUF byte below DLEN returns it where it is specified and changes nothing else; at or above DLEN,
whatever is stored there, and of a byte no one has written, the read is a draw: a free value (93 U1, D24), of the model's own
draw counter (log 3, 5). -/
def Obligations.DataByteRead : Prop :=
  ∀ (s : State) (i : Nat) (rest : List Access), s.host = .read .byte (0x1000 + i) :: rest → i < Config.bufCap →
    ∃ (b : Byte) (d : Nat),
      (∀ v, i < s.dlen.toNat → s.dbuf? i = some v → b = v ∧ d = s.draws) ∧
      (s.dlen.toNat ≤ i ∨ s.dbuf? i = none → b = Config.freeByte .dbuf s.draws i ∧ d = s.draws + 1) ∧
      step s = .next { s with host := rest, busRead := b.setWidth 32, draws := d }

/-- R17, R183: a host write of KEYLEN, in every PHASE. -/
def Obligations.KeylenWrite : Prop :=
  ∀ (s : State) (v : Word) (rest : List Access), s.host = .write .word 0x14 v :: rest →
    (v.toNat ≤ 32 → step s = .next { s with host := rest, keylen := v, keyValid := true }) ∧
    (32 < v.toNat → s.err = false →
      step s = .next { s with host := rest, err := true, errcode := 0x081, errcmd := 0x000014FF }) ∧
    (32 < v.toNat → s.err = true → step s = .next { s with host := rest })

/-- R15, R183: a host write of DLEN. -/
def Obligations.DlenWrite : Prop :=
  ∀ (s : State) (v : Word) (rest : List Access), s.host = .write .word 0x18 v :: rest →
    (¬ s.runOpen → v.toNat ≤ Config.bufCap → step s = .next { s with host := rest, dlen := v, dataValid := true }) ∧
    (s.runOpen → s.err = false →
      step s = .next { s with host := rest, err := true, errcode := 0x071, errcmd := 0x000018FF }) ∧
    (¬ s.runOpen → Config.bufCap < v.toNat → s.err = false →
      step s = .next { s with host := rest, err := true, errcode := 0x0A1, errcmd := 0x000018FF }) ∧
    ((s.runOpen ∨ Config.bufCap < v.toNat) → s.err = true → step s = .next { s with host := rest })

/-- R17, R44, R190: a host write of a byte of KEY or of DBUF stores it and does nothing else, in every PHASE. The byte
is stored at or above DLEN too, where a host read of it is a draw (DataByteRead). -/
def Obligations.ByteWrites : Prop :=
  (∀ (s : State) (i : Nat) (v : Word) (rest : List Access), s.host = .write .byte (0x40 + i) v :: rest → i < 32 →
    ∃ k : Vector Byte 32, step s = .next { s with host := rest, key := k } ∧
      ∀ j, k.getD j 0 = if j = i then v.setWidth 8 else s.key.getD j 0) ∧
  (∀ (s : State) (i : Nat) (v : Word) (rest : List Access), s.host = .write .byte (0x1000 + i) v :: rest →
    i < Config.bufCap →
    ∃ m : Memory, step s = .next { s with host := rest, dbuf := m } ∧
      ∀ a, Memory.find? m a = if a = i then some (v.setWidth 8) else s.dbuf? a)

/-- R26: a host write of a read-only register is ignored. For reserved offsets, written or read, the widths are the model's
choice (log 10): a byte or an aligned word is ignored, and reads 0. -/
def Obligations.ReadOnlyAndReservedIgnored : Prop :=
  ∀ (s : State) (width : Width) (off : Nat) (v : Word) (rest : List Access),
    (s.host = .write width off v :: rest → width = .word →
      off = 0x04 ∨ off = 0x08 ∨ off = 0x0C ∨ off = 0x10 ∨ off = 0x1C ∨ off = 0x20 →
      step s = .next { s with host := rest }) ∧
    (width = .byte ∨ width = .word ∧ off % 4 = 0 →
      0x24 ≤ off ∧ off < 0x40 ∨ 0x60 ≤ off ∧ off < 0x1000 ∨ 0x1000 + Config.bufCap ≤ off →
      (s.host = .write width off v :: rest → step s = .next { s with host := rest }) ∧
      (s.host = .read width off :: rest → step s = .next { s with host := rest, busRead := 0 }))

/-! ## Refusal, priority, phases (60_exceptions) -/

/-- R8, R183: every command gives a next state, and one that raises an error changes ERR, ERRCODE and ERRCMD only. -/
def Obligations.RefusalRecordsOnlyTheError : Prop :=
  ∀ (i : Instr) (s : State), ∃ t, exec i s = .next t ∧
    (s.err = false → t.err = true → ∃ c : Cause,
      t = { s with err := true, errcode := 1 ||| (causeCode c).setWidth 32 <<< 4, errcmd := i.encode })

/-- R184: while ERR = 1 every word but one of ERR.ACK or SYS.RESET is dropped; R183: a refused one of those records
nothing. -/
def Obligations.PendingErrorDropsCommands : Prop :=
  ∀ (w : Word) (s : State), s.err = true →
    (w.extractLsb' 0 8 ≠ 0x01 ∧ w.extractLsb' 0 8 ≠ 0x02 → runWord w s = .next s) ∧
    (w.extractLsb' 0 8 = 0x01 ∨ w.extractLsb' 0 8 = 0x02 → w.extractLsb' 8 24 ≠ 0 → runWord w s = .next s)

/-- R185: the order of the checks of every word written to CMD. Step 0: dropped while an error is pending. Step 1: the opcode is
one of the twenty. Steps 2 to 9: `refusalCause` is the rest of the scheme over the table R190, the word is refused with the
cause it names and Done where it names none. -/
def Obligations.RefusalPriority : Prop :=
  ∀ (w : Word) (s : State),
    (s.err = true → w.extractLsb' 0 8 ≠ 0x01 → w.extractLsb' 0 8 ≠ 0x02 → runWord w s = .next s) ∧
    (s.err = false → w.extractLsb' 0 8 ∉ commandOpcodes →
      runWord w s = .next { s with err := true, errcode := errcodeOf .opcode, errcmd := w }) ∧
    (s.err = false → w.extractLsb' 0 8 ∈ commandOpcodes → ∃ i, decode w = some i ∧ i.encode = w ∧
      (∀ c, refusalCause i s = some c → runWord w s = .next { s with err := true, errcode := errcodeOf c, errcmd := w }) ∧
      (refusalCause i s = none → ∃ t, runWord w s = .next t ∧ t.err = false))

/-- R190: a legal command word is refused for its phase exactly where the table says so. -/
def Obligations.PhaseTable : Prop :=
  ∀ (i : Instr) (s : State), s.err = false → i.wellFormed = true →
    (∀ c, phaseVerdict i s.phase = some c →
      exec i s = .next { s with err := true, errcode := errcodeOf c, errcmd := i.encode }) ∧
    (phaseVerdict i s.phase = none → ∃ t, exec i s = .next t ∧
      (t.err = true → t.errcode ≠ errcodeOf .phase ∧ t.errcode ≠ errcodeOf .noSession))

/-- R190: while a run is open only CBC.STEP, CBC.CLOSE, ERR.ACK and SYS.RESET act: every other command leaves all but the
error registers as it was. -/
def Obligations.OpenRunIsFrozen : Prop :=
  ∀ (i : Instr) (s t : State), s.runOpen →
    (∀ arg, i ≠ .cbcStep arg) → (∀ arg, i ≠ .cbcClose arg) → (∀ arg, i ≠ .errAck arg) → (∀ arg, i ≠ .sysReset arg) →
    exec i s = .next t → ∃ e c w, t = { s with err := e, errcode := c, errcmd := w }

/-- R186: ERR.ACK, its word, its check and its effect in every state; with no error pending it changes nothing; after a
refusal it gives back the very state before the refused command; and no other step but SYS.RESET clears ERR. -/
def Obligations.ErrAckRule : Prop :=
  decode 0x00000002 = some (.errAck 0) ∧
  ∀ s : State,
    exec (.errAck 0) s = .next { s with err := false, errcode := 0, errcmd := 0 } ∧
    (s.errorOk → s.err = false → exec (.errAck 0) s = .next s) ∧
    (∀ arg, arg ≠ 0#24 → s.err = false →
      exec (.errAck arg) s = .next { s with err := true, errcode := 0x061, errcmd := (Instr.errAck arg).encode }) ∧
    (∀ arg, arg ≠ 0#24 → s.err = true → exec (.errAck arg) s = .next s) ∧
    (∀ (i : Instr) (t : State), s.errorOk → s.err = false → exec i s = .next t → t.err = true →
      exec (.errAck 0) t = .next s) ∧
    (∀ t, s.err = true → step s = .next t → t.err = false →
      ∃ w rest, s.host = commandAccess w :: rest ∧ (w = 0x00000001 ∨ w = 0x00000002))

/-! ## Reset (70_reset_and_hazards R200, 10_state R25) -/

/-- R25, R200: after SYS.RESET, in every PHASE and with or without an error, and at power-on, the flags and the registers are 0,
PHASE is None and no byte of DBUF is specified. The other storage is unspecified. What the host has pending, and what its
last read returned, are the model's own fields (log 1, 2). -/
def Obligations.ResetState : Prop :=
  (∀ s : State, ∃ key wkey ivreg tfK tfM spK draws,
    exec (.sysReset 0) s = .next
      { err := false, cfgValid := false, keyValid := false, dataValid := false, wkeyValid := false, tfxValid := false,
        spxValid := false, phase := .none, cfg := 0, errcode := 0, errcmd := 0, keylen := 0, dlen := 0, cur := 0, rem := 0,
        key := key, wkey := wkey, wklen := 0, dbuf := [], ivreg := ivreg, tfK := tfK, tfM := tfM, spK := spK,
        draws := draws, host := s.host, busRead := s.busRead }) ∧
  (∃ key wkey ivreg tfK tfM spK,
    State.reset =
      { err := false, cfgValid := false, keyValid := false, dataValid := false, wkeyValid := false, tfxValid := false,
        spxValid := false, phase := .none, cfg := 0, errcode := 0, errcmd := 0, keylen := 0, dlen := 0, cur := 0, rem := 0,
        key := key, wkey := wkey, wklen := 0, dbuf := [], ivreg := ivreg, tfK := tfK, tfM := tfM, spK := spK,
        draws := 1, host := [], busRead := 0 })

/-! ## Session (44_session) -/

/-- R162: KEY.CLONE. -/
def Obligations.KeyCloneRule : Prop :=
  ∀ s : State, s.err = false → ¬ s.runOpen → s.keyValid = true →
    ∃ wkey draws,
      exec (.keyClone 0) s =
        .next { s with wkey := wkey, wklen := s.keylen.toNat, wkeyValid := true, draws := draws } ∧
      ∀ i, i < 32 → i < s.keylen.toNat → wkey.getD i 0 = s.key.getD i 0

/-- R161: SESS.CREATE. That the bytes at and above DLEN become unspecified is the model's reading of R19 (log 8). -/
def Obligations.SessCreateRule : Prop :=
  ∀ (s : State) (alg dir : BitVec 1) (pad : BitVec 2) (keybits : BitVec 16),
    s.err = false → ¬ s.runOpen → (pad = 0 ∨ pad = 1) → (keybits = 128 ∨ keybits = 192 ∨ keybits = 256) →
    ∃ m cfg,
      exec (.sessCreate alg dir 0 pad 0 keybits) s =
        .next { s with cfg := cfg, cfgValid := true, phase := .created, cur := 0, rem := 0, dbuf := m } ∧
      cfg = (Instr.sessCreate alg dir 0 pad 0 keybits).encode &&& 0xFFFFFF00 ∧
      cfgAlg cfg = alg ∧ cfgDir cfg = dir ∧ cfgMode cfg = 0 ∧ cfgPad cfg = pad ∧ cfgKeybits cfg = keybits ∧
      ∀ a, Memory.find? m a = if a < s.dlen.toNat then s.dbuf? a else none

/-- R160, R165: SESS.EXEC in direction Encrypt. WKEY ends as KEY below KEYLEN (R162), normalized by Serpent's key schedule (R106).
That no byte at or above the new DLEN is specified is the model's reading of R19 (log 8). -/
def Obligations.SessExecEncrypts : Prop :=
  ∀ s : State, s.err = false → s.sessionReady → s.keyValid = true → s.dataValid = true →
    s.keylen.toNat * 8 = (cfgKeybits s.cfg).toNat → cfgDir s.cfg = 0#1 →
    (cfgPad s.cfg = 0#2 ∨ (16 ≤ s.dlen.toNat ∧ s.dlen.toNat % 16 = 0)) → sessionLength s + 16 ≤ Config.bufCap →
    ∃ dlen dbuf wkey wklen ivreg tfK tfM spK draws,
      exec (.sessExec 0) s = .next
        { s with
          phase := .closed, cur := 0, rem := 0, dlen := dlen, dbuf := dbuf, wkey := wkey, wklen := wklen, wkeyValid := true
          ivreg := ivreg, tfK := tfK, tfM := tfM, spK := spK, draws := draws
          tfxValid := s.tfxValid && cfgAlg s.cfg == 1#1, spxValid := s.spxValid && cfgAlg s.cfg == 0#1 } ∧
      dlen.toNat = (if cfgPad s.cfg = 0#2 then 16 * (s.dlen.toNat / 16) + 32 else s.dlen.toNat + 16) ∧
      wklen = (if cfgAlg s.cfg = 1#1 then 32 else s.keylen.toNat) ∧
      (cfgAlg s.cfg = 1#1 → wkey = spNormalize s.keylen.toNat s.key) ∧
      (cfgAlg s.cfg = 0#1 → ∀ i, i < 32 → i < s.keylen.toNat → wkey.getD i 0 = s.key.getD i 0) ∧
      (cfgAlg s.cfg = 1#1 → tfK = s.tfK ∧ tfM = s.tfM) ∧ (cfgAlg s.cfg = 0#1 → spK = s.spK) ∧
      ∀ a, (Memory.find? dbuf a).isSome ↔ a < dlen.toNat

/-- R160, R165: SESS.EXEC in direction Decrypt. WKEY and the bytes at and above the new DLEN as in direction Encrypt (log 8). -/
def Obligations.SessExecDecrypts : Prop :=
  ∀ s : State, s.err = false → s.sessionReady → s.keyValid = true → s.dataValid = true →
    s.keylen.toNat * 8 = (cfgKeybits s.cfg).toNat → cfgDir s.cfg = 1#1 → 32 ≤ s.dlen.toNat → s.dlen.toNat % 16 = 0 →
    ∃ dlen dbuf wkey wklen ivreg tfK tfM spK draws,
      exec (.sessExec 0) s = .next
        { s with
          phase := .closed, cur := 0, rem := 0, dlen := dlen, dbuf := dbuf, wkey := wkey, wklen := wklen, wkeyValid := true
          ivreg := ivreg, tfK := tfK, tfM := tfM, spK := spK, draws := draws
          tfxValid := s.tfxValid && cfgAlg s.cfg == 1#1, spxValid := s.spxValid && cfgAlg s.cfg == 0#1 } ∧
      (cfgPad s.cfg = 0#2 → dlen.toNat + 17 ≤ s.dlen.toNat) ∧ dlen.toNat + 16 ≤ s.dlen.toNat ∧
      wklen = (if cfgAlg s.cfg = 1#1 then 32 else s.keylen.toNat) ∧
      (cfgAlg s.cfg = 1#1 → wkey = spNormalize s.keylen.toNat s.key) ∧
      (cfgAlg s.cfg = 0#1 → ∀ i, i < 32 → i < s.keylen.toNat → wkey.getD i 0 = s.key.getD i 0) ∧
      (cfgAlg s.cfg = 1#1 → tfK = s.tfK ∧ tfM = s.tfM) ∧ (cfgAlg s.cfg = 0#1 → spK = s.spK) ∧
      ∀ a, (Memory.find? dbuf a).isSome ↔ a < dlen.toNat

/-- R163: where the checks of R160 hold, SESS.EXEC ends in the very state the single commands end in, and each of them is
Done. -/
def Obligations.SessExecEqualsCommandSequence : Prop :=
  ∀ s : State, s.err = false → refusalCause (.sessExec 0) s = none →
    ∃ t, exec (.sessExec 0) s = .next t ∧ runCommands (sessionCommands s (sessionSteps s)) s = .next t ∧ t.err = false

/-- R164: with PKCS7, encrypting `x` and decrypting the result under the same key gives `x` back, for either engine, whatever
the IV. -/
def Obligations.SessionRoundTrip : Prop :=
  ∀ (s : State) (alg : BitVec 1) (keybits : BitVec 16) (x : Nat → Byte),
    s.err = false → ¬ s.runOpen → s.keyValid = true → s.dataValid = true →
    (keybits = 128 ∨ keybits = 192 ∨ keybits = 256) → s.keylen.toNat * 8 = keybits.toNat →
    s.dlen.toNat + 16 - s.dlen.toNat % 16 + 16 ≤ Config.bufCap → (∀ a, a < s.dlen.toNat → s.dbuf? a = some (x a)) →
    ∃ t, runCommands
        [.sessCreate alg 0 0 0 0 keybits, .sessExec 0, .sessCreate alg 1 0 0 0 keybits, .sessExec 0] s = .next t ∧
      t.err = false ∧ t.dlen = s.dlen ∧ ∀ a, a < s.dlen.toNat → t.dbuf? a = some (x a)

/-! ## Twofish (40_twofish) -/

/-- R78: TF.KEYX, with the normalized key bytes of R65 and the words of R65, R66, R71. -/
def Obligations.TfKeyxRule : Prop :=
  ∀ s : State, s.err = false → ¬ s.runOpen → s.wkeyValid = true →
    exec (.tfKeyx 0) s = .next
      { s with
        tfK := tfSubkeys (tfMe (tfKeyBytes s.wklen s.wkey) (tfKLen s.wklen)) (tfMo (tfKeyBytes s.wklen s.wkey) (tfKLen s.wklen))
        tfM := tfTables (tfS (tfKeyBytes s.wklen s.wkey) (tfKLen s.wklen))
        tfxValid := true }

/-- R70: the forty subkeys, two by two. -/
def Obligations.TfSubkeyPairs : Prop :=
  ∀ (me mo : List Word) (i : Nat), i < 20 → ∀ A B : Word,
    A = hFun (BitVec.ofNat 32 (2 * i) * 0x01010101) me →
    B = rol32 (hFun (BitVec.ofNat 32 (2 * i + 1) * 0x01010101) mo) 8 →
    (tfSubkeys me mo).getD (2 * i) 0 = A + B ∧ (tfSubkeys me mo).getD (2 * i + 1) 0 = rol32 (A + B + B) 9

/-- R72, R73: a lookup in the four key-dependent tables is the h-function of the whole word. -/
def Obligations.TfTablesGiveH : Prop := ∀ (X : Word) (S : List Word), tfG0 (tfTables S) X = hFun X S

/-- R74: `G1(X) = G0(rol32(X, 8))`. -/
def Obligations.TfG1IsRotatedG0 : Prop :=
  ∀ (M : Vector (Vector Word 256) 4) (X : Word), tfG1 M X = tfG0 M (rol32 X 8)

/-- R66, R67: the matrix and the shift register give the same word for every eight key bytes. -/
def Obligations.TfRsFormsAgree : Prop :=
  ∀ (key : List Byte) (i : Nat), rsWord key i = rsRem (tfKeyWord key (2 * i)) (tfKeyWord key (2 * i + 1))

/-- R78, R80: the expanded key depends on the key bytes below WKLEN only, and a key and the same key with zero bytes after it,
up to the same size, have the same expanded key. -/
def Obligations.TfZeroExtendedKey : Prop :=
  ∀ (L L' : Nat) (w w' : Vector Byte 32), L ≤ L' → L' ≤ 32 → tfKeySize L = tfKeySize L' →
    (∀ i, i < L → w'.getD i 0 = w.getD i 0) → (∀ i, L ≤ i → i < L' → w'.getD i 0 = 0) →
    tfScheduleK L w = tfScheduleK L' w' ∧ tfScheduleM L w = tfScheduleM L' w'

/-- R75, R76, R80: the sixteen rounds. An even round `r` rewrites the words 2 and 3 from the words 0 and 1, an odd round the
reverse, with the subkeys `8 + 2r` and `9 + 2r`. -/
def Obligations.TfSixteenRounds : Prop :=
  ∀ (K : Vector Word 40) (M : Vector (Vector Word 256) 4) (x : Quad) (r : Nat → Quad),
    r 0 = ⟨x.w0 ^^^ K.getD 0 0, x.w1 ^^^ K.getD 1 0, x.w2 ^^^ K.getD 2 0, x.w3 ^^^ K.getD 3 0⟩ →
    (∀ n, n < 16 → n % 2 = 0 → r (n + 1) =
      ⟨(r n).w0, (r n).w1,
        ror32 ((r n).w2 ^^^ (tfG0 M (r n).w0 + tfG1 M (r n).w1 + K.getD (8 + 2 * n) 0)) 1,
        rol32 (r n).w3 1 ^^^ (tfG0 M (r n).w0 + tfG1 M (r n).w1 + tfG1 M (r n).w1 + K.getD (9 + 2 * n) 0)⟩) →
    (∀ n, n < 16 → n % 2 = 1 → r (n + 1) =
      ⟨ror32 ((r n).w0 ^^^ (tfG0 M (r n).w2 + tfG1 M (r n).w3 + K.getD (8 + 2 * n) 0)) 1,
        rol32 (r n).w1 1 ^^^ (tfG0 M (r n).w2 + tfG1 M (r n).w3 + tfG1 M (r n).w3 + K.getD (9 + 2 * n) 0),
        (r n).w2, (r n).w3⟩) →
    tfEncQuad K M x =
      ⟨(r 16).w2 ^^^ K.getD 4 0, (r 16).w3 ^^^ K.getD 5 0, (r 16).w0 ^^^ K.getD 6 0, (r 16).w1 ^^^ K.getD 7 0⟩

/-- R76, R77: TF.ENCB and TF.DECB replace the sixteen bytes at `off` and change nothing else. -/
def Obligations.TfBlockRule : Prop :=
  ∀ (s : State) (off : BitVec 24), s.err = false → ¬ s.runOpen → s.dataValid = true → s.tfxValid = true →
    off.toNat + 16 ≤ s.dlen.toNat →
    (∃ B m draws, s.reads off.toNat B ∧ exec (.tfEncb off) s = .next { s with dbuf := m, draws := draws } ∧
      ∀ a, Memory.find? m a =
        if off.toNat ≤ a ∧ a < off.toNat + 16 then
          some ((blockOfQuad (tfEncQuad s.tfK s.tfM (quadOfBlock B))).getD (a - off.toNat) 0)
        else s.dbuf? a) ∧
    (∃ B m draws, s.reads off.toNat B ∧ exec (.tfDecb off) s = .next { s with dbuf := m, draws := draws } ∧
      ∀ a, Memory.find? m a =
        if off.toNat ≤ a ∧ a < off.toNat + 16 then
          some ((blockOfQuad (tfDecQuad s.tfK s.tfM (quadOfBlock B))).getD (a - off.toNat) 0)
        else s.dbuf? a)

/-- R77: for one expanded key TF.DECB undoes TF.ENCB at the same offset, and the reverse. -/
def Obligations.TfDecryptUndoesEncrypt : Prop :=
  ∀ (s : State) (off : BitVec 24), s.err = false → ¬ s.runOpen → s.dataValid = true → s.tfxValid = true →
    off.toNat + 16 ≤ s.dlen.toNat → (∀ i, i < 16 → (s.dbuf? (off.toNat + i)).isSome) →
    (∃ t, runCommands [.tfEncb off, .tfDecb off] s = .next t ∧ t.err = false ∧ ∀ a, t.dbuf? a = s.dbuf? a) ∧
    (∃ t, runCommands [.tfDecb off, .tfEncb off] s = .next t ∧ t.err = false ∧ ∀ a, t.dbuf? a = s.dbuf? a)

/-! ## Serpent (41_serpent) -/

/-- R109: SP.KEYX normalizes WKEY in place (R106) and builds SP_K from it (R107, R108). -/
def Obligations.SpKeyxRule : Prop :=
  ∀ s : State, s.err = false → ¬ s.runOpen → s.wkeyValid = true →
    exec (.spKeyx 0) s = .next
      { s with
        wkey := spNormalize s.wklen s.wkey, wklen := 32, spK := spSchedule (spNormalize s.wklen s.wkey), spxValid := true }

/-- R106: the normalized key, byte by byte. -/
def Obligations.SpNormalizedKey : Prop :=
  ∀ (L : Nat) (w : Vector Byte 32), L ≤ 32 →
    (∀ i, i < L → (spNormalize L w).getD i 0 = w.getD (L - 1 - i) 0) ∧ (L < 32 → (spNormalize L w).getD L 0 = 1) ∧
    (∀ i, L < i → i < 32 → (spNormalize L w).getD i 0 = 0)

/-- R107, R108: the prekeys by the recurrence over the eight seed words (index 8 of `w` is the prekey 0), and each round-key
quadruple from four prekeys by the S-box `(3 - i) mod 8`. -/
def Obligations.SpRoundKeySchedule : Prop :=
  ∀ (key : Vector Byte 32) (w : Nat → Word),
    (∀ i, i < 8 → w i = le32 (key.getD (4 * i) 0) (key.getD (4 * i + 1) 0) (key.getD (4 * i + 2) 0) (key.getD (4 * i + 3) 0)) →
    (∀ i, i < 132 → w (i + 8) = rol32 (w i ^^^ w (i + 3) ^^^ w (i + 5) ^^^ w (i + 7) ^^^ 0x9E3779B9 ^^^ BitVec.ofNat 32 i) 11) →
    ∀ i, i < 33 →
      (⟨(spSchedule key).getD (4 * i) 0, (spSchedule key).getD (4 * i + 1) 0, (spSchedule key).getD (4 * i + 2) 0,
          (spSchedule key).getD (4 * i + 3) 0⟩ : Quad) =
        spS (((3 - (i : Int)) % 8).toNat) ⟨w (4 * i + 8), w (4 * i + 9), w (4 * i + 10), w (4 * i + 11)⟩

/-- R204: a second SP.KEYX with no KEY.CLONE between reverses the thirty-two bytes the first left and appends nothing. -/
def Obligations.SpSecondKeyxReverses : Prop :=
  ∀ s : State, s.err = false → ¬ s.runOpen → s.wkeyValid = true →
    ∃ t u, exec (.spKeyx 0) s = .next t ∧ exec (.spKeyx 0) t = .next u ∧ t.wklen = 32 ∧ u.wklen = 32 ∧
      (∀ i, i < 32 → u.wkey.getD i 0 = t.wkey.getD (31 - i) 0) ∧ u.spK = spSchedule u.wkey

/-- R101, R104, R105: the inverse S-boxes and the inverse linear step undo the forward ones, both ways. -/
def Obligations.SpStepsInvert : Prop :=
  ∀ x : Quad, spLTI (spLT x) = x ∧ spLT (spLTI x) = x ∧
    ∀ n, n < 8 → spSI n (spS n x) = x ∧ spS n (spSI n x) = x

/-- R103: the boolean equations give the same words as the S-box tables applied column by column. -/
def Obligations.SpEquationsGiveBoxes : Prop :=
  ∀ (n : Nat) (x : Quad), n < 8 → spBoolean spEquations n x = spS n x ∧ spBoolean spInverseEquations n x = spSI n x

/-- R110 to R113: SP.ENCB and SP.DECB replace the sixteen bytes at `off` and change nothing else. The words of a block are
read, and written back, from its reversed bytes. -/
def Obligations.SpBlockRule : Prop :=
  ∀ (s : State) (off : BitVec 24), s.err = false → ¬ s.runOpen → s.dataValid = true → s.spxValid = true →
    off.toNat + 16 ≤ s.dlen.toNat →
    (∃ B m draws, s.reads off.toNat B ∧ exec (.spEncb off) s = .next { s with dbuf := m, draws := draws } ∧
      ∀ a, Memory.find? m a =
        if off.toNat ≤ a ∧ a < off.toNat + 16 then
          some ((blockOfQuad (spEncQuad s.spK (quadOfBlock (reverseBlock B)))).getD (15 - (a - off.toNat)) 0)
        else s.dbuf? a) ∧
    (∃ B m draws, s.reads off.toNat B ∧ exec (.spDecb off) s = .next { s with dbuf := m, draws := draws } ∧
      ∀ a, Memory.find? m a =
        if off.toNat ≤ a ∧ a < off.toNat + 16 then
          some ((blockOfQuad (spDecQuad s.spK (quadOfBlock (reverseBlock B)))).getD (15 - (a - off.toNat)) 0)
        else s.dbuf? a)

/-- R112: the thirty-two rounds of the encryption. -/
def Obligations.SpThirtyTwoRounds : Prop :=
  ∀ (K : Vector Word 132) (x : Quad) (b : Nat → Quad),
    b 0 = xorQuad x ⟨K.getD 0 0, K.getD 1 0, K.getD 2 0, K.getD 3 0⟩ →
    (∀ n, n < 32 → b (n + 1) = xorQuad (if n < 31 then spLT (spS (n % 8) (b n)) else spS (n % 8) (b n))
      ⟨K.getD (4 * n + 4) 0, K.getD (4 * n + 5) 0, K.getD (4 * n + 6) 0, K.getD (4 * n + 7) 0⟩) →
    spEncQuad K x = b 32

/-- R113: for one expanded key SP.DECB undoes SP.ENCB at the same offset, and the reverse. -/
def Obligations.SpDecryptUndoesEncrypt : Prop :=
  ∀ (s : State) (off : BitVec 24), s.err = false → ¬ s.runOpen → s.dataValid = true → s.spxValid = true →
    off.toNat + 16 ≤ s.dlen.toNat → (∀ i, i < 16 → (s.dbuf? (off.toNat + i)).isSome) →
    (∃ t, runCommands [.spEncb off, .spDecb off] s = .next t ∧ t.err = false ∧ ∀ a, t.dbuf? a = s.dbuf? a) ∧
    (∃ t, runCommands [.spDecb off, .spEncb off] s = .next t ∧ t.err = false ∧ ∀ a, t.dbuf? a = s.dbuf? a)

/-- R79, R114: TF.CLOSE and SP.CLOSE clear the valid flag, the expanded key becomes unspecified, and nothing else changes. -/
def Obligations.EngineCloseRules : Prop :=
  ∀ s : State, s.err = false → ¬ s.runOpen →
    (∃ tfK tfM draws, exec (.tfClose 0) s = .next { s with tfxValid := false, tfK := tfK, tfM := tfM, draws := draws }) ∧
    (∃ spK draws, exec (.spClose 0) s = .next { s with spxValid := false, spK := spK, draws := draws })

/-! ## Padding (42_padding) -/

/-- R130: P7.APPEND, where the padded length fits BUF_CAP. That the bytes at and above the new DLEN become unspecified is the
model's reading of R19 (log 8). -/
def Obligations.P7AppendRule : Prop :=
  ∀ (s : State) (n : Nat), s.err = false → ¬ s.runOpen → s.dataValid = true → n = 16 - s.dlen.toNat % 16 →
    s.dlen.toNat + n ≤ Config.bufCap →
    ∃ dlen m, exec (.p7Append 0) s = .next { s with dlen := dlen, dbuf := m } ∧ dlen.toNat = s.dlen.toNat + n ∧
      dlen.toNat % 16 = 0 ∧ 16 ≤ dlen.toNat ∧
      ∀ a, Memory.find? m a =
        if a < s.dlen.toNat then s.dbuf? a else if a < s.dlen.toNat + n then some (BitVec.ofNat 8 n) else none

/-- R131: P7.REMOVE, by the table of its corner cases; `b` is the last byte. -/
def Obligations.P7RemoveRule : Prop :=
  ∀ s : State, s.err = false → ¬ s.runOpen → s.dataValid = true →
    ∃ (b : Byte) (dlen : Word) (m : Memory) (draws : Nat),
      (∀ v, 0 < s.dlen.toNat → s.dbuf? (s.dlen.toNat - 1) = some v → b = v) ∧
      exec (.p7Remove 0) s = .next { s with dlen := dlen, dbuf := m, draws := draws } ∧
      (s.dlen.toNat = 0 → dlen.toNat = 0) ∧
      (0 < s.dlen.toNat → b = 0 → dlen.toNat = s.dlen.toNat - 1) ∧
      (0 < s.dlen.toNat → 1 ≤ b.toNat → b.toNat ≤ 16 → dlen.toNat = s.dlen.toNat - min b.toNat s.dlen.toNat) ∧
      (0 < s.dlen.toNat → 17 ≤ b.toNat → dlen.toNat = s.dlen.toNat - 1) ∧
      ∀ a, Memory.find? m a = if a < dlen.toNat then s.dbuf? a else none

/-- R134: P7.APPEND then P7.REMOVE restores the length and the bytes. -/
def Obligations.P7RemoveUndoesAppend : Prop :=
  ∀ s : State, s.err = false → ¬ s.runOpen → s.dataValid = true →
    s.dlen.toNat + (16 - s.dlen.toNat % 16) ≤ Config.bufCap →
    ∃ t, runCommands [.p7Append 0, .p7Remove 0] s = .next t ∧ t.err = false ∧ t.dlen = s.dlen ∧
      ∀ a, a < s.dlen.toNat → t.dbuf? a = s.dbuf? a

/-- R132, R133: NP.APPEND and NP.REMOVE: their words, their checks in order, and no change where they pass, at any length. -/
def Obligations.NoPaddingRules : Prop :=
  (decode 0x00000032 = some (.npAppend 0) ∧ decode 0x00000033 = some (.npRemove 0)) ∧
  ∀ (s : State) (i : BitVec 24 → Instr), i = .npAppend ∨ i = .npRemove → s.err = false →
    (∀ arg, arg ≠ 0#24 → exec (i arg) s = .next { s with err := true, errcode := 0x061, errcmd := (i arg).encode }) ∧
    (s.runOpen → exec (i 0) s = .next { s with err := true, errcode := 0x071, errcmd := (i 0).encode }) ∧
    (¬ s.runOpen → s.dataValid = false →
      exec (i 0) s = .next { s with err := true, errcode := 0x021, errcmd := (i 0).encode }) ∧
    (¬ s.runOpen → s.dataValid = true → exec (i 0) s = .next s)

/-! ## The CBC mode driver (43_cbc) -/

/-- R140, R141: CBC.OPEN in direction Encrypt. The key schedule is TF.KEYX's or SP.KEYX's action. That the bytes at and above
the new DLEN become unspecified, here and in the five statements after it, is the model's reading of R19 (log 8). -/
def Obligations.CbcOpenEncrypt : Prop :=
  ∀ s : State, s.err = false → s.sessionReady → s.wkeyValid = true → s.dataValid = true → cfgDir s.cfg = 0#1 →
    s.dlen.toNat % 16 = 0 → 16 ≤ s.dlen.toNat → s.dlen.toNat + 16 ≤ Config.bufCap →
    ∃ (rnd : Block) (m : Memory) (dlen : Word) (draws : Nat),
      exec (.cbcOpen 0) s = .next
        { (if cfgAlg s.cfg = 1#1 then
            { s with
              wkey := spNormalize s.wklen s.wkey, wklen := 32, spK := spSchedule (spNormalize s.wklen s.wkey)
              spxValid := true }
          else
            { s with tfK := tfScheduleK s.wklen s.wkey, tfM := tfScheduleM s.wklen s.wkey, tfxValid := true }) with
          ivreg := rnd, cur := 16, rem := s.dlen, dlen := dlen, phase := .opened, dbuf := m, draws := draws } ∧
      dlen.toNat = s.dlen.toNat + 16 ∧
      ∀ a, Memory.find? m a =
        if a < 16 then some (rnd.getD a 0) else if a < s.dlen.toNat + 16 then s.dbuf? (a - 16) else none

/-- R140, R142: CBC.OPEN in direction Decrypt. The bytes at and above DLEN become unspecified (R19, log 8). -/
def Obligations.CbcOpenDecrypt : Prop :=
  ∀ s : State, s.err = false → s.sessionReady → s.wkeyValid = true → s.dataValid = true → cfgDir s.cfg = 1#1 →
    s.dlen.toNat % 16 = 0 → 32 ≤ s.dlen.toNat →
    ∃ (iv : Block) (m : Memory) (rem : Word) (draws : Nat), s.reads 0 iv ∧
      exec (.cbcOpen 0) s = .next
        { (if cfgAlg s.cfg = 1#1 then
            { s with
              wkey := spNormalize s.wklen s.wkey, wklen := 32, spK := spSchedule (spNormalize s.wklen s.wkey)
              spxValid := true }
          else
            { s with tfK := tfScheduleK s.wklen s.wkey, tfM := tfScheduleM s.wklen s.wkey, tfxValid := true }) with
          ivreg := iv, cur := 16, rem := rem, phase := .opened, dbuf := m, draws := draws } ∧
      rem.toNat = s.dlen.toNat - 16 ∧
      ∀ a, Memory.find? m a = if a < s.dlen.toNat then s.dbuf? a else none

/-- R143, R144: CBC.STEP in direction Encrypt. While a run is open CUR is at least 16 (`Inv`, clause `run`). The bytes at and
above DLEN become unspecified (R19, log 8). -/
def Obligations.CbcStepEncrypt : Prop :=
  ∀ s : State, s.err = false → s.runOpen → 16 ≤ s.cur.toNat → s.cur.toNat + 16 ≤ s.dlen.toNat → cfgDir s.cfg = 0#1 →
    ∃ (B P : Block) (m : Memory) (cur rem : Word) (draws : Nat), s.reads s.cur.toNat B ∧ s.reads (s.cur.toNat - 16) P ∧
      exec (.cbcStep 0) s =
        .next { s with dbuf := m, cur := cur, rem := rem, phase := .stepping, draws := draws } ∧
      cur.toNat = s.cur.toNat + 16 ∧ rem.toNat = s.dlen.toNat - cur.toNat ∧
      ∀ a, Memory.find? m a =
        if s.cur.toNat ≤ a ∧ a < s.cur.toNat + 16 then some ((s.encryption (xorBlock B P)).getD (a - s.cur.toNat) 0)
        else if a < s.dlen.toNat then s.dbuf? a else none

/-- R143, R145: CBC.STEP in direction Decrypt. The bytes at and above DLEN become unspecified (R19, log 8). -/
def Obligations.CbcStepDecrypt : Prop :=
  ∀ s : State, s.err = false → s.runOpen → s.cur.toNat + 16 ≤ s.dlen.toNat → cfgDir s.cfg = 1#1 →
    ∃ (C : Block) (m : Memory) (cur rem : Word) (draws : Nat), s.reads s.cur.toNat C ∧
      exec (.cbcStep 0) s =
        .next { s with dbuf := m, ivreg := C, cur := cur, rem := rem, phase := .stepping, draws := draws } ∧
      cur.toNat = s.cur.toNat + 16 ∧ rem.toNat = s.dlen.toNat - cur.toNat ∧
      ∀ a, Memory.find? m a =
        if s.cur.toNat ≤ a ∧ a < s.cur.toNat + 16 then
          some ((xorBlock (s.decryption C) s.ivreg).getD (a - s.cur.toNat) 0)
        else if a < s.dlen.toNat then s.dbuf? a else none

/-- R146: CBC.CLOSE in direction Encrypt leaves the data and its length as they are. The bytes at and above DLEN become
unspecified (R19, log 8). -/
def Obligations.CbcCloseEncrypt : Prop :=
  ∀ s : State, s.err = false → s.phase = .stepping → s.cur = s.dlen → cfgDir s.cfg = 0#1 →
    ∃ m ivreg tfK tfM spK draws,
      exec (.cbcClose 0) s = .next
        { s with
          phase := .closed, cur := 0, rem := 0, ivreg := ivreg, dbuf := m, tfK := tfK, tfM := tfM, spK := spK, draws := draws
          tfxValid := s.tfxValid && cfgAlg s.cfg == 1#1, spxValid := s.spxValid && cfgAlg s.cfg == 0#1 } ∧
      (cfgAlg s.cfg = 1#1 → tfK = s.tfK ∧ tfM = s.tfM) ∧ (cfgAlg s.cfg = 0#1 → spK = s.spK) ∧
      ∀ a, Memory.find? m a = if a < s.dlen.toNat then s.dbuf? a else none

/-- R146 to R149: CBC.CLOSE in direction Decrypt. The IV goes, `T` bytes are left when the zero bytes at the end are dropped,
and with PKCS7 the padding after them is removed (R131); `f` are the data bytes and `b` the last byte before the removal. The
bytes at and above the new DLEN become unspecified: R131 says so where the padding is removed, else it is R19 (log 8). -/
def Obligations.CbcCloseDecrypt : Prop :=
  ∀ s : State, s.err = false → s.phase = .stepping → s.cur = s.dlen → cfgDir s.cfg = 1#1 → 16 ≤ s.dlen.toNat →
    ∃ (f : Nat → Byte) (b : Byte) (T : Nat) (dlen : Word) (m : Memory) (ivreg : Block) (tfK : Vector Word 40)
        (tfM : Vector (Vector Word 256) 4) (spK : Vector Word 132) (draws : Nat),
      (∀ a v, s.dbuf? (a + 16) = some v → f a = v) ∧
      T + 16 ≤ s.dlen.toNat ∧ (∀ a, T ≤ a → a + 16 < s.dlen.toNat → f a = 0) ∧ (0 < T → f (T - 1) ≠ 0) ∧
      (∀ v, 0 < T → s.dbuf? (T + 15) = some v → b = v) ∧
      dlen.toNat = (if cfgPad s.cfg = 0#2 then (if T = 0 then 0 else if b = 0 ∨ 16 < b.toNat then T - 1 else T - min b.toNat T)
        else T) ∧
      exec (.cbcClose 0) s = .next
        { s with
          phase := .closed, cur := 0, rem := 0, ivreg := ivreg, dlen := dlen, dbuf := m, tfK := tfK, tfM := tfM, spK := spK
          draws := draws
          tfxValid := s.tfxValid && cfgAlg s.cfg == 1#1, spxValid := s.spxValid && cfgAlg s.cfg == 0#1 } ∧
      (cfgAlg s.cfg = 1#1 → tfK = s.tfK ∧ tfM = s.tfM) ∧ (cfgAlg s.cfg = 0#1 → spK = s.spK) ∧
      ∀ a, Memory.find? m a = if a < dlen.toNat then s.dbuf? (a + 16) else none

/-- R150: opening and stepping to the end makes, of the blocks `P_1 .. P_m`, the IV and the chain `C_i = E(P_i ^ C_(i-1))`;
and of `C_0 .. C_m`, when it decrypts, `C_0` and `P_i = D(C_i) ^ C_(i-1)`. -/
def Obligations.CbcChains : Prop :=
  ∀ (s : State), s.err = false → s.sessionReady → s.wkeyValid = true → s.dataValid = true →
    (∀ ps : List Block, cfgDir s.cfg = 0#1 → s.holdsBlocks ps → 1 ≤ ps.length → 16 * ps.length + 16 ≤ Config.bufCap →
      ∃ t rnd, runCommands (.cbcOpen 0 :: List.replicate ps.length (.cbcStep 0)) s = .next t ∧ t.err = false ∧ t.rem = 0 ∧
        t.holdsBlocks (rnd :: cbcChain t.encryption rnd ps)) ∧
    (∀ (iv : Block) (cs : List Block), cfgDir s.cfg = 1#1 → s.holdsBlocks (iv :: cs) → 1 ≤ cs.length →
      ∃ t, runCommands (.cbcOpen 0 :: List.replicate cs.length (.cbcStep 0)) s = .next t ∧ t.err = false ∧ t.rem = 0 ∧
        t.holdsBlocks (iv :: cbcUnchain t.decryption iv cs))

/-! ## The whole machine -/

/-- R11, R12, R17: which commands may change the caller's key, the configuration and each valid flag. -/
def Obligations.OnlyTheseCommandsWrite : Prop :=
  ∀ (i : Instr) (s t : State), exec i s = .next t → (∀ arg, i ≠ .sysReset arg) →
    t.key = s.key ∧ t.keylen = s.keylen ∧ t.keyValid = s.keyValid ∧ t.dataValid = s.dataValid ∧
    ((∀ alg dir mode pad rsv keybits, i ≠ .sessCreate alg dir mode pad rsv keybits) →
      t.cfg = s.cfg ∧ t.cfgValid = s.cfgValid) ∧
    ((∀ arg, i ≠ .keyClone arg) → (∀ arg, i ≠ .sessExec arg) → t.wkeyValid = s.wkeyValid) ∧
    ((∀ arg, i ≠ .tfKeyx arg) → (∀ arg, i ≠ .tfClose arg) →
      ((∀ arg, i ≠ .sessExec arg) ∧ (∀ arg, i ≠ .cbcOpen arg) ∧ (∀ arg, i ≠ .cbcClose arg) ∨ cfgAlg s.cfg = 1#1) →
      t.tfxValid = s.tfxValid) ∧
    ((∀ arg, i ≠ .spKeyx arg) → (∀ arg, i ≠ .spClose arg) →
      ((∀ arg, i ≠ .sessExec arg) ∧ (∀ arg, i ≠ .cbcOpen arg) ∧ (∀ arg, i ≠ .cbcClose arg) ∨ cfgAlg s.cfg = 0#1) →
      t.spxValid = s.spxValid)

/-- The state after reset meets the invariant. -/
def Obligations.ResetMeetsInvariant : Prop := Inv State.reset

/-- Every step of the machine, of every state that meets the invariant, leaves a state that meets it: DBUF stays in canonical
form and inside BUF_CAP, DLEN at most BUF_CAP, the key lengths at most 32, CFG legal, the error registers consistent, and
CUR, REM and PHASE fit each other (10_state R11, R13 to R19). -/
def Obligations.StepKeepsInvariant : Prop := ∀ s t : State, Inv s → step s = .next t → Inv t
end

