-- ==== Sys2Proof/Laws/Basic.lean ====
section
/-! SUPPORT. The small lemmas of tables, blocks and BUF_CAP. -/

namespace Sys2Proof

theorem listFrom_getElem {α : Type} (f : Nat → α) (n i j : Nat) (h : j < (listFrom f n i).length) :
    (listFrom f n i)[j] = f (i + j) := by
  induction n generalizing i j with
  | zero => simp [listFrom] at h
  | succ n ih =>
    cases j with
    | zero => simp [listFrom]
    | succ j =>
      simp only [listFrom, List.getElem_cons_succ]
      rw [ih (i + 1) j (by simpa [listFrom] using h)]
      congr 1
      omega

@[simp] theorem table_getElem {α : Type} {n : Nat} (f : Nat → α) (i : Nat) (h : i < n) : (table n f)[i] = f i := by
  have hl : i < (listFrom f n 0).length := by simpa [listFrom_length] using h
  have e : (table n f)[i] = (listFrom f n 0)[i]'hl := rfl
  rw [e, listFrom_getElem]
  simp

@[simp] theorem table_getD {α : Type} {n : Nat} (f : Nat → α) (i : Nat) (d : α) (h : i < n) : (table n f).getD i d = f i := by
  simp [Vector.getD, h]

/-- Two blocks with equal bytes are equal. -/
theorem vector_ext {α : Type} {n : Nat} {v w : Vector α n} (h : ∀ i (hi : i < n), v[i] = w[i]) : v = w := Vector.ext h

/-- BUF_CAP is at least 48 (00_scope R5). -/
theorem bufCap_ge : 48 ≤ Config.bufCap := by unfold Config.bufCap; omega

/-- BUF_CAP is a multiple of 16 (00_scope R5). -/
theorem bufCap_mod : Config.bufCap % 16 = 0 := by unfold Config.bufCap; omega

/-- BUF_CAP fits the 32-bit DLEN (log 6). -/
theorem bufCap_lt : Config.bufCap < 4294967296 := by
  unfold Config.bufCap
  have := Nat.mod_lt Config.extraBlocks (show 0 < 268435453 by decide)
  omega

end Sys2Proof
end

