-- ==== Sys2Proof/Laws/Decode.lean ====
section
/-! SUPPORT. The fields of an encoded word, and everything decoding can answer. -/

namespace Sys2Proof

theorem opcField_encode (i : Instr) : opcField i.encode = i.opcode := by
  unfold opcField Instr.encode
  ext k hk
  have h1 : k < 32 := by omega
  simp [hk, h1]

theorem argField_encode (i : Instr) : argField i.encode = i.argBits := by
  unfold argField Instr.encode
  ext k hk
  have h1 : 8 + k < 32 := by omega
  simp [hk, h1]

theorem createFields_encode (alg dir : BitVec 1) (mode pad rsv : BitVec 2) (keybits : BitVec 16) :
    createFields (Instr.sessCreate alg dir mode pad rsv keybits).encode = .sessCreate alg dir mode pad rsv keybits := by
  simp only [createFields, Instr.encode, Instr.argBits, Instr.opcode]
  congr 1
  · ext k hk
    have : k = 0 := by omega
    subst this; simp
  · ext k hk
    have : k = 0 := by omega
    subst this; simp
  · ext k hk
    have : k = 0 ∨ k = 1 := by omega
    rcases this with rfl | rfl <;> simp
  · ext k hk
    have : k = 0 ∨ k = 1 := by omega
    rcases this with rfl | rfl <;> simp
  · ext k hk
    have : k = 0 ∨ k = 1 := by omega
    rcases this with rfl | rfl <;> simp
  · ext k hk
    have h1 : 16 + k < 32 := by omega
    have h2 : 8 + k < 24 := by omega
    have h4 : 16 + k - 8 = 8 + k := by omega
    have h5 : (8#32).getLsbD (16 + k) = false := by
      interval_cases k <;> rfl
    have h6 : rsv.getLsbD (8 + k - 6) = false := BitVec.getLsbD_of_ge _ _ (by omega)
    have h7 : pad.getLsbD (8 + k - 4) = false := BitVec.getLsbD_of_ge _ _ (by omega)
    have h8 : mode.getLsbD (8 + k - 2) = false := BitVec.getLsbD_of_ge _ _ (by omega)
    have h9 : dir.getLsbD (7 + k) = false := BitVec.getLsbD_of_ge _ _ (by omega)
    have h10 : alg.getLsbD (8 + k) = false := BitVec.getLsbD_of_ge _ _ (by omega)
    have h11 : ¬ 16 + k < 8 := by omega
    rw [BitVec.getLsbD_eq_getElem (by omega)] at h5
    simp [hk, h1, h2, h4, h5, h6, h7, h8, h9, h10, h11]

/-- Everything decoding can answer: the command of the opcode, with the fields of the word. -/
theorem decode_fields {w : Word} {i : Instr} (h : decode w = some i) :
    i.opcode = opcField w ∧ (i = createFields w ∧ opcField w = 8 ∨ i.argBits = argField w) := by
  have hd : decodeWord w = .ok i := by
    unfold decode at h
    split at h
    · next j hj => rw [hj]; cases h; rfl
    · cases h
  have row : ∀ {p P : Prop} [Decidable p] {j : Instr} {b : Except DecodeError Instr},
      (p → j = i → P) → (b = .ok i → P) → (if p then .ok j else b) = .ok i → P := by
    intro p P _ j b h1 h2 h3
    split at h3
    · next hp => injection h3 with h3; exact h1 hp h3
    · exact h2 h3
  unfold decodeWord at hd
  revert hd
  iterate 20
    refine row (fun hp hj => by
      subst hj; exact ⟨hp.symm, by first | exact .inl ⟨rfl, hp⟩ | exact .inr rfl⟩) ?_
  intro h; cases h

end Sys2Proof
end

