-- ==== Sys2Proof/Laws/Memory.lean ====
section
/-! SUPPORT. The laws of DBUF: what each memory operation does to a read of any one byte, and that each keeps the canonical
form and the bound on the indexes. -/

namespace Sys2Proof.Machine

@[simp] theorem find?_nil (a : Nat) : Memory.find? [] a = none := rfl

theorem find?_write (m : Memory) (a : Nat) (b : Byte) (x : Nat) :
    Memory.find? (Memory.write m a b) x = if x = a then some b else Memory.find? m x := by
  induction m with
  | nil => simp only [Memory.write, Memory.find?]; grind
  | cons c m ih =>
    obtain ⟨y, v⟩ := c
    simp only [Memory.write]
    split
    · simp only [Memory.find?]; grind
    · split
      · simp only [Memory.find?]; grind
      · simp only [Memory.find?, ih]; grind

/-- A read after a list was written (20_memory R42). -/
theorem find?_writeList (m : Memory) (a : Nat) (l : List Byte) (x : Nat) :
    Memory.find? (Memory.writeList m a l) x = if a ≤ x ∧ x < a + l.length then l[x - a]? else Memory.find? m x := by
  induction l generalizing m a with
  | nil => simp [Memory.writeList]
  | cons b l ih =>
    simp only [Memory.writeList, ih, find?_write, List.length_cons]
    by_cases hx : x = a
    · subst hx; simp
    · by_cases h2 : a + 1 ≤ x ∧ x < a + 1 + l.length
      · obtain ⟨k, rfl⟩ : ∃ k, x = a + 1 + k := ⟨x - (a + 1), by omega⟩
        have h3 : a + 1 + k - a = k + 1 := by omega
        have h4 : a + 1 + k - (a + 1) = k := by omega
        rw [if_pos h2, if_pos (by omega), h3, h4]
        rfl
      · rw [if_neg h2, if_neg hx, if_neg (by omega)]

theorem find?_forgetFrom (m : Memory) (n x : Nat) :
    Memory.find? (Memory.forgetFrom m n) x = if x < n then Memory.find? m x else none := by
  induction m with
  | nil => simp [Memory.forgetFrom]
  | cons c m ih =>
    obtain ⟨y, v⟩ := c
    have ih' : Memory.find? (m.filter fun c => decide (c.1 < n)) x = if x < n then Memory.find? m x else none := ih
    simp only [Memory.forgetFrom, List.filter_cons]
    by_cases hy : y < n
    · simp only [hy, decide_true, if_true, Memory.find?, ih']; grind
    · simp only [hy, decide_false, Bool.false_eq_true, if_false, Memory.find?, ih']; grind

theorem find?_shiftUp (m : Memory) (k x : Nat) :
    Memory.find? (Memory.shiftUp m k) x = if k ≤ x then Memory.find? m (x - k) else none := by
  induction m with
  | nil => simp [Memory.shiftUp]
  | cons c m ih =>
    obtain ⟨y, v⟩ := c
    have ih' : Memory.find? (m.map fun c => (c.1 + k, c.2)) x = if k ≤ x then Memory.find? m (x - k) else none := ih
    simp only [Memory.shiftUp, List.map_cons, Memory.find?, ih']
    grind

theorem find?_shiftDown (m : Memory) (k x : Nat) : Memory.find? (Memory.shiftDown m k) x = Memory.find? m (x + k) := by
  induction m with
  | nil => simp [Memory.shiftDown]
  | cons c m ih =>
    obtain ⟨y, v⟩ := c
    have ih' : Memory.find? ((m.filter fun c => decide (k ≤ c.1)).map fun c => (c.1 - k, c.2)) x = Memory.find? m (x + k) := ih
    simp only [Memory.shiftDown, List.filter_cons]
    by_cases hy : k ≤ y
    · simp only [hy, decide_true, if_true, List.map_cons, Memory.find?, ih']; grind
    · simp only [hy, decide_false, Bool.false_eq_true, if_false, Memory.find?, ih']; grind

theorem mem_write {m : Memory} {a : Nat} {b : Byte} {c : Host.Cell} (h : c ∈ Memory.write m a b) : c = (a, b) ∨ c ∈ m := by
  induction m with
  | nil => simpa [Memory.write] using h
  | cons d m ih =>
    obtain ⟨y, v⟩ := d
    simp only [Memory.write] at h
    split at h
    · simpa using h
    · split at h
      · simp at h ⊢; tauto
      · simp at h ⊢
        rcases h with h | h
        · exact .inr (.inl h)
        · rcases ih h with h | h <;> simp [h]

theorem write_wf {m : Memory} (h : Memory.wf m) (a : Nat) (b : Byte) : Memory.wf (Memory.write m a b) := by
  induction m with
  | nil => simp [Memory.write, Memory.wf]
  | cons d m ih =>
    obtain ⟨y, v⟩ := d
    have h' := List.pairwise_cons.1 h
    simp only [Memory.write]
    split
    · next hlt =>
      refine List.pairwise_cons.2 ⟨fun c hc => ?_, h⟩
      rcases List.mem_cons.1 hc with rfl | hc
      · exact hlt
      · exact lt_trans hlt (h'.1 c hc)
    · split
      · next heq => subst heq; exact List.pairwise_cons.2 ⟨h'.1, h'.2⟩
      · next hlt hne =>
        refine List.pairwise_cons.2 ⟨fun c hc => ?_, ih h'.2⟩
        rcases mem_write hc with rfl | hc
        · show y < a; omega
        · exact h'.1 c hc

theorem writeList_wf {m : Memory} (h : Memory.wf m) (a : Nat) (l : List Byte) : Memory.wf (Memory.writeList m a l) := by
  induction l generalizing m a with
  | nil => exact h
  | cons b l ih => exact ih (write_wf h a b) (a + 1)

theorem forgetFrom_wf {m : Memory} (h : Memory.wf m) (n : Nat) : Memory.wf (Memory.forgetFrom m n) := h.filter _

theorem shiftUp_wf {m : Memory} (h : Memory.wf m) (k : Nat) : Memory.wf (Memory.shiftUp m k) := by
  refine List.pairwise_map.2 (h.imp ?_)
  intro x y hxy
  simpa using hxy

theorem shiftDown_wf {m : Memory} (h : Memory.wf m) (k : Nat) : Memory.wf (Memory.shiftDown m k) := by
  refine List.pairwise_map.2 ?_
  have h1 : List.Pairwise (fun x y : Host.Cell => x.1 < y.1) (m.filter fun c => decide (k ≤ c.1)) := h.filter _
  refine List.Pairwise.imp_of_mem ?_ h1
  intro x y hx hy hxy
  have := (List.mem_filter.1 hx).2
  simp at this
  simp only
  omega

/-- Every index of the memory is below `n`. -/
def Memory.below (m : Memory) (n : Nat) : Prop := ∀ c ∈ m, c.1 < n

theorem write_below {m : Memory} {n : Nat} (h : Memory.below m n) (a : Nat) (b : Byte) (ha : a < n) :
    Memory.below (Memory.write m a b) n := by
  intro c hc
  rcases mem_write hc with rfl | hc
  · exact ha
  · exact h c hc

theorem writeList_below {m : Memory} {n : Nat} (h : Memory.below m n) (a : Nat) (l : List Byte) (ha : a + l.length ≤ n) :
    Memory.below (Memory.writeList m a l) n := by
  induction l generalizing m a with
  | nil => exact h
  | cons b l ih =>
    simp at ha
    exact ih (write_below h a b (by omega)) (a + 1) (by omega)

theorem forgetFrom_below {m : Memory} {n : Nat} (h : Memory.below m n) (k : Nat) : Memory.below (Memory.forgetFrom m k) n :=
  fun c hc => h c (List.mem_filter.1 hc).1

theorem forgetFrom_below_self (m : Memory) (k : Nat) : Memory.below (Memory.forgetFrom m k) k := by
  intro c hc
  have := (List.mem_filter.1 hc).2
  simpa using this

theorem shiftUp_below {m : Memory} {n : Nat} (h : Memory.below m n) (k : Nat) : Memory.below (Memory.shiftUp m k) (n + k) := by
  intro c hc
  obtain ⟨d, hd, rfl⟩ := List.mem_map.1 hc
  have := h d hd
  simp only
  omega

theorem shiftDown_below {m : Memory} {n : Nat} (h : Memory.below m n) (k : Nat) : Memory.below (Memory.shiftDown m k) n := by
  intro c hc
  obtain ⟨d, hd, rfl⟩ := List.mem_map.1 hc
  have := h d (List.mem_filter.1 hd).1
  simp only
  omega

theorem below_mono {m : Memory} {n k : Nat} (h : Memory.below m n) (hk : n ≤ k) : Memory.below m k :=
  fun c hc => lt_of_lt_of_le (h c hc) hk

end Sys2Proof.Machine
end

