-- ==== Sys2Proof/Laws/State.lean ====
section
/-! SUPPORT. One lemma per field for each named update of the state, so that no proof unfolds a record update. The
composite operations (the engine chosen by CFG.ALG, open, step, close) have one lemma per field they leave alone. -/

namespace Sys2Proof.Machine

@[simp] theorem forgetTail_err (s : State) : (s.forgetTail).err = s.err := rfl
@[simp] theorem forgetTail_cfgValid (s : State) : (s.forgetTail).cfgValid = s.cfgValid := rfl
@[simp] theorem forgetTail_keyValid (s : State) : (s.forgetTail).keyValid = s.keyValid := rfl
@[simp] theorem forgetTail_dataValid (s : State) : (s.forgetTail).dataValid = s.dataValid := rfl
@[simp] theorem forgetTail_wkeyValid (s : State) : (s.forgetTail).wkeyValid = s.wkeyValid := rfl
@[simp] theorem forgetTail_tfxValid (s : State) : (s.forgetTail).tfxValid = s.tfxValid := rfl
@[simp] theorem forgetTail_spxValid (s : State) : (s.forgetTail).spxValid = s.spxValid := rfl
@[simp] theorem forgetTail_phase (s : State) : (s.forgetTail).phase = s.phase := rfl
@[simp] theorem forgetTail_cfg (s : State) : (s.forgetTail).cfg = s.cfg := rfl
@[simp] theorem forgetTail_errcode (s : State) : (s.forgetTail).errcode = s.errcode := rfl
@[simp] theorem forgetTail_errcmd (s : State) : (s.forgetTail).errcmd = s.errcmd := rfl
@[simp] theorem forgetTail_keylen (s : State) : (s.forgetTail).keylen = s.keylen := rfl
@[simp] theorem forgetTail_dlen (s : State) : (s.forgetTail).dlen = s.dlen := rfl
@[simp] theorem forgetTail_cur (s : State) : (s.forgetTail).cur = s.cur := rfl
@[simp] theorem forgetTail_rem (s : State) : (s.forgetTail).rem = s.rem := rfl
@[simp] theorem forgetTail_key (s : State) : (s.forgetTail).key = s.key := rfl
@[simp] theorem forgetTail_wkey (s : State) : (s.forgetTail).wkey = s.wkey := rfl
@[simp] theorem forgetTail_wklen (s : State) : (s.forgetTail).wklen = s.wklen := rfl
@[simp] theorem forgetTail_dbuf (s : State) : (s.forgetTail).dbuf = Memory.forgetFrom s.dbuf s.dlen.toNat := rfl
@[simp] theorem forgetTail_ivreg (s : State) : (s.forgetTail).ivreg = s.ivreg := rfl
@[simp] theorem forgetTail_tfK (s : State) : (s.forgetTail).tfK = s.tfK := rfl
@[simp] theorem forgetTail_tfM (s : State) : (s.forgetTail).tfM = s.tfM := rfl
@[simp] theorem forgetTail_spK (s : State) : (s.forgetTail).spK = s.spK := rfl
@[simp] theorem forgetTail_draws (s : State) : (s.forgetTail).draws = s.draws := rfl
@[simp] theorem forgetTail_host (s : State) : (s.forgetTail).host = s.host := rfl
@[simp] theorem forgetTail_busRead (s : State) : (s.forgetTail).busRead = s.busRead := rfl

@[simp] theorem nextDraw_err (s : State) : (s.nextDraw).err = s.err := rfl
@[simp] theorem nextDraw_cfgValid (s : State) : (s.nextDraw).cfgValid = s.cfgValid := rfl
@[simp] theorem nextDraw_keyValid (s : State) : (s.nextDraw).keyValid = s.keyValid := rfl
@[simp] theorem nextDraw_dataValid (s : State) : (s.nextDraw).dataValid = s.dataValid := rfl
@[simp] theorem nextDraw_wkeyValid (s : State) : (s.nextDraw).wkeyValid = s.wkeyValid := rfl
@[simp] theorem nextDraw_tfxValid (s : State) : (s.nextDraw).tfxValid = s.tfxValid := rfl
@[simp] theorem nextDraw_spxValid (s : State) : (s.nextDraw).spxValid = s.spxValid := rfl
@[simp] theorem nextDraw_phase (s : State) : (s.nextDraw).phase = s.phase := rfl
@[simp] theorem nextDraw_cfg (s : State) : (s.nextDraw).cfg = s.cfg := rfl
@[simp] theorem nextDraw_errcode (s : State) : (s.nextDraw).errcode = s.errcode := rfl
@[simp] theorem nextDraw_errcmd (s : State) : (s.nextDraw).errcmd = s.errcmd := rfl
@[simp] theorem nextDraw_keylen (s : State) : (s.nextDraw).keylen = s.keylen := rfl
@[simp] theorem nextDraw_dlen (s : State) : (s.nextDraw).dlen = s.dlen := rfl
@[simp] theorem nextDraw_cur (s : State) : (s.nextDraw).cur = s.cur := rfl
@[simp] theorem nextDraw_rem (s : State) : (s.nextDraw).rem = s.rem := rfl
@[simp] theorem nextDraw_key (s : State) : (s.nextDraw).key = s.key := rfl
@[simp] theorem nextDraw_wkey (s : State) : (s.nextDraw).wkey = s.wkey := rfl
@[simp] theorem nextDraw_wklen (s : State) : (s.nextDraw).wklen = s.wklen := rfl
@[simp] theorem nextDraw_dbuf (s : State) : (s.nextDraw).dbuf = s.dbuf := rfl
@[simp] theorem nextDraw_ivreg (s : State) : (s.nextDraw).ivreg = s.ivreg := rfl
@[simp] theorem nextDraw_tfK (s : State) : (s.nextDraw).tfK = s.tfK := rfl
@[simp] theorem nextDraw_tfM (s : State) : (s.nextDraw).tfM = s.tfM := rfl
@[simp] theorem nextDraw_spK (s : State) : (s.nextDraw).spK = s.spK := rfl
@[simp] theorem nextDraw_draws (s : State) : (s.nextDraw).draws = s.draws + 1 := rfl
@[simp] theorem nextDraw_host (s : State) : (s.nextDraw).host = s.host := rfl
@[simp] theorem nextDraw_busRead (s : State) : (s.nextDraw).busRead = s.busRead := rfl

@[simp] theorem blockUpdate_err (f : Block → Block) (o : Nat) (s : State) : (s.blockUpdate f o).err = s.err := rfl
@[simp] theorem blockUpdate_cfgValid (f : Block → Block) (o : Nat) (s : State) : (s.blockUpdate f o).cfgValid = s.cfgValid := rfl
@[simp] theorem blockUpdate_keyValid (f : Block → Block) (o : Nat) (s : State) : (s.blockUpdate f o).keyValid = s.keyValid := rfl
@[simp] theorem blockUpdate_dataValid (f : Block → Block) (o : Nat) (s : State) : (s.blockUpdate f o).dataValid = s.dataValid := rfl
@[simp] theorem blockUpdate_wkeyValid (f : Block → Block) (o : Nat) (s : State) : (s.blockUpdate f o).wkeyValid = s.wkeyValid := rfl
@[simp] theorem blockUpdate_tfxValid (f : Block → Block) (o : Nat) (s : State) : (s.blockUpdate f o).tfxValid = s.tfxValid := rfl
@[simp] theorem blockUpdate_spxValid (f : Block → Block) (o : Nat) (s : State) : (s.blockUpdate f o).spxValid = s.spxValid := rfl
@[simp] theorem blockUpdate_phase (f : Block → Block) (o : Nat) (s : State) : (s.blockUpdate f o).phase = s.phase := rfl
@[simp] theorem blockUpdate_cfg (f : Block → Block) (o : Nat) (s : State) : (s.blockUpdate f o).cfg = s.cfg := rfl
@[simp] theorem blockUpdate_errcode (f : Block → Block) (o : Nat) (s : State) : (s.blockUpdate f o).errcode = s.errcode := rfl
@[simp] theorem blockUpdate_errcmd (f : Block → Block) (o : Nat) (s : State) : (s.blockUpdate f o).errcmd = s.errcmd := rfl
@[simp] theorem blockUpdate_keylen (f : Block → Block) (o : Nat) (s : State) : (s.blockUpdate f o).keylen = s.keylen := rfl
@[simp] theorem blockUpdate_dlen (f : Block → Block) (o : Nat) (s : State) : (s.blockUpdate f o).dlen = s.dlen := rfl
@[simp] theorem blockUpdate_cur (f : Block → Block) (o : Nat) (s : State) : (s.blockUpdate f o).cur = s.cur := rfl
@[simp] theorem blockUpdate_rem (f : Block → Block) (o : Nat) (s : State) : (s.blockUpdate f o).rem = s.rem := rfl
@[simp] theorem blockUpdate_key (f : Block → Block) (o : Nat) (s : State) : (s.blockUpdate f o).key = s.key := rfl
@[simp] theorem blockUpdate_wkey (f : Block → Block) (o : Nat) (s : State) : (s.blockUpdate f o).wkey = s.wkey := rfl
@[simp] theorem blockUpdate_wklen (f : Block → Block) (o : Nat) (s : State) : (s.blockUpdate f o).wklen = s.wklen := rfl
@[simp] theorem blockUpdate_dbuf (f : Block → Block) (o : Nat) (s : State) : (s.blockUpdate f o).dbuf = Memory.writeList s.dbuf o (f (s.readBlock o)).toList := rfl
@[simp] theorem blockUpdate_ivreg (f : Block → Block) (o : Nat) (s : State) : (s.blockUpdate f o).ivreg = s.ivreg := rfl
@[simp] theorem blockUpdate_tfK (f : Block → Block) (o : Nat) (s : State) : (s.blockUpdate f o).tfK = s.tfK := rfl
@[simp] theorem blockUpdate_tfM (f : Block → Block) (o : Nat) (s : State) : (s.blockUpdate f o).tfM = s.tfM := rfl
@[simp] theorem blockUpdate_spK (f : Block → Block) (o : Nat) (s : State) : (s.blockUpdate f o).spK = s.spK := rfl
@[simp] theorem blockUpdate_draws (f : Block → Block) (o : Nat) (s : State) : (s.blockUpdate f o).draws = s.draws + 1 := rfl
@[simp] theorem blockUpdate_host (f : Block → Block) (o : Nat) (s : State) : (s.blockUpdate f o).host = s.host := rfl
@[simp] theorem blockUpdate_busRead (f : Block → Block) (o : Nat) (s : State) : (s.blockUpdate f o).busRead = s.busRead := rfl

@[simp] theorem recordError_err (c : Cause) (w : Word) (s : State) : (s.recordError c w).err = true := rfl
@[simp] theorem recordError_cfgValid (c : Cause) (w : Word) (s : State) : (s.recordError c w).cfgValid = s.cfgValid := rfl
@[simp] theorem recordError_keyValid (c : Cause) (w : Word) (s : State) : (s.recordError c w).keyValid = s.keyValid := rfl
@[simp] theorem recordError_dataValid (c : Cause) (w : Word) (s : State) : (s.recordError c w).dataValid = s.dataValid := rfl
@[simp] theorem recordError_wkeyValid (c : Cause) (w : Word) (s : State) : (s.recordError c w).wkeyValid = s.wkeyValid := rfl
@[simp] theorem recordError_tfxValid (c : Cause) (w : Word) (s : State) : (s.recordError c w).tfxValid = s.tfxValid := rfl
@[simp] theorem recordError_spxValid (c : Cause) (w : Word) (s : State) : (s.recordError c w).spxValid = s.spxValid := rfl
@[simp] theorem recordError_phase (c : Cause) (w : Word) (s : State) : (s.recordError c w).phase = s.phase := rfl
@[simp] theorem recordError_cfg (c : Cause) (w : Word) (s : State) : (s.recordError c w).cfg = s.cfg := rfl
@[simp] theorem recordError_errcode (c : Cause) (w : Word) (s : State) : (s.recordError c w).errcode = errcodeOf c := rfl
@[simp] theorem recordError_errcmd (c : Cause) (w : Word) (s : State) : (s.recordError c w).errcmd = w := rfl
@[simp] theorem recordError_keylen (c : Cause) (w : Word) (s : State) : (s.recordError c w).keylen = s.keylen := rfl
@[simp] theorem recordError_dlen (c : Cause) (w : Word) (s : State) : (s.recordError c w).dlen = s.dlen := rfl
@[simp] theorem recordError_cur (c : Cause) (w : Word) (s : State) : (s.recordError c w).cur = s.cur := rfl
@[simp] theorem recordError_rem (c : Cause) (w : Word) (s : State) : (s.recordError c w).rem = s.rem := rfl
@[simp] theorem recordError_key (c : Cause) (w : Word) (s : State) : (s.recordError c w).key = s.key := rfl
@[simp] theorem recordError_wkey (c : Cause) (w : Word) (s : State) : (s.recordError c w).wkey = s.wkey := rfl
@[simp] theorem recordError_wklen (c : Cause) (w : Word) (s : State) : (s.recordError c w).wklen = s.wklen := rfl
@[simp] theorem recordError_dbuf (c : Cause) (w : Word) (s : State) : (s.recordError c w).dbuf = s.dbuf := rfl
@[simp] theorem recordError_ivreg (c : Cause) (w : Word) (s : State) : (s.recordError c w).ivreg = s.ivreg := rfl
@[simp] theorem recordError_tfK (c : Cause) (w : Word) (s : State) : (s.recordError c w).tfK = s.tfK := rfl
@[simp] theorem recordError_tfM (c : Cause) (w : Word) (s : State) : (s.recordError c w).tfM = s.tfM := rfl
@[simp] theorem recordError_spK (c : Cause) (w : Word) (s : State) : (s.recordError c w).spK = s.spK := rfl
@[simp] theorem recordError_draws (c : Cause) (w : Word) (s : State) : (s.recordError c w).draws = s.draws := rfl
@[simp] theorem recordError_host (c : Cause) (w : Word) (s : State) : (s.recordError c w).host = s.host := rfl
@[simp] theorem recordError_busRead (c : Cause) (w : Word) (s : State) : (s.recordError c w).busRead = s.busRead := rfl

@[simp] theorem acknowledge_err (s : State) : (s.acknowledge).err = false := rfl
@[simp] theorem acknowledge_cfgValid (s : State) : (s.acknowledge).cfgValid = s.cfgValid := rfl
@[simp] theorem acknowledge_keyValid (s : State) : (s.acknowledge).keyValid = s.keyValid := rfl
@[simp] theorem acknowledge_dataValid (s : State) : (s.acknowledge).dataValid = s.dataValid := rfl
@[simp] theorem acknowledge_wkeyValid (s : State) : (s.acknowledge).wkeyValid = s.wkeyValid := rfl
@[simp] theorem acknowledge_tfxValid (s : State) : (s.acknowledge).tfxValid = s.tfxValid := rfl
@[simp] theorem acknowledge_spxValid (s : State) : (s.acknowledge).spxValid = s.spxValid := rfl
@[simp] theorem acknowledge_phase (s : State) : (s.acknowledge).phase = s.phase := rfl
@[simp] theorem acknowledge_cfg (s : State) : (s.acknowledge).cfg = s.cfg := rfl
@[simp] theorem acknowledge_errcode (s : State) : (s.acknowledge).errcode = 0 := rfl
@[simp] theorem acknowledge_errcmd (s : State) : (s.acknowledge).errcmd = 0 := rfl
@[simp] theorem acknowledge_keylen (s : State) : (s.acknowledge).keylen = s.keylen := rfl
@[simp] theorem acknowledge_dlen (s : State) : (s.acknowledge).dlen = s.dlen := rfl
@[simp] theorem acknowledge_cur (s : State) : (s.acknowledge).cur = s.cur := rfl
@[simp] theorem acknowledge_rem (s : State) : (s.acknowledge).rem = s.rem := rfl
@[simp] theorem acknowledge_key (s : State) : (s.acknowledge).key = s.key := rfl
@[simp] theorem acknowledge_wkey (s : State) : (s.acknowledge).wkey = s.wkey := rfl
@[simp] theorem acknowledge_wklen (s : State) : (s.acknowledge).wklen = s.wklen := rfl
@[simp] theorem acknowledge_dbuf (s : State) : (s.acknowledge).dbuf = s.dbuf := rfl
@[simp] theorem acknowledge_ivreg (s : State) : (s.acknowledge).ivreg = s.ivreg := rfl
@[simp] theorem acknowledge_tfK (s : State) : (s.acknowledge).tfK = s.tfK := rfl
@[simp] theorem acknowledge_tfM (s : State) : (s.acknowledge).tfM = s.tfM := rfl
@[simp] theorem acknowledge_spK (s : State) : (s.acknowledge).spK = s.spK := rfl
@[simp] theorem acknowledge_draws (s : State) : (s.acknowledge).draws = s.draws := rfl
@[simp] theorem acknowledge_host (s : State) : (s.acknowledge).host = s.host := rfl
@[simp] theorem acknowledge_busRead (s : State) : (s.acknowledge).busRead = s.busRead := rfl

@[simp] theorem answer_err (v : Word) (s : State) : (s.answer v).err = s.err := rfl
@[simp] theorem answer_cfgValid (v : Word) (s : State) : (s.answer v).cfgValid = s.cfgValid := rfl
@[simp] theorem answer_keyValid (v : Word) (s : State) : (s.answer v).keyValid = s.keyValid := rfl
@[simp] theorem answer_dataValid (v : Word) (s : State) : (s.answer v).dataValid = s.dataValid := rfl
@[simp] theorem answer_wkeyValid (v : Word) (s : State) : (s.answer v).wkeyValid = s.wkeyValid := rfl
@[simp] theorem answer_tfxValid (v : Word) (s : State) : (s.answer v).tfxValid = s.tfxValid := rfl
@[simp] theorem answer_spxValid (v : Word) (s : State) : (s.answer v).spxValid = s.spxValid := rfl
@[simp] theorem answer_phase (v : Word) (s : State) : (s.answer v).phase = s.phase := rfl
@[simp] theorem answer_cfg (v : Word) (s : State) : (s.answer v).cfg = s.cfg := rfl
@[simp] theorem answer_errcode (v : Word) (s : State) : (s.answer v).errcode = s.errcode := rfl
@[simp] theorem answer_errcmd (v : Word) (s : State) : (s.answer v).errcmd = s.errcmd := rfl
@[simp] theorem answer_keylen (v : Word) (s : State) : (s.answer v).keylen = s.keylen := rfl
@[simp] theorem answer_dlen (v : Word) (s : State) : (s.answer v).dlen = s.dlen := rfl
@[simp] theorem answer_cur (v : Word) (s : State) : (s.answer v).cur = s.cur := rfl
@[simp] theorem answer_rem (v : Word) (s : State) : (s.answer v).rem = s.rem := rfl
@[simp] theorem answer_key (v : Word) (s : State) : (s.answer v).key = s.key := rfl
@[simp] theorem answer_wkey (v : Word) (s : State) : (s.answer v).wkey = s.wkey := rfl
@[simp] theorem answer_wklen (v : Word) (s : State) : (s.answer v).wklen = s.wklen := rfl
@[simp] theorem answer_dbuf (v : Word) (s : State) : (s.answer v).dbuf = s.dbuf := rfl
@[simp] theorem answer_ivreg (v : Word) (s : State) : (s.answer v).ivreg = s.ivreg := rfl
@[simp] theorem answer_tfK (v : Word) (s : State) : (s.answer v).tfK = s.tfK := rfl
@[simp] theorem answer_tfM (v : Word) (s : State) : (s.answer v).tfM = s.tfM := rfl
@[simp] theorem answer_spK (v : Word) (s : State) : (s.answer v).spK = s.spK := rfl
@[simp] theorem answer_draws (v : Word) (s : State) : (s.answer v).draws = s.draws := rfl
@[simp] theorem answer_host (v : Word) (s : State) : (s.answer v).host = s.host := rfl
@[simp] theorem answer_busRead (v : Word) (s : State) : (s.answer v).busRead = v := rfl

@[simp] theorem tfKeyxAct_err (s : State) : (tfKeyxAct s).err = s.err := rfl
@[simp] theorem tfKeyxAct_cfgValid (s : State) : (tfKeyxAct s).cfgValid = s.cfgValid := rfl
@[simp] theorem tfKeyxAct_keyValid (s : State) : (tfKeyxAct s).keyValid = s.keyValid := rfl
@[simp] theorem tfKeyxAct_dataValid (s : State) : (tfKeyxAct s).dataValid = s.dataValid := rfl
@[simp] theorem tfKeyxAct_wkeyValid (s : State) : (tfKeyxAct s).wkeyValid = s.wkeyValid := rfl
@[simp] theorem tfKeyxAct_tfxValid (s : State) : (tfKeyxAct s).tfxValid = true := rfl
@[simp] theorem tfKeyxAct_spxValid (s : State) : (tfKeyxAct s).spxValid = s.spxValid := rfl
@[simp] theorem tfKeyxAct_phase (s : State) : (tfKeyxAct s).phase = s.phase := rfl
@[simp] theorem tfKeyxAct_cfg (s : State) : (tfKeyxAct s).cfg = s.cfg := rfl
@[simp] theorem tfKeyxAct_errcode (s : State) : (tfKeyxAct s).errcode = s.errcode := rfl
@[simp] theorem tfKeyxAct_errcmd (s : State) : (tfKeyxAct s).errcmd = s.errcmd := rfl
@[simp] theorem tfKeyxAct_keylen (s : State) : (tfKeyxAct s).keylen = s.keylen := rfl
@[simp] theorem tfKeyxAct_dlen (s : State) : (tfKeyxAct s).dlen = s.dlen := rfl
@[simp] theorem tfKeyxAct_cur (s : State) : (tfKeyxAct s).cur = s.cur := rfl
@[simp] theorem tfKeyxAct_rem (s : State) : (tfKeyxAct s).rem = s.rem := rfl
@[simp] theorem tfKeyxAct_key (s : State) : (tfKeyxAct s).key = s.key := rfl
@[simp] theorem tfKeyxAct_wkey (s : State) : (tfKeyxAct s).wkey = s.wkey := rfl
@[simp] theorem tfKeyxAct_wklen (s : State) : (tfKeyxAct s).wklen = s.wklen := rfl
@[simp] theorem tfKeyxAct_dbuf (s : State) : (tfKeyxAct s).dbuf = s.dbuf := rfl
@[simp] theorem tfKeyxAct_ivreg (s : State) : (tfKeyxAct s).ivreg = s.ivreg := rfl
@[simp] theorem tfKeyxAct_tfK (s : State) : (tfKeyxAct s).tfK = tfScheduleK s.wklen s.wkey := rfl
@[simp] theorem tfKeyxAct_tfM (s : State) : (tfKeyxAct s).tfM = tfScheduleM s.wklen s.wkey := rfl
@[simp] theorem tfKeyxAct_spK (s : State) : (tfKeyxAct s).spK = s.spK := rfl
@[simp] theorem tfKeyxAct_draws (s : State) : (tfKeyxAct s).draws = s.draws := rfl
@[simp] theorem tfKeyxAct_host (s : State) : (tfKeyxAct s).host = s.host := rfl
@[simp] theorem tfKeyxAct_busRead (s : State) : (tfKeyxAct s).busRead = s.busRead := rfl

@[simp] theorem tfCloseAct_err (s : State) : (tfCloseAct s).err = s.err := rfl
@[simp] theorem tfCloseAct_cfgValid (s : State) : (tfCloseAct s).cfgValid = s.cfgValid := rfl
@[simp] theorem tfCloseAct_keyValid (s : State) : (tfCloseAct s).keyValid = s.keyValid := rfl
@[simp] theorem tfCloseAct_dataValid (s : State) : (tfCloseAct s).dataValid = s.dataValid := rfl
@[simp] theorem tfCloseAct_wkeyValid (s : State) : (tfCloseAct s).wkeyValid = s.wkeyValid := rfl
@[simp] theorem tfCloseAct_tfxValid (s : State) : (tfCloseAct s).tfxValid = false := rfl
@[simp] theorem tfCloseAct_spxValid (s : State) : (tfCloseAct s).spxValid = s.spxValid := rfl
@[simp] theorem tfCloseAct_phase (s : State) : (tfCloseAct s).phase = s.phase := rfl
@[simp] theorem tfCloseAct_cfg (s : State) : (tfCloseAct s).cfg = s.cfg := rfl
@[simp] theorem tfCloseAct_errcode (s : State) : (tfCloseAct s).errcode = s.errcode := rfl
@[simp] theorem tfCloseAct_errcmd (s : State) : (tfCloseAct s).errcmd = s.errcmd := rfl
@[simp] theorem tfCloseAct_keylen (s : State) : (tfCloseAct s).keylen = s.keylen := rfl
@[simp] theorem tfCloseAct_dlen (s : State) : (tfCloseAct s).dlen = s.dlen := rfl
@[simp] theorem tfCloseAct_cur (s : State) : (tfCloseAct s).cur = s.cur := rfl
@[simp] theorem tfCloseAct_rem (s : State) : (tfCloseAct s).rem = s.rem := rfl
@[simp] theorem tfCloseAct_key (s : State) : (tfCloseAct s).key = s.key := rfl
@[simp] theorem tfCloseAct_wkey (s : State) : (tfCloseAct s).wkey = s.wkey := rfl
@[simp] theorem tfCloseAct_wklen (s : State) : (tfCloseAct s).wklen = s.wklen := rfl
@[simp] theorem tfCloseAct_dbuf (s : State) : (tfCloseAct s).dbuf = s.dbuf := rfl
@[simp] theorem tfCloseAct_ivreg (s : State) : (tfCloseAct s).ivreg = s.ivreg := rfl
@[simp] theorem tfCloseAct_tfK (s : State) : (tfCloseAct s).tfK = freeTfK s.draws := rfl
@[simp] theorem tfCloseAct_tfM (s : State) : (tfCloseAct s).tfM = freeTfM s.draws := rfl
@[simp] theorem tfCloseAct_spK (s : State) : (tfCloseAct s).spK = s.spK := rfl
@[simp] theorem tfCloseAct_draws (s : State) : (tfCloseAct s).draws = s.draws + 1 := rfl
@[simp] theorem tfCloseAct_host (s : State) : (tfCloseAct s).host = s.host := rfl
@[simp] theorem tfCloseAct_busRead (s : State) : (tfCloseAct s).busRead = s.busRead := rfl

@[simp] theorem spKeyxAct_err (s : State) : (spKeyxAct s).err = s.err := rfl
@[simp] theorem spKeyxAct_cfgValid (s : State) : (spKeyxAct s).cfgValid = s.cfgValid := rfl
@[simp] theorem spKeyxAct_keyValid (s : State) : (spKeyxAct s).keyValid = s.keyValid := rfl
@[simp] theorem spKeyxAct_dataValid (s : State) : (spKeyxAct s).dataValid = s.dataValid := rfl
@[simp] theorem spKeyxAct_wkeyValid (s : State) : (spKeyxAct s).wkeyValid = s.wkeyValid := rfl
@[simp] theorem spKeyxAct_tfxValid (s : State) : (spKeyxAct s).tfxValid = s.tfxValid := rfl
@[simp] theorem spKeyxAct_spxValid (s : State) : (spKeyxAct s).spxValid = true := rfl
@[simp] theorem spKeyxAct_phase (s : State) : (spKeyxAct s).phase = s.phase := rfl
@[simp] theorem spKeyxAct_cfg (s : State) : (spKeyxAct s).cfg = s.cfg := rfl
@[simp] theorem spKeyxAct_errcode (s : State) : (spKeyxAct s).errcode = s.errcode := rfl
@[simp] theorem spKeyxAct_errcmd (s : State) : (spKeyxAct s).errcmd = s.errcmd := rfl
@[simp] theorem spKeyxAct_keylen (s : State) : (spKeyxAct s).keylen = s.keylen := rfl
@[simp] theorem spKeyxAct_dlen (s : State) : (spKeyxAct s).dlen = s.dlen := rfl
@[simp] theorem spKeyxAct_cur (s : State) : (spKeyxAct s).cur = s.cur := rfl
@[simp] theorem spKeyxAct_rem (s : State) : (spKeyxAct s).rem = s.rem := rfl
@[simp] theorem spKeyxAct_key (s : State) : (spKeyxAct s).key = s.key := rfl
@[simp] theorem spKeyxAct_wkey (s : State) : (spKeyxAct s).wkey = spNormalize s.wklen s.wkey := rfl
@[simp] theorem spKeyxAct_wklen (s : State) : (spKeyxAct s).wklen = 32 := rfl
@[simp] theorem spKeyxAct_dbuf (s : State) : (spKeyxAct s).dbuf = s.dbuf := rfl
@[simp] theorem spKeyxAct_ivreg (s : State) : (spKeyxAct s).ivreg = s.ivreg := rfl
@[simp] theorem spKeyxAct_tfK (s : State) : (spKeyxAct s).tfK = s.tfK := rfl
@[simp] theorem spKeyxAct_tfM (s : State) : (spKeyxAct s).tfM = s.tfM := rfl
@[simp] theorem spKeyxAct_spK (s : State) : (spKeyxAct s).spK = spSchedule (spNormalize s.wklen s.wkey) := rfl
@[simp] theorem spKeyxAct_draws (s : State) : (spKeyxAct s).draws = s.draws := rfl
@[simp] theorem spKeyxAct_host (s : State) : (spKeyxAct s).host = s.host := rfl
@[simp] theorem spKeyxAct_busRead (s : State) : (spKeyxAct s).busRead = s.busRead := rfl

@[simp] theorem spCloseAct_err (s : State) : (spCloseAct s).err = s.err := rfl
@[simp] theorem spCloseAct_cfgValid (s : State) : (spCloseAct s).cfgValid = s.cfgValid := rfl
@[simp] theorem spCloseAct_keyValid (s : State) : (spCloseAct s).keyValid = s.keyValid := rfl
@[simp] theorem spCloseAct_dataValid (s : State) : (spCloseAct s).dataValid = s.dataValid := rfl
@[simp] theorem spCloseAct_wkeyValid (s : State) : (spCloseAct s).wkeyValid = s.wkeyValid := rfl
@[simp] theorem spCloseAct_tfxValid (s : State) : (spCloseAct s).tfxValid = s.tfxValid := rfl
@[simp] theorem spCloseAct_spxValid (s : State) : (spCloseAct s).spxValid = false := rfl
@[simp] theorem spCloseAct_phase (s : State) : (spCloseAct s).phase = s.phase := rfl
@[simp] theorem spCloseAct_cfg (s : State) : (spCloseAct s).cfg = s.cfg := rfl
@[simp] theorem spCloseAct_errcode (s : State) : (spCloseAct s).errcode = s.errcode := rfl
@[simp] theorem spCloseAct_errcmd (s : State) : (spCloseAct s).errcmd = s.errcmd := rfl
@[simp] theorem spCloseAct_keylen (s : State) : (spCloseAct s).keylen = s.keylen := rfl
@[simp] theorem spCloseAct_dlen (s : State) : (spCloseAct s).dlen = s.dlen := rfl
@[simp] theorem spCloseAct_cur (s : State) : (spCloseAct s).cur = s.cur := rfl
@[simp] theorem spCloseAct_rem (s : State) : (spCloseAct s).rem = s.rem := rfl
@[simp] theorem spCloseAct_key (s : State) : (spCloseAct s).key = s.key := rfl
@[simp] theorem spCloseAct_wkey (s : State) : (spCloseAct s).wkey = s.wkey := rfl
@[simp] theorem spCloseAct_wklen (s : State) : (spCloseAct s).wklen = s.wklen := rfl
@[simp] theorem spCloseAct_dbuf (s : State) : (spCloseAct s).dbuf = s.dbuf := rfl
@[simp] theorem spCloseAct_ivreg (s : State) : (spCloseAct s).ivreg = s.ivreg := rfl
@[simp] theorem spCloseAct_tfK (s : State) : (spCloseAct s).tfK = s.tfK := rfl
@[simp] theorem spCloseAct_tfM (s : State) : (spCloseAct s).tfM = s.tfM := rfl
@[simp] theorem spCloseAct_spK (s : State) : (spCloseAct s).spK = freeSpK s.draws := rfl
@[simp] theorem spCloseAct_draws (s : State) : (spCloseAct s).draws = s.draws + 1 := rfl
@[simp] theorem spCloseAct_host (s : State) : (spCloseAct s).host = s.host := rfl
@[simp] theorem spCloseAct_busRead (s : State) : (spCloseAct s).busRead = s.busRead := rfl

@[simp] theorem keyCloneAct_err (s : State) : (keyCloneAct s).err = s.err := rfl
@[simp] theorem keyCloneAct_cfgValid (s : State) : (keyCloneAct s).cfgValid = s.cfgValid := rfl
@[simp] theorem keyCloneAct_keyValid (s : State) : (keyCloneAct s).keyValid = s.keyValid := rfl
@[simp] theorem keyCloneAct_dataValid (s : State) : (keyCloneAct s).dataValid = s.dataValid := rfl
@[simp] theorem keyCloneAct_wkeyValid (s : State) : (keyCloneAct s).wkeyValid = true := rfl
@[simp] theorem keyCloneAct_tfxValid (s : State) : (keyCloneAct s).tfxValid = s.tfxValid := rfl
@[simp] theorem keyCloneAct_spxValid (s : State) : (keyCloneAct s).spxValid = s.spxValid := rfl
@[simp] theorem keyCloneAct_phase (s : State) : (keyCloneAct s).phase = s.phase := rfl
@[simp] theorem keyCloneAct_cfg (s : State) : (keyCloneAct s).cfg = s.cfg := rfl
@[simp] theorem keyCloneAct_errcode (s : State) : (keyCloneAct s).errcode = s.errcode := rfl
@[simp] theorem keyCloneAct_errcmd (s : State) : (keyCloneAct s).errcmd = s.errcmd := rfl
@[simp] theorem keyCloneAct_keylen (s : State) : (keyCloneAct s).keylen = s.keylen := rfl
@[simp] theorem keyCloneAct_dlen (s : State) : (keyCloneAct s).dlen = s.dlen := rfl
@[simp] theorem keyCloneAct_cur (s : State) : (keyCloneAct s).cur = s.cur := rfl
@[simp] theorem keyCloneAct_rem (s : State) : (keyCloneAct s).rem = s.rem := rfl
@[simp] theorem keyCloneAct_key (s : State) : (keyCloneAct s).key = s.key := rfl
@[simp] theorem keyCloneAct_wkey (s : State) : (keyCloneAct s).wkey = table 32 fun i => if i < s.keylen.toNat then s.key.getD i 0 else Config.freeByte .wkey s.draws i := rfl
@[simp] theorem keyCloneAct_wklen (s : State) : (keyCloneAct s).wklen = s.keylen.toNat := rfl
@[simp] theorem keyCloneAct_dbuf (s : State) : (keyCloneAct s).dbuf = s.dbuf := rfl
@[simp] theorem keyCloneAct_ivreg (s : State) : (keyCloneAct s).ivreg = s.ivreg := rfl
@[simp] theorem keyCloneAct_tfK (s : State) : (keyCloneAct s).tfK = s.tfK := rfl
@[simp] theorem keyCloneAct_tfM (s : State) : (keyCloneAct s).tfM = s.tfM := rfl
@[simp] theorem keyCloneAct_spK (s : State) : (keyCloneAct s).spK = s.spK := rfl
@[simp] theorem keyCloneAct_draws (s : State) : (keyCloneAct s).draws = s.draws + 1 := rfl
@[simp] theorem keyCloneAct_host (s : State) : (keyCloneAct s).host = s.host := rfl
@[simp] theorem keyCloneAct_busRead (s : State) : (keyCloneAct s).busRead = s.busRead := rfl

@[simp] theorem sessCreateAct_err (w : Word) (s : State) : (sessCreateAct w s).err = s.err := rfl
@[simp] theorem sessCreateAct_cfgValid (w : Word) (s : State) : (sessCreateAct w s).cfgValid = true := rfl
@[simp] theorem sessCreateAct_keyValid (w : Word) (s : State) : (sessCreateAct w s).keyValid = s.keyValid := rfl
@[simp] theorem sessCreateAct_dataValid (w : Word) (s : State) : (sessCreateAct w s).dataValid = s.dataValid := rfl
@[simp] theorem sessCreateAct_wkeyValid (w : Word) (s : State) : (sessCreateAct w s).wkeyValid = s.wkeyValid := rfl
@[simp] theorem sessCreateAct_tfxValid (w : Word) (s : State) : (sessCreateAct w s).tfxValid = s.tfxValid := rfl
@[simp] theorem sessCreateAct_spxValid (w : Word) (s : State) : (sessCreateAct w s).spxValid = s.spxValid := rfl
@[simp] theorem sessCreateAct_phase (w : Word) (s : State) : (sessCreateAct w s).phase = .created := rfl
@[simp] theorem sessCreateAct_cfg (w : Word) (s : State) : (sessCreateAct w s).cfg = cfgOf w := rfl
@[simp] theorem sessCreateAct_errcode (w : Word) (s : State) : (sessCreateAct w s).errcode = s.errcode := rfl
@[simp] theorem sessCreateAct_errcmd (w : Word) (s : State) : (sessCreateAct w s).errcmd = s.errcmd := rfl
@[simp] theorem sessCreateAct_keylen (w : Word) (s : State) : (sessCreateAct w s).keylen = s.keylen := rfl
@[simp] theorem sessCreateAct_dlen (w : Word) (s : State) : (sessCreateAct w s).dlen = s.dlen := rfl
@[simp] theorem sessCreateAct_cur (w : Word) (s : State) : (sessCreateAct w s).cur = 0 := rfl
@[simp] theorem sessCreateAct_rem (w : Word) (s : State) : (sessCreateAct w s).rem = 0 := rfl
@[simp] theorem sessCreateAct_key (w : Word) (s : State) : (sessCreateAct w s).key = s.key := rfl
@[simp] theorem sessCreateAct_wkey (w : Word) (s : State) : (sessCreateAct w s).wkey = s.wkey := rfl
@[simp] theorem sessCreateAct_wklen (w : Word) (s : State) : (sessCreateAct w s).wklen = s.wklen := rfl
@[simp] theorem sessCreateAct_dbuf (w : Word) (s : State) : (sessCreateAct w s).dbuf = Memory.forgetFrom s.dbuf s.dlen.toNat := rfl
@[simp] theorem sessCreateAct_ivreg (w : Word) (s : State) : (sessCreateAct w s).ivreg = s.ivreg := rfl
@[simp] theorem sessCreateAct_tfK (w : Word) (s : State) : (sessCreateAct w s).tfK = s.tfK := rfl
@[simp] theorem sessCreateAct_tfM (w : Word) (s : State) : (sessCreateAct w s).tfM = s.tfM := rfl
@[simp] theorem sessCreateAct_spK (w : Word) (s : State) : (sessCreateAct w s).spK = s.spK := rfl
@[simp] theorem sessCreateAct_draws (w : Word) (s : State) : (sessCreateAct w s).draws = s.draws := rfl
@[simp] theorem sessCreateAct_host (w : Word) (s : State) : (sessCreateAct w s).host = s.host := rfl
@[simp] theorem sessCreateAct_busRead (w : Word) (s : State) : (sessCreateAct w s).busRead = s.busRead := rfl

@[simp] theorem openEncrypt_err (s : State) : (openEncrypt s).err = s.err := rfl
@[simp] theorem openEncrypt_cfgValid (s : State) : (openEncrypt s).cfgValid = s.cfgValid := rfl
@[simp] theorem openEncrypt_keyValid (s : State) : (openEncrypt s).keyValid = s.keyValid := rfl
@[simp] theorem openEncrypt_dataValid (s : State) : (openEncrypt s).dataValid = s.dataValid := rfl
@[simp] theorem openEncrypt_wkeyValid (s : State) : (openEncrypt s).wkeyValid = s.wkeyValid := rfl
@[simp] theorem openEncrypt_tfxValid (s : State) : (openEncrypt s).tfxValid = s.tfxValid := rfl
@[simp] theorem openEncrypt_spxValid (s : State) : (openEncrypt s).spxValid = s.spxValid := rfl
@[simp] theorem openEncrypt_phase (s : State) : (openEncrypt s).phase = .opened := rfl
@[simp] theorem openEncrypt_cfg (s : State) : (openEncrypt s).cfg = s.cfg := rfl
@[simp] theorem openEncrypt_errcode (s : State) : (openEncrypt s).errcode = s.errcode := rfl
@[simp] theorem openEncrypt_errcmd (s : State) : (openEncrypt s).errcmd = s.errcmd := rfl
@[simp] theorem openEncrypt_keylen (s : State) : (openEncrypt s).keylen = s.keylen := rfl
@[simp] theorem openEncrypt_dlen (s : State) : (openEncrypt s).dlen = s.dlen + 16 := rfl
@[simp] theorem openEncrypt_cur (s : State) : (openEncrypt s).cur = 16 := rfl
@[simp] theorem openEncrypt_rem (s : State) : (openEncrypt s).rem = s.dlen + 16 - 16 := rfl
@[simp] theorem openEncrypt_key (s : State) : (openEncrypt s).key = s.key := rfl
@[simp] theorem openEncrypt_wkey (s : State) : (openEncrypt s).wkey = s.wkey := rfl
@[simp] theorem openEncrypt_wklen (s : State) : (openEncrypt s).wklen = s.wklen := rfl
@[simp] theorem openEncrypt_dbuf (s : State) : (openEncrypt s).dbuf = Memory.writeList (Memory.shiftUp (Memory.forgetFrom s.dbuf s.dlen.toNat) 16) 0 (rndBlock s).toList := rfl
@[simp] theorem openEncrypt_ivreg (s : State) : (openEncrypt s).ivreg = rndBlock s := rfl
@[simp] theorem openEncrypt_tfK (s : State) : (openEncrypt s).tfK = s.tfK := rfl
@[simp] theorem openEncrypt_tfM (s : State) : (openEncrypt s).tfM = s.tfM := rfl
@[simp] theorem openEncrypt_spK (s : State) : (openEncrypt s).spK = s.spK := rfl
@[simp] theorem openEncrypt_draws (s : State) : (openEncrypt s).draws = s.draws + 1 := rfl
@[simp] theorem openEncrypt_host (s : State) : (openEncrypt s).host = s.host := rfl
@[simp] theorem openEncrypt_busRead (s : State) : (openEncrypt s).busRead = s.busRead := rfl

@[simp] theorem openDecrypt_err (s : State) : (openDecrypt s).err = s.err := rfl
@[simp] theorem openDecrypt_cfgValid (s : State) : (openDecrypt s).cfgValid = s.cfgValid := rfl
@[simp] theorem openDecrypt_keyValid (s : State) : (openDecrypt s).keyValid = s.keyValid := rfl
@[simp] theorem openDecrypt_dataValid (s : State) : (openDecrypt s).dataValid = s.dataValid := rfl
@[simp] theorem openDecrypt_wkeyValid (s : State) : (openDecrypt s).wkeyValid = s.wkeyValid := rfl
@[simp] theorem openDecrypt_tfxValid (s : State) : (openDecrypt s).tfxValid = s.tfxValid := rfl
@[simp] theorem openDecrypt_spxValid (s : State) : (openDecrypt s).spxValid = s.spxValid := rfl
@[simp] theorem openDecrypt_phase (s : State) : (openDecrypt s).phase = .opened := rfl
@[simp] theorem openDecrypt_cfg (s : State) : (openDecrypt s).cfg = s.cfg := rfl
@[simp] theorem openDecrypt_errcode (s : State) : (openDecrypt s).errcode = s.errcode := rfl
@[simp] theorem openDecrypt_errcmd (s : State) : (openDecrypt s).errcmd = s.errcmd := rfl
@[simp] theorem openDecrypt_keylen (s : State) : (openDecrypt s).keylen = s.keylen := rfl
@[simp] theorem openDecrypt_dlen (s : State) : (openDecrypt s).dlen = s.dlen := rfl
@[simp] theorem openDecrypt_cur (s : State) : (openDecrypt s).cur = 16 := rfl
@[simp] theorem openDecrypt_rem (s : State) : (openDecrypt s).rem = s.dlen - 16 := rfl
@[simp] theorem openDecrypt_key (s : State) : (openDecrypt s).key = s.key := rfl
@[simp] theorem openDecrypt_wkey (s : State) : (openDecrypt s).wkey = s.wkey := rfl
@[simp] theorem openDecrypt_wklen (s : State) : (openDecrypt s).wklen = s.wklen := rfl
@[simp] theorem openDecrypt_dbuf (s : State) : (openDecrypt s).dbuf = s.dbuf := rfl
@[simp] theorem openDecrypt_ivreg (s : State) : (openDecrypt s).ivreg = s.readBlock 0 := rfl
@[simp] theorem openDecrypt_tfK (s : State) : (openDecrypt s).tfK = s.tfK := rfl
@[simp] theorem openDecrypt_tfM (s : State) : (openDecrypt s).tfM = s.tfM := rfl
@[simp] theorem openDecrypt_spK (s : State) : (openDecrypt s).spK = s.spK := rfl
@[simp] theorem openDecrypt_draws (s : State) : (openDecrypt s).draws = s.draws + 1 := rfl
@[simp] theorem openDecrypt_host (s : State) : (openDecrypt s).host = s.host := rfl
@[simp] theorem openDecrypt_busRead (s : State) : (openDecrypt s).busRead = s.busRead := rfl

@[simp] theorem advance_err (s : State) : (advance s).err = s.err := rfl
@[simp] theorem advance_cfgValid (s : State) : (advance s).cfgValid = s.cfgValid := rfl
@[simp] theorem advance_keyValid (s : State) : (advance s).keyValid = s.keyValid := rfl
@[simp] theorem advance_dataValid (s : State) : (advance s).dataValid = s.dataValid := rfl
@[simp] theorem advance_wkeyValid (s : State) : (advance s).wkeyValid = s.wkeyValid := rfl
@[simp] theorem advance_tfxValid (s : State) : (advance s).tfxValid = s.tfxValid := rfl
@[simp] theorem advance_spxValid (s : State) : (advance s).spxValid = s.spxValid := rfl
@[simp] theorem advance_phase (s : State) : (advance s).phase = .stepping := rfl
@[simp] theorem advance_cfg (s : State) : (advance s).cfg = s.cfg := rfl
@[simp] theorem advance_errcode (s : State) : (advance s).errcode = s.errcode := rfl
@[simp] theorem advance_errcmd (s : State) : (advance s).errcmd = s.errcmd := rfl
@[simp] theorem advance_keylen (s : State) : (advance s).keylen = s.keylen := rfl
@[simp] theorem advance_dlen (s : State) : (advance s).dlen = s.dlen := rfl
@[simp] theorem advance_cur (s : State) : (advance s).cur = s.cur + 16 := rfl
@[simp] theorem advance_rem (s : State) : (advance s).rem = s.dlen - (s.cur + 16) := rfl
@[simp] theorem advance_key (s : State) : (advance s).key = s.key := rfl
@[simp] theorem advance_wkey (s : State) : (advance s).wkey = s.wkey := rfl
@[simp] theorem advance_wklen (s : State) : (advance s).wklen = s.wklen := rfl
@[simp] theorem advance_dbuf (s : State) : (advance s).dbuf = s.dbuf := rfl
@[simp] theorem advance_ivreg (s : State) : (advance s).ivreg = s.ivreg := rfl
@[simp] theorem advance_tfK (s : State) : (advance s).tfK = s.tfK := rfl
@[simp] theorem advance_tfM (s : State) : (advance s).tfM = s.tfM := rfl
@[simp] theorem advance_spK (s : State) : (advance s).spK = s.spK := rfl
@[simp] theorem advance_draws (s : State) : (advance s).draws = s.draws := rfl
@[simp] theorem advance_host (s : State) : (advance s).host = s.host := rfl
@[simp] theorem advance_busRead (s : State) : (advance s).busRead = s.busRead := rfl

@[simp] theorem stripIv_err (s : State) : (stripIv s).err = s.err := rfl
@[simp] theorem stripIv_cfgValid (s : State) : (stripIv s).cfgValid = s.cfgValid := rfl
@[simp] theorem stripIv_keyValid (s : State) : (stripIv s).keyValid = s.keyValid := rfl
@[simp] theorem stripIv_dataValid (s : State) : (stripIv s).dataValid = s.dataValid := rfl
@[simp] theorem stripIv_wkeyValid (s : State) : (stripIv s).wkeyValid = s.wkeyValid := rfl
@[simp] theorem stripIv_tfxValid (s : State) : (stripIv s).tfxValid = s.tfxValid := rfl
@[simp] theorem stripIv_spxValid (s : State) : (stripIv s).spxValid = s.spxValid := rfl
@[simp] theorem stripIv_phase (s : State) : (stripIv s).phase = s.phase := rfl
@[simp] theorem stripIv_cfg (s : State) : (stripIv s).cfg = s.cfg := rfl
@[simp] theorem stripIv_errcode (s : State) : (stripIv s).errcode = s.errcode := rfl
@[simp] theorem stripIv_errcmd (s : State) : (stripIv s).errcmd = s.errcmd := rfl
@[simp] theorem stripIv_keylen (s : State) : (stripIv s).keylen = s.keylen := rfl
@[simp] theorem stripIv_dlen (s : State) : (stripIv s).dlen = s.dlen - 16 := rfl
@[simp] theorem stripIv_cur (s : State) : (stripIv s).cur = s.cur := rfl
@[simp] theorem stripIv_rem (s : State) : (stripIv s).rem = s.rem := rfl
@[simp] theorem stripIv_key (s : State) : (stripIv s).key = s.key := rfl
@[simp] theorem stripIv_wkey (s : State) : (stripIv s).wkey = s.wkey := rfl
@[simp] theorem stripIv_wklen (s : State) : (stripIv s).wklen = s.wklen := rfl
@[simp] theorem stripIv_dbuf (s : State) : (stripIv s).dbuf = Memory.shiftDown (Memory.forgetFrom s.dbuf s.dlen.toNat) 16 := rfl
@[simp] theorem stripIv_ivreg (s : State) : (stripIv s).ivreg = s.ivreg := rfl
@[simp] theorem stripIv_tfK (s : State) : (stripIv s).tfK = s.tfK := rfl
@[simp] theorem stripIv_tfM (s : State) : (stripIv s).tfM = s.tfM := rfl
@[simp] theorem stripIv_spK (s : State) : (stripIv s).spK = s.spK := rfl
@[simp] theorem stripIv_draws (s : State) : (stripIv s).draws = s.draws := rfl
@[simp] theorem stripIv_host (s : State) : (stripIv s).host = s.host := rfl
@[simp] theorem stripIv_busRead (s : State) : (stripIv s).busRead = s.busRead := rfl

@[simp] theorem trimZeros_err (s : State) : (trimZeros s).err = s.err := rfl
@[simp] theorem trimZeros_cfgValid (s : State) : (trimZeros s).cfgValid = s.cfgValid := rfl
@[simp] theorem trimZeros_keyValid (s : State) : (trimZeros s).keyValid = s.keyValid := rfl
@[simp] theorem trimZeros_dataValid (s : State) : (trimZeros s).dataValid = s.dataValid := rfl
@[simp] theorem trimZeros_wkeyValid (s : State) : (trimZeros s).wkeyValid = s.wkeyValid := rfl
@[simp] theorem trimZeros_tfxValid (s : State) : (trimZeros s).tfxValid = s.tfxValid := rfl
@[simp] theorem trimZeros_spxValid (s : State) : (trimZeros s).spxValid = s.spxValid := rfl
@[simp] theorem trimZeros_phase (s : State) : (trimZeros s).phase = s.phase := rfl
@[simp] theorem trimZeros_cfg (s : State) : (trimZeros s).cfg = s.cfg := rfl
@[simp] theorem trimZeros_errcode (s : State) : (trimZeros s).errcode = s.errcode := rfl
@[simp] theorem trimZeros_errcmd (s : State) : (trimZeros s).errcmd = s.errcmd := rfl
@[simp] theorem trimZeros_keylen (s : State) : (trimZeros s).keylen = s.keylen := rfl
@[simp] theorem trimZeros_dlen (s : State) : (trimZeros s).dlen = BitVec.ofNat 32 (trimLen s.byteAt s.dlen.toNat) := rfl
@[simp] theorem trimZeros_cur (s : State) : (trimZeros s).cur = s.cur := rfl
@[simp] theorem trimZeros_rem (s : State) : (trimZeros s).rem = s.rem := rfl
@[simp] theorem trimZeros_key (s : State) : (trimZeros s).key = s.key := rfl
@[simp] theorem trimZeros_wkey (s : State) : (trimZeros s).wkey = s.wkey := rfl
@[simp] theorem trimZeros_wklen (s : State) : (trimZeros s).wklen = s.wklen := rfl
@[simp] theorem trimZeros_dbuf (s : State) : (trimZeros s).dbuf = Memory.forgetFrom s.dbuf (BitVec.ofNat 32 (trimLen s.byteAt s.dlen.toNat)).toNat := rfl
@[simp] theorem trimZeros_ivreg (s : State) : (trimZeros s).ivreg = s.ivreg := rfl
@[simp] theorem trimZeros_tfK (s : State) : (trimZeros s).tfK = s.tfK := rfl
@[simp] theorem trimZeros_tfM (s : State) : (trimZeros s).tfM = s.tfM := rfl
@[simp] theorem trimZeros_spK (s : State) : (trimZeros s).spK = s.spK := rfl
@[simp] theorem trimZeros_draws (s : State) : (trimZeros s).draws = s.draws + 1 := rfl
@[simp] theorem trimZeros_host (s : State) : (trimZeros s).host = s.host := rfl
@[simp] theorem trimZeros_busRead (s : State) : (trimZeros s).busRead = s.busRead := rfl

@[simp] theorem endRun_err (s : State) : (endRun s).err = s.err := rfl
@[simp] theorem endRun_cfgValid (s : State) : (endRun s).cfgValid = s.cfgValid := rfl
@[simp] theorem endRun_keyValid (s : State) : (endRun s).keyValid = s.keyValid := rfl
@[simp] theorem endRun_dataValid (s : State) : (endRun s).dataValid = s.dataValid := rfl
@[simp] theorem endRun_wkeyValid (s : State) : (endRun s).wkeyValid = s.wkeyValid := rfl
@[simp] theorem endRun_tfxValid (s : State) : (endRun s).tfxValid = s.tfxValid := rfl
@[simp] theorem endRun_spxValid (s : State) : (endRun s).spxValid = s.spxValid := rfl
@[simp] theorem endRun_phase (s : State) : (endRun s).phase = .closed := rfl
@[simp] theorem endRun_cfg (s : State) : (endRun s).cfg = s.cfg := rfl
@[simp] theorem endRun_errcode (s : State) : (endRun s).errcode = s.errcode := rfl
@[simp] theorem endRun_errcmd (s : State) : (endRun s).errcmd = s.errcmd := rfl
@[simp] theorem endRun_keylen (s : State) : (endRun s).keylen = s.keylen := rfl
@[simp] theorem endRun_dlen (s : State) : (endRun s).dlen = s.dlen := rfl
@[simp] theorem endRun_cur (s : State) : (endRun s).cur = 0 := rfl
@[simp] theorem endRun_rem (s : State) : (endRun s).rem = 0 := rfl
@[simp] theorem endRun_key (s : State) : (endRun s).key = s.key := rfl
@[simp] theorem endRun_wkey (s : State) : (endRun s).wkey = s.wkey := rfl
@[simp] theorem endRun_wklen (s : State) : (endRun s).wklen = s.wklen := rfl
@[simp] theorem endRun_dbuf (s : State) : (endRun s).dbuf = s.dbuf := rfl
@[simp] theorem endRun_ivreg (s : State) : (endRun s).ivreg = freeBlock .ivreg s.draws := rfl
@[simp] theorem endRun_tfK (s : State) : (endRun s).tfK = s.tfK := rfl
@[simp] theorem endRun_tfM (s : State) : (endRun s).tfM = s.tfM := rfl
@[simp] theorem endRun_spK (s : State) : (endRun s).spK = s.spK := rfl
@[simp] theorem endRun_draws (s : State) : (endRun s).draws = s.draws + 1 := rfl
@[simp] theorem endRun_host (s : State) : (endRun s).host = s.host := rfl
@[simp] theorem endRun_busRead (s : State) : (endRun s).busRead = s.busRead := rfl

@[simp] theorem p7AppendAct_err (s : State) : (p7AppendAct s).err = s.err := rfl
@[simp] theorem p7AppendAct_cfgValid (s : State) : (p7AppendAct s).cfgValid = s.cfgValid := rfl
@[simp] theorem p7AppendAct_keyValid (s : State) : (p7AppendAct s).keyValid = s.keyValid := rfl
@[simp] theorem p7AppendAct_dataValid (s : State) : (p7AppendAct s).dataValid = s.dataValid := rfl
@[simp] theorem p7AppendAct_wkeyValid (s : State) : (p7AppendAct s).wkeyValid = s.wkeyValid := rfl
@[simp] theorem p7AppendAct_tfxValid (s : State) : (p7AppendAct s).tfxValid = s.tfxValid := rfl
@[simp] theorem p7AppendAct_spxValid (s : State) : (p7AppendAct s).spxValid = s.spxValid := rfl
@[simp] theorem p7AppendAct_phase (s : State) : (p7AppendAct s).phase = s.phase := rfl
@[simp] theorem p7AppendAct_cfg (s : State) : (p7AppendAct s).cfg = s.cfg := rfl
@[simp] theorem p7AppendAct_errcode (s : State) : (p7AppendAct s).errcode = s.errcode := rfl
@[simp] theorem p7AppendAct_errcmd (s : State) : (p7AppendAct s).errcmd = s.errcmd := rfl
@[simp] theorem p7AppendAct_keylen (s : State) : (p7AppendAct s).keylen = s.keylen := rfl
@[simp] theorem p7AppendAct_dlen (s : State) : (p7AppendAct s).dlen = s.dlen + BitVec.ofNat 32 (p7Count s.dlen.toNat) := rfl
@[simp] theorem p7AppendAct_cur (s : State) : (p7AppendAct s).cur = s.cur := rfl
@[simp] theorem p7AppendAct_rem (s : State) : (p7AppendAct s).rem = s.rem := rfl
@[simp] theorem p7AppendAct_key (s : State) : (p7AppendAct s).key = s.key := rfl
@[simp] theorem p7AppendAct_wkey (s : State) : (p7AppendAct s).wkey = s.wkey := rfl
@[simp] theorem p7AppendAct_wklen (s : State) : (p7AppendAct s).wklen = s.wklen := rfl
@[simp] theorem p7AppendAct_dbuf (s : State) : (p7AppendAct s).dbuf = Memory.forgetFrom (Memory.writeList s.dbuf s.dlen.toNat (List.replicate (p7Count s.dlen.toNat) (BitVec.ofNat 8 (p7Count s.dlen.toNat)))) (s.dlen + BitVec.ofNat 32 (p7Count s.dlen.toNat)).toNat := rfl
@[simp] theorem p7AppendAct_ivreg (s : State) : (p7AppendAct s).ivreg = s.ivreg := rfl
@[simp] theorem p7AppendAct_tfK (s : State) : (p7AppendAct s).tfK = s.tfK := rfl
@[simp] theorem p7AppendAct_tfM (s : State) : (p7AppendAct s).tfM = s.tfM := rfl
@[simp] theorem p7AppendAct_spK (s : State) : (p7AppendAct s).spK = s.spK := rfl
@[simp] theorem p7AppendAct_draws (s : State) : (p7AppendAct s).draws = s.draws := rfl
@[simp] theorem p7AppendAct_host (s : State) : (p7AppendAct s).host = s.host := rfl
@[simp] theorem p7AppendAct_busRead (s : State) : (p7AppendAct s).busRead = s.busRead := rfl

@[simp] theorem p7RemoveAct_err (s : State) : (p7RemoveAct s).err = s.err := rfl
@[simp] theorem p7RemoveAct_cfgValid (s : State) : (p7RemoveAct s).cfgValid = s.cfgValid := rfl
@[simp] theorem p7RemoveAct_keyValid (s : State) : (p7RemoveAct s).keyValid = s.keyValid := rfl
@[simp] theorem p7RemoveAct_dataValid (s : State) : (p7RemoveAct s).dataValid = s.dataValid := rfl
@[simp] theorem p7RemoveAct_wkeyValid (s : State) : (p7RemoveAct s).wkeyValid = s.wkeyValid := rfl
@[simp] theorem p7RemoveAct_tfxValid (s : State) : (p7RemoveAct s).tfxValid = s.tfxValid := rfl
@[simp] theorem p7RemoveAct_spxValid (s : State) : (p7RemoveAct s).spxValid = s.spxValid := rfl
@[simp] theorem p7RemoveAct_phase (s : State) : (p7RemoveAct s).phase = s.phase := rfl
@[simp] theorem p7RemoveAct_cfg (s : State) : (p7RemoveAct s).cfg = s.cfg := rfl
@[simp] theorem p7RemoveAct_errcode (s : State) : (p7RemoveAct s).errcode = s.errcode := rfl
@[simp] theorem p7RemoveAct_errcmd (s : State) : (p7RemoveAct s).errcmd = s.errcmd := rfl
@[simp] theorem p7RemoveAct_keylen (s : State) : (p7RemoveAct s).keylen = s.keylen := rfl
@[simp] theorem p7RemoveAct_dlen (s : State) : (p7RemoveAct s).dlen = BitVec.ofNat 32 (p7RemoveLen s.dlen.toNat (s.byteAt (s.dlen.toNat - 1))) := rfl
@[simp] theorem p7RemoveAct_cur (s : State) : (p7RemoveAct s).cur = s.cur := rfl
@[simp] theorem p7RemoveAct_rem (s : State) : (p7RemoveAct s).rem = s.rem := rfl
@[simp] theorem p7RemoveAct_key (s : State) : (p7RemoveAct s).key = s.key := rfl
@[simp] theorem p7RemoveAct_wkey (s : State) : (p7RemoveAct s).wkey = s.wkey := rfl
@[simp] theorem p7RemoveAct_wklen (s : State) : (p7RemoveAct s).wklen = s.wklen := rfl
@[simp] theorem p7RemoveAct_dbuf (s : State) : (p7RemoveAct s).dbuf = Memory.forgetFrom s.dbuf (BitVec.ofNat 32 (p7RemoveLen s.dlen.toNat (s.byteAt (s.dlen.toNat - 1)))).toNat := rfl
@[simp] theorem p7RemoveAct_ivreg (s : State) : (p7RemoveAct s).ivreg = s.ivreg := rfl
@[simp] theorem p7RemoveAct_tfK (s : State) : (p7RemoveAct s).tfK = s.tfK := rfl
@[simp] theorem p7RemoveAct_tfM (s : State) : (p7RemoveAct s).tfM = s.tfM := rfl
@[simp] theorem p7RemoveAct_spK (s : State) : (p7RemoveAct s).spK = s.spK := rfl
@[simp] theorem p7RemoveAct_draws (s : State) : (p7RemoveAct s).draws = s.draws + 1 := rfl
@[simp] theorem p7RemoveAct_host (s : State) : (p7RemoveAct s).host = s.host := rfl
@[simp] theorem p7RemoveAct_busRead (s : State) : (p7RemoveAct s).busRead = s.busRead := rfl

@[simp] theorem writeKey_err (i : Nat) (b : Byte) (s : State) : (writeKey i b s).err = s.err := rfl
@[simp] theorem writeKey_cfgValid (i : Nat) (b : Byte) (s : State) : (writeKey i b s).cfgValid = s.cfgValid := rfl
@[simp] theorem writeKey_keyValid (i : Nat) (b : Byte) (s : State) : (writeKey i b s).keyValid = s.keyValid := rfl
@[simp] theorem writeKey_dataValid (i : Nat) (b : Byte) (s : State) : (writeKey i b s).dataValid = s.dataValid := rfl
@[simp] theorem writeKey_wkeyValid (i : Nat) (b : Byte) (s : State) : (writeKey i b s).wkeyValid = s.wkeyValid := rfl
@[simp] theorem writeKey_tfxValid (i : Nat) (b : Byte) (s : State) : (writeKey i b s).tfxValid = s.tfxValid := rfl
@[simp] theorem writeKey_spxValid (i : Nat) (b : Byte) (s : State) : (writeKey i b s).spxValid = s.spxValid := rfl
@[simp] theorem writeKey_phase (i : Nat) (b : Byte) (s : State) : (writeKey i b s).phase = s.phase := rfl
@[simp] theorem writeKey_cfg (i : Nat) (b : Byte) (s : State) : (writeKey i b s).cfg = s.cfg := rfl
@[simp] theorem writeKey_errcode (i : Nat) (b : Byte) (s : State) : (writeKey i b s).errcode = s.errcode := rfl
@[simp] theorem writeKey_errcmd (i : Nat) (b : Byte) (s : State) : (writeKey i b s).errcmd = s.errcmd := rfl
@[simp] theorem writeKey_keylen (i : Nat) (b : Byte) (s : State) : (writeKey i b s).keylen = s.keylen := rfl
@[simp] theorem writeKey_dlen (i : Nat) (b : Byte) (s : State) : (writeKey i b s).dlen = s.dlen := rfl
@[simp] theorem writeKey_cur (i : Nat) (b : Byte) (s : State) : (writeKey i b s).cur = s.cur := rfl
@[simp] theorem writeKey_rem (i : Nat) (b : Byte) (s : State) : (writeKey i b s).rem = s.rem := rfl
@[simp] theorem writeKey_key (i : Nat) (b : Byte) (s : State) : (writeKey i b s).key = s.key.setIfInBounds i b := rfl
@[simp] theorem writeKey_wkey (i : Nat) (b : Byte) (s : State) : (writeKey i b s).wkey = s.wkey := rfl
@[simp] theorem writeKey_wklen (i : Nat) (b : Byte) (s : State) : (writeKey i b s).wklen = s.wklen := rfl
@[simp] theorem writeKey_dbuf (i : Nat) (b : Byte) (s : State) : (writeKey i b s).dbuf = s.dbuf := rfl
@[simp] theorem writeKey_ivreg (i : Nat) (b : Byte) (s : State) : (writeKey i b s).ivreg = s.ivreg := rfl
@[simp] theorem writeKey_tfK (i : Nat) (b : Byte) (s : State) : (writeKey i b s).tfK = s.tfK := rfl
@[simp] theorem writeKey_tfM (i : Nat) (b : Byte) (s : State) : (writeKey i b s).tfM = s.tfM := rfl
@[simp] theorem writeKey_spK (i : Nat) (b : Byte) (s : State) : (writeKey i b s).spK = s.spK := rfl
@[simp] theorem writeKey_draws (i : Nat) (b : Byte) (s : State) : (writeKey i b s).draws = s.draws := rfl
@[simp] theorem writeKey_host (i : Nat) (b : Byte) (s : State) : (writeKey i b s).host = s.host := rfl
@[simp] theorem writeKey_busRead (i : Nat) (b : Byte) (s : State) : (writeKey i b s).busRead = s.busRead := rfl

@[simp] theorem writeDbuf_err (i : Nat) (b : Byte) (s : State) : (writeDbuf i b s).err = s.err := rfl
@[simp] theorem writeDbuf_cfgValid (i : Nat) (b : Byte) (s : State) : (writeDbuf i b s).cfgValid = s.cfgValid := rfl
@[simp] theorem writeDbuf_keyValid (i : Nat) (b : Byte) (s : State) : (writeDbuf i b s).keyValid = s.keyValid := rfl
@[simp] theorem writeDbuf_dataValid (i : Nat) (b : Byte) (s : State) : (writeDbuf i b s).dataValid = s.dataValid := rfl
@[simp] theorem writeDbuf_wkeyValid (i : Nat) (b : Byte) (s : State) : (writeDbuf i b s).wkeyValid = s.wkeyValid := rfl
@[simp] theorem writeDbuf_tfxValid (i : Nat) (b : Byte) (s : State) : (writeDbuf i b s).tfxValid = s.tfxValid := rfl
@[simp] theorem writeDbuf_spxValid (i : Nat) (b : Byte) (s : State) : (writeDbuf i b s).spxValid = s.spxValid := rfl
@[simp] theorem writeDbuf_phase (i : Nat) (b : Byte) (s : State) : (writeDbuf i b s).phase = s.phase := rfl
@[simp] theorem writeDbuf_cfg (i : Nat) (b : Byte) (s : State) : (writeDbuf i b s).cfg = s.cfg := rfl
@[simp] theorem writeDbuf_errcode (i : Nat) (b : Byte) (s : State) : (writeDbuf i b s).errcode = s.errcode := rfl
@[simp] theorem writeDbuf_errcmd (i : Nat) (b : Byte) (s : State) : (writeDbuf i b s).errcmd = s.errcmd := rfl
@[simp] theorem writeDbuf_keylen (i : Nat) (b : Byte) (s : State) : (writeDbuf i b s).keylen = s.keylen := rfl
@[simp] theorem writeDbuf_dlen (i : Nat) (b : Byte) (s : State) : (writeDbuf i b s).dlen = s.dlen := rfl
@[simp] theorem writeDbuf_cur (i : Nat) (b : Byte) (s : State) : (writeDbuf i b s).cur = s.cur := rfl
@[simp] theorem writeDbuf_rem (i : Nat) (b : Byte) (s : State) : (writeDbuf i b s).rem = s.rem := rfl
@[simp] theorem writeDbuf_key (i : Nat) (b : Byte) (s : State) : (writeDbuf i b s).key = s.key := rfl
@[simp] theorem writeDbuf_wkey (i : Nat) (b : Byte) (s : State) : (writeDbuf i b s).wkey = s.wkey := rfl
@[simp] theorem writeDbuf_wklen (i : Nat) (b : Byte) (s : State) : (writeDbuf i b s).wklen = s.wklen := rfl
@[simp] theorem writeDbuf_dbuf (i : Nat) (b : Byte) (s : State) : (writeDbuf i b s).dbuf = Memory.write s.dbuf i b := rfl
@[simp] theorem writeDbuf_ivreg (i : Nat) (b : Byte) (s : State) : (writeDbuf i b s).ivreg = s.ivreg := rfl
@[simp] theorem writeDbuf_tfK (i : Nat) (b : Byte) (s : State) : (writeDbuf i b s).tfK = s.tfK := rfl
@[simp] theorem writeDbuf_tfM (i : Nat) (b : Byte) (s : State) : (writeDbuf i b s).tfM = s.tfM := rfl
@[simp] theorem writeDbuf_spK (i : Nat) (b : Byte) (s : State) : (writeDbuf i b s).spK = s.spK := rfl
@[simp] theorem writeDbuf_draws (i : Nat) (b : Byte) (s : State) : (writeDbuf i b s).draws = s.draws := rfl
@[simp] theorem writeDbuf_host (i : Nat) (b : Byte) (s : State) : (writeDbuf i b s).host = s.host := rfl
@[simp] theorem writeDbuf_busRead (i : Nat) (b : Byte) (s : State) : (writeDbuf i b s).busRead = s.busRead := rfl

@[simp] theorem afterReset_err (n : Nat) (h : List Access) (v : Word) : (State.afterReset n h v).err = false := rfl
@[simp] theorem afterReset_cfgValid (n : Nat) (h : List Access) (v : Word) : (State.afterReset n h v).cfgValid = false := rfl
@[simp] theorem afterReset_keyValid (n : Nat) (h : List Access) (v : Word) : (State.afterReset n h v).keyValid = false := rfl
@[simp] theorem afterReset_dataValid (n : Nat) (h : List Access) (v : Word) : (State.afterReset n h v).dataValid = false := rfl
@[simp] theorem afterReset_wkeyValid (n : Nat) (h : List Access) (v : Word) : (State.afterReset n h v).wkeyValid = false := rfl
@[simp] theorem afterReset_tfxValid (n : Nat) (h : List Access) (v : Word) : (State.afterReset n h v).tfxValid = false := rfl
@[simp] theorem afterReset_spxValid (n : Nat) (h : List Access) (v : Word) : (State.afterReset n h v).spxValid = false := rfl
@[simp] theorem afterReset_phase (n : Nat) (h : List Access) (v : Word) : (State.afterReset n h v).phase = .none := rfl
@[simp] theorem afterReset_cfg (n : Nat) (h : List Access) (v : Word) : (State.afterReset n h v).cfg = 0 := rfl
@[simp] theorem afterReset_errcode (n : Nat) (h : List Access) (v : Word) : (State.afterReset n h v).errcode = 0 := rfl
@[simp] theorem afterReset_errcmd (n : Nat) (h : List Access) (v : Word) : (State.afterReset n h v).errcmd = 0 := rfl
@[simp] theorem afterReset_keylen (n : Nat) (h : List Access) (v : Word) : (State.afterReset n h v).keylen = 0 := rfl
@[simp] theorem afterReset_dlen (n : Nat) (h : List Access) (v : Word) : (State.afterReset n h v).dlen = 0 := rfl
@[simp] theorem afterReset_cur (n : Nat) (h : List Access) (v : Word) : (State.afterReset n h v).cur = 0 := rfl
@[simp] theorem afterReset_rem (n : Nat) (h : List Access) (v : Word) : (State.afterReset n h v).rem = 0 := rfl
@[simp] theorem afterReset_key (n : Nat) (h : List Access) (v : Word) : (State.afterReset n h v).key = freeKey .key n := rfl
@[simp] theorem afterReset_wkey (n : Nat) (h : List Access) (v : Word) : (State.afterReset n h v).wkey = freeKey .wkey n := rfl
@[simp] theorem afterReset_wklen (n : Nat) (h : List Access) (v : Word) : (State.afterReset n h v).wklen = 0 := rfl
@[simp] theorem afterReset_dbuf (n : Nat) (h : List Access) (v : Word) : (State.afterReset n h v).dbuf = [] := rfl
@[simp] theorem afterReset_ivreg (n : Nat) (h : List Access) (v : Word) : (State.afterReset n h v).ivreg = freeBlock .ivreg n := rfl
@[simp] theorem afterReset_tfK (n : Nat) (h : List Access) (v : Word) : (State.afterReset n h v).tfK = freeTfK n := rfl
@[simp] theorem afterReset_tfM (n : Nat) (h : List Access) (v : Word) : (State.afterReset n h v).tfM = freeTfM n := rfl
@[simp] theorem afterReset_spK (n : Nat) (h : List Access) (v : Word) : (State.afterReset n h v).spK = freeSpK n := rfl
@[simp] theorem afterReset_draws (n : Nat) (h : List Access) (v : Word) : (State.afterReset n h v).draws = n + 1 := rfl
@[simp] theorem afterReset_host (n : Nat) (h : List Access) (v : Word) : (State.afterReset n h v).host = h := rfl
@[simp] theorem afterReset_busRead (n : Nat) (h : List Access) (v : Word) : (State.afterReset n h v).busRead = v := rfl

@[simp] theorem npAppendAct_eq (s : State) : npAppendAct s = s := rfl

@[simp] theorem npRemoveAct_eq (s : State) : npRemoveAct s = s := rfl

@[simp] theorem engineEnc_err (o : Nat) (s : State) : (engineEnc o s).err = s.err := by unfold engineEnc spEncAct tfEncAct; split <;> simp
@[simp] theorem engineEnc_cfgValid (o : Nat) (s : State) : (engineEnc o s).cfgValid = s.cfgValid := by unfold engineEnc spEncAct tfEncAct; split <;> simp
@[simp] theorem engineEnc_keyValid (o : Nat) (s : State) : (engineEnc o s).keyValid = s.keyValid := by unfold engineEnc spEncAct tfEncAct; split <;> simp
@[simp] theorem engineEnc_dataValid (o : Nat) (s : State) : (engineEnc o s).dataValid = s.dataValid := by unfold engineEnc spEncAct tfEncAct; split <;> simp
@[simp] theorem engineEnc_wkeyValid (o : Nat) (s : State) : (engineEnc o s).wkeyValid = s.wkeyValid := by unfold engineEnc spEncAct tfEncAct; split <;> simp
@[simp] theorem engineEnc_tfxValid (o : Nat) (s : State) : (engineEnc o s).tfxValid = s.tfxValid := by unfold engineEnc spEncAct tfEncAct; split <;> simp
@[simp] theorem engineEnc_spxValid (o : Nat) (s : State) : (engineEnc o s).spxValid = s.spxValid := by unfold engineEnc spEncAct tfEncAct; split <;> simp
@[simp] theorem engineEnc_phase (o : Nat) (s : State) : (engineEnc o s).phase = s.phase := by unfold engineEnc spEncAct tfEncAct; split <;> simp
@[simp] theorem engineEnc_cfg (o : Nat) (s : State) : (engineEnc o s).cfg = s.cfg := by unfold engineEnc spEncAct tfEncAct; split <;> simp
@[simp] theorem engineEnc_errcode (o : Nat) (s : State) : (engineEnc o s).errcode = s.errcode := by unfold engineEnc spEncAct tfEncAct; split <;> simp
@[simp] theorem engineEnc_errcmd (o : Nat) (s : State) : (engineEnc o s).errcmd = s.errcmd := by unfold engineEnc spEncAct tfEncAct; split <;> simp
@[simp] theorem engineEnc_keylen (o : Nat) (s : State) : (engineEnc o s).keylen = s.keylen := by unfold engineEnc spEncAct tfEncAct; split <;> simp
@[simp] theorem engineEnc_dlen (o : Nat) (s : State) : (engineEnc o s).dlen = s.dlen := by unfold engineEnc spEncAct tfEncAct; split <;> simp
@[simp] theorem engineEnc_cur (o : Nat) (s : State) : (engineEnc o s).cur = s.cur := by unfold engineEnc spEncAct tfEncAct; split <;> simp
@[simp] theorem engineEnc_rem (o : Nat) (s : State) : (engineEnc o s).rem = s.rem := by unfold engineEnc spEncAct tfEncAct; split <;> simp
@[simp] theorem engineEnc_key (o : Nat) (s : State) : (engineEnc o s).key = s.key := by unfold engineEnc spEncAct tfEncAct; split <;> simp
@[simp] theorem engineEnc_wkey (o : Nat) (s : State) : (engineEnc o s).wkey = s.wkey := by unfold engineEnc spEncAct tfEncAct; split <;> simp
@[simp] theorem engineEnc_wklen (o : Nat) (s : State) : (engineEnc o s).wklen = s.wklen := by unfold engineEnc spEncAct tfEncAct; split <;> simp
@[simp] theorem engineEnc_ivreg (o : Nat) (s : State) : (engineEnc o s).ivreg = s.ivreg := by unfold engineEnc spEncAct tfEncAct; split <;> simp
@[simp] theorem engineEnc_tfK (o : Nat) (s : State) : (engineEnc o s).tfK = s.tfK := by unfold engineEnc spEncAct tfEncAct; split <;> simp
@[simp] theorem engineEnc_tfM (o : Nat) (s : State) : (engineEnc o s).tfM = s.tfM := by unfold engineEnc spEncAct tfEncAct; split <;> simp
@[simp] theorem engineEnc_spK (o : Nat) (s : State) : (engineEnc o s).spK = s.spK := by unfold engineEnc spEncAct tfEncAct; split <;> simp
@[simp] theorem engineEnc_host (o : Nat) (s : State) : (engineEnc o s).host = s.host := by unfold engineEnc spEncAct tfEncAct; split <;> simp
@[simp] theorem engineEnc_busRead (o : Nat) (s : State) : (engineEnc o s).busRead = s.busRead := by unfold engineEnc spEncAct tfEncAct; split <;> simp

@[simp] theorem engineDec_err (o : Nat) (s : State) : (engineDec o s).err = s.err := by unfold engineDec spDecAct tfDecAct; split <;> simp
@[simp] theorem engineDec_cfgValid (o : Nat) (s : State) : (engineDec o s).cfgValid = s.cfgValid := by unfold engineDec spDecAct tfDecAct; split <;> simp
@[simp] theorem engineDec_keyValid (o : Nat) (s : State) : (engineDec o s).keyValid = s.keyValid := by unfold engineDec spDecAct tfDecAct; split <;> simp
@[simp] theorem engineDec_dataValid (o : Nat) (s : State) : (engineDec o s).dataValid = s.dataValid := by unfold engineDec spDecAct tfDecAct; split <;> simp
@[simp] theorem engineDec_wkeyValid (o : Nat) (s : State) : (engineDec o s).wkeyValid = s.wkeyValid := by unfold engineDec spDecAct tfDecAct; split <;> simp
@[simp] theorem engineDec_tfxValid (o : Nat) (s : State) : (engineDec o s).tfxValid = s.tfxValid := by unfold engineDec spDecAct tfDecAct; split <;> simp
@[simp] theorem engineDec_spxValid (o : Nat) (s : State) : (engineDec o s).spxValid = s.spxValid := by unfold engineDec spDecAct tfDecAct; split <;> simp
@[simp] theorem engineDec_phase (o : Nat) (s : State) : (engineDec o s).phase = s.phase := by unfold engineDec spDecAct tfDecAct; split <;> simp
@[simp] theorem engineDec_cfg (o : Nat) (s : State) : (engineDec o s).cfg = s.cfg := by unfold engineDec spDecAct tfDecAct; split <;> simp
@[simp] theorem engineDec_errcode (o : Nat) (s : State) : (engineDec o s).errcode = s.errcode := by unfold engineDec spDecAct tfDecAct; split <;> simp
@[simp] theorem engineDec_errcmd (o : Nat) (s : State) : (engineDec o s).errcmd = s.errcmd := by unfold engineDec spDecAct tfDecAct; split <;> simp
@[simp] theorem engineDec_keylen (o : Nat) (s : State) : (engineDec o s).keylen = s.keylen := by unfold engineDec spDecAct tfDecAct; split <;> simp
@[simp] theorem engineDec_dlen (o : Nat) (s : State) : (engineDec o s).dlen = s.dlen := by unfold engineDec spDecAct tfDecAct; split <;> simp
@[simp] theorem engineDec_cur (o : Nat) (s : State) : (engineDec o s).cur = s.cur := by unfold engineDec spDecAct tfDecAct; split <;> simp
@[simp] theorem engineDec_rem (o : Nat) (s : State) : (engineDec o s).rem = s.rem := by unfold engineDec spDecAct tfDecAct; split <;> simp
@[simp] theorem engineDec_key (o : Nat) (s : State) : (engineDec o s).key = s.key := by unfold engineDec spDecAct tfDecAct; split <;> simp
@[simp] theorem engineDec_wkey (o : Nat) (s : State) : (engineDec o s).wkey = s.wkey := by unfold engineDec spDecAct tfDecAct; split <;> simp
@[simp] theorem engineDec_wklen (o : Nat) (s : State) : (engineDec o s).wklen = s.wklen := by unfold engineDec spDecAct tfDecAct; split <;> simp
@[simp] theorem engineDec_ivreg (o : Nat) (s : State) : (engineDec o s).ivreg = s.ivreg := by unfold engineDec spDecAct tfDecAct; split <;> simp
@[simp] theorem engineDec_tfK (o : Nat) (s : State) : (engineDec o s).tfK = s.tfK := by unfold engineDec spDecAct tfDecAct; split <;> simp
@[simp] theorem engineDec_tfM (o : Nat) (s : State) : (engineDec o s).tfM = s.tfM := by unfold engineDec spDecAct tfDecAct; split <;> simp
@[simp] theorem engineDec_spK (o : Nat) (s : State) : (engineDec o s).spK = s.spK := by unfold engineDec spDecAct tfDecAct; split <;> simp
@[simp] theorem engineDec_host (o : Nat) (s : State) : (engineDec o s).host = s.host := by unfold engineDec spDecAct tfDecAct; split <;> simp
@[simp] theorem engineDec_busRead (o : Nat) (s : State) : (engineDec o s).busRead = s.busRead := by unfold engineDec spDecAct tfDecAct; split <;> simp

@[simp] theorem engineKeyx_err (s : State) : (engineKeyx s).err = s.err := by unfold engineKeyx; split <;> simp
@[simp] theorem engineKeyx_cfgValid (s : State) : (engineKeyx s).cfgValid = s.cfgValid := by unfold engineKeyx; split <;> simp
@[simp] theorem engineKeyx_keyValid (s : State) : (engineKeyx s).keyValid = s.keyValid := by unfold engineKeyx; split <;> simp
@[simp] theorem engineKeyx_dataValid (s : State) : (engineKeyx s).dataValid = s.dataValid := by unfold engineKeyx; split <;> simp
@[simp] theorem engineKeyx_wkeyValid (s : State) : (engineKeyx s).wkeyValid = s.wkeyValid := by unfold engineKeyx; split <;> simp
@[simp] theorem engineKeyx_phase (s : State) : (engineKeyx s).phase = s.phase := by unfold engineKeyx; split <;> simp
@[simp] theorem engineKeyx_cfg (s : State) : (engineKeyx s).cfg = s.cfg := by unfold engineKeyx; split <;> simp
@[simp] theorem engineKeyx_errcode (s : State) : (engineKeyx s).errcode = s.errcode := by unfold engineKeyx; split <;> simp
@[simp] theorem engineKeyx_errcmd (s : State) : (engineKeyx s).errcmd = s.errcmd := by unfold engineKeyx; split <;> simp
@[simp] theorem engineKeyx_keylen (s : State) : (engineKeyx s).keylen = s.keylen := by unfold engineKeyx; split <;> simp
@[simp] theorem engineKeyx_dlen (s : State) : (engineKeyx s).dlen = s.dlen := by unfold engineKeyx; split <;> simp
@[simp] theorem engineKeyx_cur (s : State) : (engineKeyx s).cur = s.cur := by unfold engineKeyx; split <;> simp
@[simp] theorem engineKeyx_rem (s : State) : (engineKeyx s).rem = s.rem := by unfold engineKeyx; split <;> simp
@[simp] theorem engineKeyx_key (s : State) : (engineKeyx s).key = s.key := by unfold engineKeyx; split <;> simp
@[simp] theorem engineKeyx_dbuf (s : State) : (engineKeyx s).dbuf = s.dbuf := by unfold engineKeyx; split <;> simp
@[simp] theorem engineKeyx_ivreg (s : State) : (engineKeyx s).ivreg = s.ivreg := by unfold engineKeyx; split <;> simp
@[simp] theorem engineKeyx_draws (s : State) : (engineKeyx s).draws = s.draws := by unfold engineKeyx; split <;> simp
@[simp] theorem engineKeyx_host (s : State) : (engineKeyx s).host = s.host := by unfold engineKeyx; split <;> simp
@[simp] theorem engineKeyx_busRead (s : State) : (engineKeyx s).busRead = s.busRead := by unfold engineKeyx; split <;> simp

@[simp] theorem engineClose_err (s : State) : (engineClose s).err = s.err := by unfold engineClose; split <;> simp
@[simp] theorem engineClose_cfgValid (s : State) : (engineClose s).cfgValid = s.cfgValid := by unfold engineClose; split <;> simp
@[simp] theorem engineClose_keyValid (s : State) : (engineClose s).keyValid = s.keyValid := by unfold engineClose; split <;> simp
@[simp] theorem engineClose_dataValid (s : State) : (engineClose s).dataValid = s.dataValid := by unfold engineClose; split <;> simp
@[simp] theorem engineClose_wkeyValid (s : State) : (engineClose s).wkeyValid = s.wkeyValid := by unfold engineClose; split <;> simp
@[simp] theorem engineClose_phase (s : State) : (engineClose s).phase = s.phase := by unfold engineClose; split <;> simp
@[simp] theorem engineClose_cfg (s : State) : (engineClose s).cfg = s.cfg := by unfold engineClose; split <;> simp
@[simp] theorem engineClose_errcode (s : State) : (engineClose s).errcode = s.errcode := by unfold engineClose; split <;> simp
@[simp] theorem engineClose_errcmd (s : State) : (engineClose s).errcmd = s.errcmd := by unfold engineClose; split <;> simp
@[simp] theorem engineClose_keylen (s : State) : (engineClose s).keylen = s.keylen := by unfold engineClose; split <;> simp
@[simp] theorem engineClose_dlen (s : State) : (engineClose s).dlen = s.dlen := by unfold engineClose; split <;> simp
@[simp] theorem engineClose_cur (s : State) : (engineClose s).cur = s.cur := by unfold engineClose; split <;> simp
@[simp] theorem engineClose_rem (s : State) : (engineClose s).rem = s.rem := by unfold engineClose; split <;> simp
@[simp] theorem engineClose_key (s : State) : (engineClose s).key = s.key := by unfold engineClose; split <;> simp
@[simp] theorem engineClose_wkey (s : State) : (engineClose s).wkey = s.wkey := by unfold engineClose; split <;> simp
@[simp] theorem engineClose_wklen (s : State) : (engineClose s).wklen = s.wklen := by unfold engineClose; split <;> simp
@[simp] theorem engineClose_dbuf (s : State) : (engineClose s).dbuf = s.dbuf := by unfold engineClose; split <;> simp
@[simp] theorem engineClose_ivreg (s : State) : (engineClose s).ivreg = s.ivreg := by unfold engineClose; split <;> simp
@[simp] theorem engineClose_host (s : State) : (engineClose s).host = s.host := by unfold engineClose; split <;> simp
@[simp] theorem engineClose_busRead (s : State) : (engineClose s).busRead = s.busRead := by unfold engineClose; split <;> simp

@[simp] theorem removePadding_err (s : State) : (removePadding s).err = s.err := by unfold removePadding; split <;> simp
@[simp] theorem removePadding_cfgValid (s : State) : (removePadding s).cfgValid = s.cfgValid := by unfold removePadding; split <;> simp
@[simp] theorem removePadding_keyValid (s : State) : (removePadding s).keyValid = s.keyValid := by unfold removePadding; split <;> simp
@[simp] theorem removePadding_dataValid (s : State) : (removePadding s).dataValid = s.dataValid := by unfold removePadding; split <;> simp
@[simp] theorem removePadding_wkeyValid (s : State) : (removePadding s).wkeyValid = s.wkeyValid := by unfold removePadding; split <;> simp
@[simp] theorem removePadding_tfxValid (s : State) : (removePadding s).tfxValid = s.tfxValid := by unfold removePadding; split <;> simp
@[simp] theorem removePadding_spxValid (s : State) : (removePadding s).spxValid = s.spxValid := by unfold removePadding; split <;> simp
@[simp] theorem removePadding_phase (s : State) : (removePadding s).phase = s.phase := by unfold removePadding; split <;> simp
@[simp] theorem removePadding_cfg (s : State) : (removePadding s).cfg = s.cfg := by unfold removePadding; split <;> simp
@[simp] theorem removePadding_errcode (s : State) : (removePadding s).errcode = s.errcode := by unfold removePadding; split <;> simp
@[simp] theorem removePadding_errcmd (s : State) : (removePadding s).errcmd = s.errcmd := by unfold removePadding; split <;> simp
@[simp] theorem removePadding_keylen (s : State) : (removePadding s).keylen = s.keylen := by unfold removePadding; split <;> simp
@[simp] theorem removePadding_cur (s : State) : (removePadding s).cur = s.cur := by unfold removePadding; split <;> simp
@[simp] theorem removePadding_rem (s : State) : (removePadding s).rem = s.rem := by unfold removePadding; split <;> simp
@[simp] theorem removePadding_key (s : State) : (removePadding s).key = s.key := by unfold removePadding; split <;> simp
@[simp] theorem removePadding_wkey (s : State) : (removePadding s).wkey = s.wkey := by unfold removePadding; split <;> simp
@[simp] theorem removePadding_wklen (s : State) : (removePadding s).wklen = s.wklen := by unfold removePadding; split <;> simp
@[simp] theorem removePadding_ivreg (s : State) : (removePadding s).ivreg = s.ivreg := by unfold removePadding; split <;> simp
@[simp] theorem removePadding_tfK (s : State) : (removePadding s).tfK = s.tfK := by unfold removePadding; split <;> simp
@[simp] theorem removePadding_tfM (s : State) : (removePadding s).tfM = s.tfM := by unfold removePadding; split <;> simp
@[simp] theorem removePadding_spK (s : State) : (removePadding s).spK = s.spK := by unfold removePadding; split <;> simp
@[simp] theorem removePadding_host (s : State) : (removePadding s).host = s.host := by unfold removePadding; split <;> simp
@[simp] theorem removePadding_busRead (s : State) : (removePadding s).busRead = s.busRead := by unfold removePadding; split <;> simp

@[simp] theorem cbcOpenAct_err (s : State) : (cbcOpenAct s).err = s.err := by unfold cbcOpenAct; split <;> simp
@[simp] theorem cbcOpenAct_cfgValid (s : State) : (cbcOpenAct s).cfgValid = s.cfgValid := by unfold cbcOpenAct; split <;> simp
@[simp] theorem cbcOpenAct_keyValid (s : State) : (cbcOpenAct s).keyValid = s.keyValid := by unfold cbcOpenAct; split <;> simp
@[simp] theorem cbcOpenAct_dataValid (s : State) : (cbcOpenAct s).dataValid = s.dataValid := by unfold cbcOpenAct; split <;> simp
@[simp] theorem cbcOpenAct_wkeyValid (s : State) : (cbcOpenAct s).wkeyValid = s.wkeyValid := by unfold cbcOpenAct; split <;> simp
@[simp] theorem cbcOpenAct_cfg (s : State) : (cbcOpenAct s).cfg = s.cfg := by unfold cbcOpenAct; split <;> simp
@[simp] theorem cbcOpenAct_errcode (s : State) : (cbcOpenAct s).errcode = s.errcode := by unfold cbcOpenAct; split <;> simp
@[simp] theorem cbcOpenAct_errcmd (s : State) : (cbcOpenAct s).errcmd = s.errcmd := by unfold cbcOpenAct; split <;> simp
@[simp] theorem cbcOpenAct_keylen (s : State) : (cbcOpenAct s).keylen = s.keylen := by unfold cbcOpenAct; split <;> simp
@[simp] theorem cbcOpenAct_key (s : State) : (cbcOpenAct s).key = s.key := by unfold cbcOpenAct; split <;> simp
@[simp] theorem cbcOpenAct_host (s : State) : (cbcOpenAct s).host = s.host := by unfold cbcOpenAct; split <;> simp
@[simp] theorem cbcOpenAct_busRead (s : State) : (cbcOpenAct s).busRead = s.busRead := by unfold cbcOpenAct; split <;> simp

@[simp] theorem stepEncrypt_err (s : State) : (stepEncrypt s).err = s.err := by simp [stepEncrypt]
@[simp] theorem stepEncrypt_cfgValid (s : State) : (stepEncrypt s).cfgValid = s.cfgValid := by simp [stepEncrypt]
@[simp] theorem stepEncrypt_keyValid (s : State) : (stepEncrypt s).keyValid = s.keyValid := by simp [stepEncrypt]
@[simp] theorem stepEncrypt_dataValid (s : State) : (stepEncrypt s).dataValid = s.dataValid := by simp [stepEncrypt]
@[simp] theorem stepEncrypt_wkeyValid (s : State) : (stepEncrypt s).wkeyValid = s.wkeyValid := by simp [stepEncrypt]
@[simp] theorem stepEncrypt_tfxValid (s : State) : (stepEncrypt s).tfxValid = s.tfxValid := by simp [stepEncrypt]
@[simp] theorem stepEncrypt_spxValid (s : State) : (stepEncrypt s).spxValid = s.spxValid := by simp [stepEncrypt]
@[simp] theorem stepEncrypt_cfg (s : State) : (stepEncrypt s).cfg = s.cfg := by simp [stepEncrypt]
@[simp] theorem stepEncrypt_errcode (s : State) : (stepEncrypt s).errcode = s.errcode := by simp [stepEncrypt]
@[simp] theorem stepEncrypt_errcmd (s : State) : (stepEncrypt s).errcmd = s.errcmd := by simp [stepEncrypt]
@[simp] theorem stepEncrypt_keylen (s : State) : (stepEncrypt s).keylen = s.keylen := by simp [stepEncrypt]
@[simp] theorem stepEncrypt_dlen (s : State) : (stepEncrypt s).dlen = s.dlen := by simp [stepEncrypt]
@[simp] theorem stepEncrypt_key (s : State) : (stepEncrypt s).key = s.key := by simp [stepEncrypt]
@[simp] theorem stepEncrypt_wkey (s : State) : (stepEncrypt s).wkey = s.wkey := by simp [stepEncrypt]
@[simp] theorem stepEncrypt_wklen (s : State) : (stepEncrypt s).wklen = s.wklen := by simp [stepEncrypt]
@[simp] theorem stepEncrypt_ivreg (s : State) : (stepEncrypt s).ivreg = s.ivreg := by simp [stepEncrypt]
@[simp] theorem stepEncrypt_tfK (s : State) : (stepEncrypt s).tfK = s.tfK := by simp [stepEncrypt]
@[simp] theorem stepEncrypt_tfM (s : State) : (stepEncrypt s).tfM = s.tfM := by simp [stepEncrypt]
@[simp] theorem stepEncrypt_spK (s : State) : (stepEncrypt s).spK = s.spK := by simp [stepEncrypt]
@[simp] theorem stepEncrypt_host (s : State) : (stepEncrypt s).host = s.host := by simp [stepEncrypt]
@[simp] theorem stepEncrypt_busRead (s : State) : (stepEncrypt s).busRead = s.busRead := by simp [stepEncrypt]

@[simp] theorem stepDecrypt_err (s : State) : (stepDecrypt s).err = s.err := by simp [stepDecrypt]
@[simp] theorem stepDecrypt_cfgValid (s : State) : (stepDecrypt s).cfgValid = s.cfgValid := by simp [stepDecrypt]
@[simp] theorem stepDecrypt_keyValid (s : State) : (stepDecrypt s).keyValid = s.keyValid := by simp [stepDecrypt]
@[simp] theorem stepDecrypt_dataValid (s : State) : (stepDecrypt s).dataValid = s.dataValid := by simp [stepDecrypt]
@[simp] theorem stepDecrypt_wkeyValid (s : State) : (stepDecrypt s).wkeyValid = s.wkeyValid := by simp [stepDecrypt]
@[simp] theorem stepDecrypt_tfxValid (s : State) : (stepDecrypt s).tfxValid = s.tfxValid := by simp [stepDecrypt]
@[simp] theorem stepDecrypt_spxValid (s : State) : (stepDecrypt s).spxValid = s.spxValid := by simp [stepDecrypt]
@[simp] theorem stepDecrypt_cfg (s : State) : (stepDecrypt s).cfg = s.cfg := by simp [stepDecrypt]
@[simp] theorem stepDecrypt_errcode (s : State) : (stepDecrypt s).errcode = s.errcode := by simp [stepDecrypt]
@[simp] theorem stepDecrypt_errcmd (s : State) : (stepDecrypt s).errcmd = s.errcmd := by simp [stepDecrypt]
@[simp] theorem stepDecrypt_keylen (s : State) : (stepDecrypt s).keylen = s.keylen := by simp [stepDecrypt]
@[simp] theorem stepDecrypt_dlen (s : State) : (stepDecrypt s).dlen = s.dlen := by simp [stepDecrypt]
@[simp] theorem stepDecrypt_key (s : State) : (stepDecrypt s).key = s.key := by simp [stepDecrypt]
@[simp] theorem stepDecrypt_wkey (s : State) : (stepDecrypt s).wkey = s.wkey := by simp [stepDecrypt]
@[simp] theorem stepDecrypt_wklen (s : State) : (stepDecrypt s).wklen = s.wklen := by simp [stepDecrypt]
@[simp] theorem stepDecrypt_tfK (s : State) : (stepDecrypt s).tfK = s.tfK := by simp [stepDecrypt]
@[simp] theorem stepDecrypt_tfM (s : State) : (stepDecrypt s).tfM = s.tfM := by simp [stepDecrypt]
@[simp] theorem stepDecrypt_spK (s : State) : (stepDecrypt s).spK = s.spK := by simp [stepDecrypt]
@[simp] theorem stepDecrypt_host (s : State) : (stepDecrypt s).host = s.host := by simp [stepDecrypt]
@[simp] theorem stepDecrypt_busRead (s : State) : (stepDecrypt s).busRead = s.busRead := by simp [stepDecrypt]

@[simp] theorem cbcStepAct_err (s : State) : (cbcStepAct s).err = s.err := by unfold cbcStepAct; split <;> simp
@[simp] theorem cbcStepAct_cfgValid (s : State) : (cbcStepAct s).cfgValid = s.cfgValid := by unfold cbcStepAct; split <;> simp
@[simp] theorem cbcStepAct_keyValid (s : State) : (cbcStepAct s).keyValid = s.keyValid := by unfold cbcStepAct; split <;> simp
@[simp] theorem cbcStepAct_dataValid (s : State) : (cbcStepAct s).dataValid = s.dataValid := by unfold cbcStepAct; split <;> simp
@[simp] theorem cbcStepAct_wkeyValid (s : State) : (cbcStepAct s).wkeyValid = s.wkeyValid := by unfold cbcStepAct; split <;> simp
@[simp] theorem cbcStepAct_tfxValid (s : State) : (cbcStepAct s).tfxValid = s.tfxValid := by unfold cbcStepAct; split <;> simp
@[simp] theorem cbcStepAct_spxValid (s : State) : (cbcStepAct s).spxValid = s.spxValid := by unfold cbcStepAct; split <;> simp
@[simp] theorem cbcStepAct_cfg (s : State) : (cbcStepAct s).cfg = s.cfg := by unfold cbcStepAct; split <;> simp
@[simp] theorem cbcStepAct_errcode (s : State) : (cbcStepAct s).errcode = s.errcode := by unfold cbcStepAct; split <;> simp
@[simp] theorem cbcStepAct_errcmd (s : State) : (cbcStepAct s).errcmd = s.errcmd := by unfold cbcStepAct; split <;> simp
@[simp] theorem cbcStepAct_keylen (s : State) : (cbcStepAct s).keylen = s.keylen := by unfold cbcStepAct; split <;> simp
@[simp] theorem cbcStepAct_dlen (s : State) : (cbcStepAct s).dlen = s.dlen := by unfold cbcStepAct; split <;> simp
@[simp] theorem cbcStepAct_key (s : State) : (cbcStepAct s).key = s.key := by unfold cbcStepAct; split <;> simp
@[simp] theorem cbcStepAct_wkey (s : State) : (cbcStepAct s).wkey = s.wkey := by unfold cbcStepAct; split <;> simp
@[simp] theorem cbcStepAct_wklen (s : State) : (cbcStepAct s).wklen = s.wklen := by unfold cbcStepAct; split <;> simp
@[simp] theorem cbcStepAct_tfK (s : State) : (cbcStepAct s).tfK = s.tfK := by unfold cbcStepAct; split <;> simp
@[simp] theorem cbcStepAct_tfM (s : State) : (cbcStepAct s).tfM = s.tfM := by unfold cbcStepAct; split <;> simp
@[simp] theorem cbcStepAct_spK (s : State) : (cbcStepAct s).spK = s.spK := by unfold cbcStepAct; split <;> simp
@[simp] theorem cbcStepAct_host (s : State) : (cbcStepAct s).host = s.host := by unfold cbcStepAct; split <;> simp
@[simp] theorem cbcStepAct_busRead (s : State) : (cbcStepAct s).busRead = s.busRead := by unfold cbcStepAct; split <;> simp

@[simp] theorem stepLoop_err (n : Nat) (s : State) : (stepLoop n s).err = s.err := by 
  induction n generalizing s with
  | zero => rfl
  | succ n ih => unfold stepLoop; split <;> simp [ih]
@[simp] theorem stepLoop_cfgValid (n : Nat) (s : State) : (stepLoop n s).cfgValid = s.cfgValid := by 
  induction n generalizing s with
  | zero => rfl
  | succ n ih => unfold stepLoop; split <;> simp [ih]
@[simp] theorem stepLoop_keyValid (n : Nat) (s : State) : (stepLoop n s).keyValid = s.keyValid := by 
  induction n generalizing s with
  | zero => rfl
  | succ n ih => unfold stepLoop; split <;> simp [ih]
@[simp] theorem stepLoop_dataValid (n : Nat) (s : State) : (stepLoop n s).dataValid = s.dataValid := by 
  induction n generalizing s with
  | zero => rfl
  | succ n ih => unfold stepLoop; split <;> simp [ih]
@[simp] theorem stepLoop_wkeyValid (n : Nat) (s : State) : (stepLoop n s).wkeyValid = s.wkeyValid := by 
  induction n generalizing s with
  | zero => rfl
  | succ n ih => unfold stepLoop; split <;> simp [ih]
@[simp] theorem stepLoop_tfxValid (n : Nat) (s : State) : (stepLoop n s).tfxValid = s.tfxValid := by 
  induction n generalizing s with
  | zero => rfl
  | succ n ih => unfold stepLoop; split <;> simp [ih]
@[simp] theorem stepLoop_spxValid (n : Nat) (s : State) : (stepLoop n s).spxValid = s.spxValid := by 
  induction n generalizing s with
  | zero => rfl
  | succ n ih => unfold stepLoop; split <;> simp [ih]
@[simp] theorem stepLoop_cfg (n : Nat) (s : State) : (stepLoop n s).cfg = s.cfg := by 
  induction n generalizing s with
  | zero => rfl
  | succ n ih => unfold stepLoop; split <;> simp [ih]
@[simp] theorem stepLoop_errcode (n : Nat) (s : State) : (stepLoop n s).errcode = s.errcode := by 
  induction n generalizing s with
  | zero => rfl
  | succ n ih => unfold stepLoop; split <;> simp [ih]
@[simp] theorem stepLoop_errcmd (n : Nat) (s : State) : (stepLoop n s).errcmd = s.errcmd := by 
  induction n generalizing s with
  | zero => rfl
  | succ n ih => unfold stepLoop; split <;> simp [ih]
@[simp] theorem stepLoop_keylen (n : Nat) (s : State) : (stepLoop n s).keylen = s.keylen := by 
  induction n generalizing s with
  | zero => rfl
  | succ n ih => unfold stepLoop; split <;> simp [ih]
@[simp] theorem stepLoop_dlen (n : Nat) (s : State) : (stepLoop n s).dlen = s.dlen := by 
  induction n generalizing s with
  | zero => rfl
  | succ n ih => unfold stepLoop; split <;> simp [ih]
@[simp] theorem stepLoop_key (n : Nat) (s : State) : (stepLoop n s).key = s.key := by 
  induction n generalizing s with
  | zero => rfl
  | succ n ih => unfold stepLoop; split <;> simp [ih]
@[simp] theorem stepLoop_wkey (n : Nat) (s : State) : (stepLoop n s).wkey = s.wkey := by 
  induction n generalizing s with
  | zero => rfl
  | succ n ih => unfold stepLoop; split <;> simp [ih]
@[simp] theorem stepLoop_wklen (n : Nat) (s : State) : (stepLoop n s).wklen = s.wklen := by 
  induction n generalizing s with
  | zero => rfl
  | succ n ih => unfold stepLoop; split <;> simp [ih]
@[simp] theorem stepLoop_tfK (n : Nat) (s : State) : (stepLoop n s).tfK = s.tfK := by 
  induction n generalizing s with
  | zero => rfl
  | succ n ih => unfold stepLoop; split <;> simp [ih]
@[simp] theorem stepLoop_tfM (n : Nat) (s : State) : (stepLoop n s).tfM = s.tfM := by 
  induction n generalizing s with
  | zero => rfl
  | succ n ih => unfold stepLoop; split <;> simp [ih]
@[simp] theorem stepLoop_spK (n : Nat) (s : State) : (stepLoop n s).spK = s.spK := by 
  induction n generalizing s with
  | zero => rfl
  | succ n ih => unfold stepLoop; split <;> simp [ih]
@[simp] theorem stepLoop_host (n : Nat) (s : State) : (stepLoop n s).host = s.host := by 
  induction n generalizing s with
  | zero => rfl
  | succ n ih => unfold stepLoop; split <;> simp [ih]
@[simp] theorem stepLoop_busRead (n : Nat) (s : State) : (stepLoop n s).busRead = s.busRead := by 
  induction n generalizing s with
  | zero => rfl
  | succ n ih => unfold stepLoop; split <;> simp [ih]

@[simp] theorem cbcCloseAct_err (s : State) : (cbcCloseAct s).err = s.err := by unfold cbcCloseAct; split <;> simp
@[simp] theorem cbcCloseAct_cfgValid (s : State) : (cbcCloseAct s).cfgValid = s.cfgValid := by unfold cbcCloseAct; split <;> simp
@[simp] theorem cbcCloseAct_keyValid (s : State) : (cbcCloseAct s).keyValid = s.keyValid := by unfold cbcCloseAct; split <;> simp
@[simp] theorem cbcCloseAct_dataValid (s : State) : (cbcCloseAct s).dataValid = s.dataValid := by unfold cbcCloseAct; split <;> simp
@[simp] theorem cbcCloseAct_wkeyValid (s : State) : (cbcCloseAct s).wkeyValid = s.wkeyValid := by unfold cbcCloseAct; split <;> simp
@[simp] theorem cbcCloseAct_cfg (s : State) : (cbcCloseAct s).cfg = s.cfg := by unfold cbcCloseAct; split <;> simp
@[simp] theorem cbcCloseAct_errcode (s : State) : (cbcCloseAct s).errcode = s.errcode := by unfold cbcCloseAct; split <;> simp
@[simp] theorem cbcCloseAct_errcmd (s : State) : (cbcCloseAct s).errcmd = s.errcmd := by unfold cbcCloseAct; split <;> simp
@[simp] theorem cbcCloseAct_keylen (s : State) : (cbcCloseAct s).keylen = s.keylen := by unfold cbcCloseAct; split <;> simp
@[simp] theorem cbcCloseAct_key (s : State) : (cbcCloseAct s).key = s.key := by unfold cbcCloseAct; split <;> simp
@[simp] theorem cbcCloseAct_wkey (s : State) : (cbcCloseAct s).wkey = s.wkey := by unfold cbcCloseAct; split <;> simp
@[simp] theorem cbcCloseAct_wklen (s : State) : (cbcCloseAct s).wklen = s.wklen := by unfold cbcCloseAct; split <;> simp
@[simp] theorem cbcCloseAct_host (s : State) : (cbcCloseAct s).host = s.host := by unfold cbcCloseAct; split <;> simp
@[simp] theorem cbcCloseAct_busRead (s : State) : (cbcCloseAct s).busRead = s.busRead := by unfold cbcCloseAct; split <;> simp

@[simp] theorem sessAppend_err (s : State) : (sessAppend s).err = s.err := by unfold sessAppend; split <;> (try split) <;> simp
@[simp] theorem sessAppend_cfgValid (s : State) : (sessAppend s).cfgValid = s.cfgValid := by unfold sessAppend; split <;> (try split) <;> simp
@[simp] theorem sessAppend_keyValid (s : State) : (sessAppend s).keyValid = s.keyValid := by unfold sessAppend; split <;> (try split) <;> simp
@[simp] theorem sessAppend_dataValid (s : State) : (sessAppend s).dataValid = s.dataValid := by unfold sessAppend; split <;> (try split) <;> simp
@[simp] theorem sessAppend_wkeyValid (s : State) : (sessAppend s).wkeyValid = s.wkeyValid := by unfold sessAppend; split <;> (try split) <;> simp
@[simp] theorem sessAppend_tfxValid (s : State) : (sessAppend s).tfxValid = s.tfxValid := by unfold sessAppend; split <;> (try split) <;> simp
@[simp] theorem sessAppend_spxValid (s : State) : (sessAppend s).spxValid = s.spxValid := by unfold sessAppend; split <;> (try split) <;> simp
@[simp] theorem sessAppend_phase (s : State) : (sessAppend s).phase = s.phase := by unfold sessAppend; split <;> (try split) <;> simp
@[simp] theorem sessAppend_cfg (s : State) : (sessAppend s).cfg = s.cfg := by unfold sessAppend; split <;> (try split) <;> simp
@[simp] theorem sessAppend_errcode (s : State) : (sessAppend s).errcode = s.errcode := by unfold sessAppend; split <;> (try split) <;> simp
@[simp] theorem sessAppend_errcmd (s : State) : (sessAppend s).errcmd = s.errcmd := by unfold sessAppend; split <;> (try split) <;> simp
@[simp] theorem sessAppend_keylen (s : State) : (sessAppend s).keylen = s.keylen := by unfold sessAppend; split <;> (try split) <;> simp
@[simp] theorem sessAppend_cur (s : State) : (sessAppend s).cur = s.cur := by unfold sessAppend; split <;> (try split) <;> simp
@[simp] theorem sessAppend_rem (s : State) : (sessAppend s).rem = s.rem := by unfold sessAppend; split <;> (try split) <;> simp
@[simp] theorem sessAppend_key (s : State) : (sessAppend s).key = s.key := by unfold sessAppend; split <;> (try split) <;> simp
@[simp] theorem sessAppend_wkey (s : State) : (sessAppend s).wkey = s.wkey := by unfold sessAppend; split <;> (try split) <;> simp
@[simp] theorem sessAppend_wklen (s : State) : (sessAppend s).wklen = s.wklen := by unfold sessAppend; split <;> (try split) <;> simp
@[simp] theorem sessAppend_ivreg (s : State) : (sessAppend s).ivreg = s.ivreg := by unfold sessAppend; split <;> (try split) <;> simp
@[simp] theorem sessAppend_tfK (s : State) : (sessAppend s).tfK = s.tfK := by unfold sessAppend; split <;> (try split) <;> simp
@[simp] theorem sessAppend_tfM (s : State) : (sessAppend s).tfM = s.tfM := by unfold sessAppend; split <;> (try split) <;> simp
@[simp] theorem sessAppend_spK (s : State) : (sessAppend s).spK = s.spK := by unfold sessAppend; split <;> (try split) <;> simp
@[simp] theorem sessAppend_draws (s : State) : (sessAppend s).draws = s.draws := by unfold sessAppend; split <;> (try split) <;> simp
@[simp] theorem sessAppend_host (s : State) : (sessAppend s).host = s.host := by unfold sessAppend; split <;> (try split) <;> simp
@[simp] theorem sessAppend_busRead (s : State) : (sessAppend s).busRead = s.busRead := by unfold sessAppend; split <;> (try split) <;> simp

theorem refuse_of_ok {s : State} (h : s.err = false) (c : Cause) (w : Word) : s.refuse c w = s.recordError c w := by
  simp [State.refuse, h]

theorem refuse_of_err {s : State} (h : s.err = true) (c : Cause) (w : Word) : s.refuse c w = s := by
  simp [State.refuse, h]

end Sys2Proof.Machine
end

