-- ==== Sys2Proof/Laws/Ops.lean ====
section
/-! SUPPORT. What each shared operation can do, once: the course of a command, the refusal, and the operations on DBUF as
reads of single bytes see them. -/

namespace Sys2Proof.Machine

@[simp] theorem firstFailing_nil : firstFailing [] = none := rfl

@[simp] theorem firstFailing_cons (c : Check) (l : List Check) :
    firstFailing (c :: l) = if c.1 then firstFailing l else some c.2 := by
  obtain ⟨ok, k⟩ := c
  rfl

/-- No check fails exactly when each holds. -/
theorem firstFailing_eq_none {l : List Check} : firstFailing l = none ↔ ∀ c ∈ l, c.1 = true := by
  induction l with
  | nil => simp
  | cons c l ih => simp only [firstFailing_cons]; cases h : c.1 <;> simp [h, ih]

theorem guarded_done {w : Word} {checks : List Check} {act : State → State} {s : State} (h : firstFailing checks = none) :
    guarded w checks act s = .next (act s) := by
  simp [guarded, h]

theorem guarded_refused {w : Word} {checks : List Check} {act : State → State} {s : State} {c : Cause}
    (h : firstFailing checks = some c) : guarded w checks act s = .next (s.refuse c w) := by
  simp [guarded, h]

/-- A command with no failing check is Done (00_scope R8). -/
theorem command_done {w : Word} {checks : List Check} {act : State → State} {s : State} (he : s.err = false)
    (h : firstFailing checks = none) : command w checks act s = .next (act s) := by
  simp [command, he, guarded_done h]

/-- A command is refused with the cause of its first failing check (R183, R185). -/
theorem command_refused {w : Word} {checks : List Check} {act : State → State} {s : State} {c : Cause} (he : s.err = false)
    (h : firstFailing checks = some c) : command w checks act s = .next (s.recordError c w) := by
  simp [command, he, guarded_refused h, refuse_of_ok he]

/-- A command is dropped while an error is pending (R184). -/
theorem command_dropped {w : Word} {checks : List Check} {act : State → State} {s : State} (he : s.err = true) :
    command w checks act s = .next s := by
  simp [command, he]

/-- Everything a guarded command can do: it is Done, or refused. -/
theorem guarded_cases {w : Word} {checks : List Check} {act : State → State} {s t : State}
    (h : guarded w checks act s = .next t) :
    (firstFailing checks = none ∧ t = act s) ∨ ∃ c, firstFailing checks = some c ∧ t = s.refuse c w := by
  unfold guarded at h
  split at h
  · next c hc => cases h; exact .inr ⟨c, hc, rfl⟩
  · next hc => cases h; exact .inl ⟨hc, rfl⟩

/-- Everything a command can do: it is dropped, Done, or refused. -/
theorem command_cases {w : Word} {checks : List Check} {act : State → State} {s t : State}
    (h : command w checks act s = .next t) :
    (s.err = true ∧ t = s) ∨ (s.err = false ∧ firstFailing checks = none ∧ t = act s) ∨
      (s.err = false ∧ ∃ c, firstFailing checks = some c ∧ t = s.recordError c w) := by
  cases he : s.err with
  | true => rw [command_dropped he] at h; cases h; exact .inl ⟨rfl, rfl⟩
  | false =>
    unfold command at h
    rw [he] at h
    rcases guarded_cases h with ⟨h1, h2⟩ | ⟨c, h1, h2⟩
    · exact .inr (.inl ⟨rfl, h1, h2⟩)
    · exact .inr (.inr ⟨rfl, c, h1, by rw [h2, refuse_of_ok he]⟩)

/-- A guarded command always gives a next state. -/
theorem guarded_next (w : Word) (checks : List Check) (act : State → State) (s : State) :
    ∃ t, guarded w checks act s = .next t := by
  unfold guarded
  split <;> exact ⟨_, rfl⟩

/-- A command always gives a next state (00_scope R8). -/
theorem command_next (w : Word) (checks : List Check) (act : State → State) (s : State) :
    ∃ t, command w checks act s = .next t := by
  unfold command
  split
  · exact ⟨_, rfl⟩
  · exact guarded_next ..

theorem readBlock_getElem (s : State) (o i : Nat) (h : i < 16) : (s.readBlock o)[i] = s.byteAt (o + i) := by
  simp [State.readBlock]

theorem readBlock_getD (s : State) (o i : Nat) (h : i < 16) (d : Byte) : (s.readBlock o).getD i d = s.byteAt (o + i) := by
  simp [State.readBlock, h]

/-- A specified byte is what a reader gets. -/
theorem byteAt_of_some {s : State} {a : Nat} {b : Byte} (h : s.dbuf? a = some b) : s.byteAt a = b := by
  simp [State.byteAt, h]

theorem dbuf?_forgetTail (s : State) (a : Nat) :
    s.forgetTail.dbuf? a = if a < s.dlen.toNat then s.dbuf? a else none := by
  simp [State.dbuf?, find?_forgetFrom]

/-- The sixteen bytes at `o` are the function's, every other byte is as before (20_memory R42). -/
theorem dbuf?_blockUpdate (f : Block → Block) (o : Nat) (s : State) (a : Nat) :
    (s.blockUpdate f o).dbuf? a =
      if o ≤ a ∧ a < o + 16 then some ((f (s.readBlock o)).getD (a - o) 0) else s.dbuf? a := by
  simp only [State.dbuf?, blockUpdate_dbuf, find?_writeList, Vector.length_toList]
  split
  · next h =>
    have : a - o < 16 := by omega
    simp [Vector.getD, this]
  · rfl

/-- A block update reads what the last one at the same place wrote. -/
theorem readBlock_blockUpdate (f : Block → Block) (o : Nat) (s : State) : (s.blockUpdate f o).readBlock o = f (s.readBlock o) := by
  refine vector_ext fun i hi => ?_
  rw [readBlock_getElem _ _ _ hi]
  have h : (s.blockUpdate f o).dbuf? (o + i) = some ((f (s.readBlock o)).getD (o + i - o) 0) := by
    rw [dbuf?_blockUpdate, if_pos (by omega)]
  rw [byteAt_of_some h]
  simp [Vector.getD, hi]

theorem dbuf?_of_dbuf_eq {s t : State} (h : t.dbuf = s.dbuf) (a : Nat) : t.dbuf? a = s.dbuf? a := by
  simp [State.dbuf?, h]

theorem dbuf?_engineEnc (o : Nat) (s : State) (a : Nat) :
    (engineEnc o s).dbuf? a =
      if o ≤ a ∧ a < o + 16 then
        some (((if s.isSerpent then spEncBlock s.spK else tfEncBlock s.tfK s.tfM) (s.readBlock o)).getD (a - o) 0)
      else s.dbuf? a := by
  unfold engineEnc spEncAct tfEncAct
  cases s.isSerpent <;> simp only [if_true, Bool.false_eq_true, if_false, dbuf?_blockUpdate]

theorem dbuf?_engineDec (o : Nat) (s : State) (a : Nat) :
    (engineDec o s).dbuf? a =
      if o ≤ a ∧ a < o + 16 then
        some (((if s.isSerpent then spDecBlock s.spK else tfDecBlock s.tfK s.tfM) (s.readBlock o)).getD (a - o) 0)
      else s.dbuf? a := by
  unfold engineDec spDecAct tfDecAct
  cases s.isSerpent <;> simp only [if_true, Bool.false_eq_true, if_false, dbuf?_blockUpdate]

end Sys2Proof.Machine
end

