-- ==== Sys2Proof/Laws/Engine.lean ====
section
/-! SUPPORT. What the mode driver's three actions leave in the registers: the fields that CBC.OPEN, CBC.STEP and CBC.CLOSE do
write, each once, by engine and direction; and the four block commands as the one block update they are. -/

namespace Sys2Proof.Machine

@[simp] theorem tfEncAct_eq (o : Nat) (s : State) : tfEncAct o s = s.blockUpdate (tfEncBlock s.tfK s.tfM) o := rfl
@[simp] theorem tfDecAct_eq (o : Nat) (s : State) : tfDecAct o s = s.blockUpdate (tfDecBlock s.tfK s.tfM) o := rfl
@[simp] theorem spEncAct_eq (o : Nat) (s : State) : spEncAct o s = s.blockUpdate (spEncBlock s.spK) o := rfl
@[simp] theorem spDecAct_eq (o : Nat) (s : State) : spDecAct o s = s.blockUpdate (spDecBlock s.spK) o := rfl

@[simp] theorem engineKeyx_tfxValid (s : State) : (engineKeyx s).tfxValid = (!s.isSerpent || s.tfxValid) := by
  unfold engineKeyx; cases h : s.isSerpent <;> simp
@[simp] theorem engineKeyx_spxValid (s : State) : (engineKeyx s).spxValid = (s.isSerpent || s.spxValid) := by
  unfold engineKeyx; cases h : s.isSerpent <;> simp
@[simp] theorem engineKeyx_isSerpent (s : State) : (engineKeyx s).isSerpent = s.isSerpent := by simp [State.isSerpent]
@[simp] theorem engineKeyx_isDecrypt (s : State) : (engineKeyx s).isDecrypt = s.isDecrypt := by simp [State.isDecrypt]

@[simp] theorem engineClose_tfxValid (s : State) : (engineClose s).tfxValid = (s.isSerpent && s.tfxValid) := by
  unfold engineClose; cases h : s.isSerpent <;> simp
@[simp] theorem engineClose_spxValid (s : State) : (engineClose s).spxValid = (!s.isSerpent && s.spxValid) := by
  unfold engineClose; cases h : s.isSerpent <;> simp

@[simp] theorem cbcOpenAct_tfxValid (s : State) : (cbcOpenAct s).tfxValid = (!s.isSerpent || s.tfxValid) := by
  unfold cbcOpenAct; split <;> simp
@[simp] theorem cbcOpenAct_spxValid (s : State) : (cbcOpenAct s).spxValid = (s.isSerpent || s.spxValid) := by
  unfold cbcOpenAct; split <;> simp
@[simp] theorem cbcOpenAct_phase (s : State) : (cbcOpenAct s).phase = .opened := by unfold cbcOpenAct; split <;> simp
@[simp] theorem cbcOpenAct_cur (s : State) : (cbcOpenAct s).cur = 16 := by unfold cbcOpenAct; split <;> simp
@[simp] theorem cbcOpenAct_dlen (s : State) : (cbcOpenAct s).dlen = if s.isDecrypt then s.dlen else s.dlen + 16 := by
  unfold cbcOpenAct; split <;> simp
@[simp] theorem cbcOpenAct_rem (s : State) : (cbcOpenAct s).rem = if s.isDecrypt then s.dlen - 16 else s.dlen := by
  unfold cbcOpenAct; split <;> simp

theorem stepEncrypt_dbuf (s : State) :
    (stepEncrypt s).dbuf =
      (engineEnc s.cur.toNat
        (s.blockUpdate (fun b => xorBlock b (s.readBlock (s.cur.toNat - 16))) s.cur.toNat)).dbuf := by
  simp only [stepEncrypt, advance]
theorem stepDecrypt_dbuf (s : State) :
    (stepDecrypt s).dbuf = ((engineDec s.cur.toNat s).blockUpdate (fun b => xorBlock b s.ivreg) s.cur.toNat).dbuf := by
  simp only [stepDecrypt, advance]

@[simp] theorem cbcStepAct_phase (s : State) : (cbcStepAct s).phase = .stepping := by
  unfold cbcStepAct; split <;> simp [stepEncrypt, stepDecrypt]
@[simp] theorem cbcStepAct_cur (s : State) : (cbcStepAct s).cur = s.cur + 16 := by
  unfold cbcStepAct; split <;> simp [stepEncrypt, stepDecrypt]
@[simp] theorem cbcStepAct_rem (s : State) : (cbcStepAct s).rem = s.dlen - (s.cur + 16) := by
  unfold cbcStepAct; split <;> simp [stepEncrypt, stepDecrypt]

@[simp] theorem cbcCloseAct_tfxValid (s : State) : (cbcCloseAct s).tfxValid = (s.isSerpent && s.tfxValid) := by
  unfold cbcCloseAct; split <;> simp
@[simp] theorem cbcCloseAct_spxValid (s : State) : (cbcCloseAct s).spxValid = (!s.isSerpent && s.spxValid) := by
  unfold cbcCloseAct; split <;> simp
@[simp] theorem cbcCloseAct_phase (s : State) : (cbcCloseAct s).phase = .closed := by unfold cbcCloseAct; split <;> simp
@[simp] theorem cbcCloseAct_cur (s : State) : (cbcCloseAct s).cur = 0 := by unfold cbcCloseAct; split <;> simp
@[simp] theorem cbcCloseAct_rem (s : State) : (cbcCloseAct s).rem = 0 := by unfold cbcCloseAct; split <;> simp

/-- Serpent's open leaves Twofish's expanded key and normalizes WKEY (41_serpent R109). -/
theorem cbcOpenAct_serpent {s : State} (h : s.isSerpent = true) :
    (cbcOpenAct s).tfK = s.tfK ∧ (cbcOpenAct s).tfM = s.tfM ∧ (cbcOpenAct s).spK = spSchedule (spNormalize s.wklen s.wkey) ∧
      (cbcOpenAct s).wkey = spNormalize s.wklen s.wkey ∧ (cbcOpenAct s).wklen = 32 := by
  unfold cbcOpenAct; split <;> simp [engineKeyx, h]

/-- Twofish's open leaves Serpent's expanded key and WKEY (40_twofish R78). -/
theorem cbcOpenAct_twofish {s : State} (h : s.isSerpent = false) :
    (cbcOpenAct s).tfK = tfScheduleK s.wklen s.wkey ∧ (cbcOpenAct s).tfM = tfScheduleM s.wklen s.wkey ∧
      (cbcOpenAct s).spK = s.spK ∧ (cbcOpenAct s).wkey = s.wkey ∧ (cbcOpenAct s).wklen = s.wklen := by
  unfold cbcOpenAct; split <;> simp [engineKeyx, h]

/-- A close leaves the other engine's expanded key (70 R208). -/
theorem cbcCloseAct_serpent {s : State} (h : s.isSerpent = true) :
    (cbcCloseAct s).tfK = s.tfK ∧ (cbcCloseAct s).tfM = s.tfM := by
  unfold cbcCloseAct removePadding; split <;> [split; skip] <;> simp [engineClose, h]

theorem cbcCloseAct_twofish {s : State} (h : s.isSerpent = false) : (cbcCloseAct s).spK = s.spK := by
  unfold cbcCloseAct removePadding; split <;> [split; skip] <;> simp [engineClose, h]

theorem isSerpent_of_cfg {s t : State} (h : t.cfg = s.cfg) : t.isSerpent = s.isSerpent := by simp [State.isSerpent, h]
theorem isDecrypt_of_cfg {s t : State} (h : t.cfg = s.cfg) : t.isDecrypt = s.isDecrypt := by simp [State.isDecrypt, h]
theorem isPkcs7_of_cfg {s t : State} (h : t.cfg = s.cfg) : t.isPkcs7 = s.isPkcs7 := by simp [State.isPkcs7, h]

end Sys2Proof.Machine
end

