-- ==== Sys2Proof/Laws/Exec.lean ====
section
/-! SUPPORT. One form for all commands: the checks and the action of each, and what exec can do in their terms, so that a proof
over all instructions splits into the actions and never unfolds a meaning. -/

namespace Sys2Proof.Machine

/-- The checks of a command, in its rule's order. -/
def checksOf (i : Instr) (s : State) : List Check :=
  match i with
  | .sysReset arg => [checkZ arg]
  | .errAck arg => [checkZ arg]
  | .keyClone arg => [checkZ arg, checkIdle s, checkKey s]
  | .sessCreate _ _ mode pad rsv keybits => [checkCfgFields mode pad rsv, checkKeybits keybits, checkIdle s]
  | .sessExec arg => sessExecChecks arg s
  | .tfKeyx arg => [checkZ arg, checkIdle s, checkWkey s]
  | .tfEncb off => tfBlockChecks (offsetOf off) s
  | .tfDecb off => tfBlockChecks (offsetOf off) s
  | .tfClose arg => [checkZ arg, checkIdle s]
  | .spKeyx arg => [checkZ arg, checkIdle s, checkWkey s]
  | .spEncb off => spBlockChecks (offsetOf off) s
  | .spDecb off => spBlockChecks (offsetOf off) s
  | .spClose arg => [checkZ arg, checkIdle s]
  | .p7Append arg => [checkZ arg, checkIdle s, checkData s, checkAppendFits s]
  | .p7Remove arg => [checkZ arg, checkIdle s, checkData s]
  | .npAppend arg => [checkZ arg, checkIdle s, checkData s]
  | .npRemove arg => [checkZ arg, checkIdle s, checkData s]
  | .cbcOpen arg => [checkZ arg, checkStartable s, checkWkey s, checkData s, checkOpenLength s, checkOpenFits s]
  | .cbcStep arg => [checkZ arg, checkRunning s, checkBlockLeft s]
  | .cbcClose arg => [checkZ arg, checkStepping s, checkAllDone s]

/-- The action of a command, where its checks pass. -/
def actionOf (i : Instr) : State → State :=
  match i with
  | .sysReset _ => sysResetAct
  | .errAck _ => State.acknowledge
  | .keyClone _ => keyCloneAct
  | .sessCreate alg dir mode pad rsv keybits => sessCreateAct (Instr.sessCreate alg dir mode pad rsv keybits).encode
  | .sessExec _ => sessExecAct
  | .tfKeyx _ => tfKeyxAct
  | .tfEncb off => tfEncAct (offsetOf off)
  | .tfDecb off => tfDecAct (offsetOf off)
  | .tfClose _ => tfCloseAct
  | .spKeyx _ => spKeyxAct
  | .spEncb off => spEncAct (offsetOf off)
  | .spDecb off => spDecAct (offsetOf off)
  | .spClose _ => spCloseAct
  | .p7Append _ => p7AppendAct
  | .p7Remove _ => p7RemoveAct
  | .npAppend _ => npAppendAct
  | .npRemove _ => npRemoveAct
  | .cbcOpen _ => cbcOpenAct
  | .cbcStep _ => cbcStepAct
  | .cbcClose _ => cbcCloseAct

/-- Every meaning is the course of a command over its checks and its action. -/
theorem exec_eq (i : Instr) (s : State) :
    exec i s =
      if actsWhileError i then guarded i.encode (checksOf i s) (actionOf i) s
      else command i.encode (checksOf i s) (actionOf i) s := by
  cases i <;> rfl

/-- Everything a command can do: nothing while an error is pending, its action, or a refusal. -/
theorem exec_cases {i : Instr} {s t : State} (h : exec i s = .next t) :
    t = s ∨ (firstFailing (checksOf i s) = none ∧ t = actionOf i s ∧ (s.err = false ∨ actsWhileError i = true)) ∨
      (s.err = false ∧ ∃ c, firstFailing (checksOf i s) = some c ∧ t = s.recordError c i.encode) := by
  rw [exec_eq] at h
  cases ha : actsWhileError i with
  | true =>
    rw [ha, if_pos rfl] at h
    rcases guarded_cases h with ⟨h1, h2⟩ | ⟨c, h1, h2⟩
    · exact .inr (.inl ⟨h1, h2, .inr rfl⟩)
    · cases he : s.err with
      | true => exact .inl (by rw [h2]; simp [State.refuse, he])
      | false => exact .inr (.inr ⟨rfl, c, h1, by rw [h2, refuse_of_ok he]⟩)
  | false =>
    rw [ha, if_neg (by decide)] at h
    rcases command_cases h with ⟨_, h2⟩ | ⟨h1, h2, h3⟩ | ⟨h1, h2⟩
    · exact .inl h2
    · exact .inr (.inl ⟨h2, h3, .inl h1⟩)
    · exact .inr (.inr ⟨h1, h2⟩)

/-- A command whose checks pass is Done (00_scope R8). -/
theorem exec_done {i : Instr} {s : State} (he : s.err = false) (h : firstFailing (checksOf i s) = none) :
    exec i s = .next (actionOf i s) := by
  rw [exec_eq]
  split
  · exact guarded_done h
  · exact command_done he h

/-- A command is refused with the cause of its first failing check (60_exceptions R183, R185). -/
theorem exec_refused {i : Instr} {s : State} {c : Cause} (he : s.err = false) (h : firstFailing (checksOf i s) = some c) :
    exec i s = .next (s.recordError c i.encode) := by
  rw [exec_eq]
  split
  · rw [guarded_refused h, refuse_of_ok he]
  · exact command_refused he h

/-- A command always gives a next state (00_scope R8). -/
theorem exec_next (i : Instr) (s : State) : ∃ t, exec i s = .next t := by
  rw [exec_eq]
  split
  · exact guarded_next ..
  · exact command_next ..

/-- What a reader of a block gets agrees with every specified byte. -/
theorem reads_readBlock (s : State) (o : Nat) : s.reads o (s.readBlock o) := by
  intro i v hi hv
  rw [readBlock_getD _ _ _ hi, byteAt_of_some hv]

theorem runCommands_cons {i : Instr} {is : List Instr} {s t : State} (h : exec i s = .next t) :
    runCommands (i :: is) s = runCommands is t := by
  simp only [runCommands, h]

theorem runCommands_append {is js : List Instr} {s t : State} (h : runCommands is s = .next t) :
    runCommands (is ++ js) s = runCommands js t := by
  induction is generalizing s with
  | nil => simp only [runCommands] at h; cases h; rfl
  | cons i is ih =>
    obtain ⟨u, hu⟩ := exec_next i s
    rw [runCommands_cons hu] at h
    rw [List.cons_append, runCommands_cons hu]
    exact ih h

end Sys2Proof.Machine
end

