-- ==== Sys2Proof/Laws/HostPort.lean ====
section
/-! SUPPORT. The map of the window: which accesses reach a byte of DBUF, and what a host read of one answers. -/

namespace Sys2Proof.Machine

theorem byteRegion_dbuf {off i : Nat} (h : byteRegion off = .dbuf i) : off = 0x1000 + i ∧ i < Config.bufCap := by
  unfold byteRegion at h
  by_cases h1 : off < 0x24 <;> simp only [h1, if_true, if_false, reduceCtorEq] at h
  by_cases h2 : off < 0x40 <;> simp only [h2, if_true, if_false, reduceCtorEq] at h
  by_cases h3 : off < 0x60 <;> simp only [h3, if_true, if_false, reduceCtorEq] at h
  by_cases h4 : off < 0x1000 <;> simp only [h4, if_true, if_false, reduceCtorEq] at h
  by_cases h5 : off - 0x1000 < Config.bufCap <;> simp only [h5, if_true, if_false, reduceCtorEq] at h
  have he : off = 0x1000 + (off - 0x1000) := by omega
  generalize off - 0x1000 = z at h h5 he
  injection h with h
  exact ⟨by rw [← h, he], by rwa [h] at h5⟩

theorem wordRegion_dbuf {off i : Nat} : wordRegion off ≠ .dbuf i := by
  intro h
  unfold wordRegion at h
  by_cases h0 : off = 0x00 <;> simp only [h0, if_true, if_false, reduceCtorEq] at h
  by_cases h1 : off = 0x04 <;> simp only [h1, if_true, if_false, reduceCtorEq] at h
  by_cases h2 : off = 0x08 <;> simp only [h2, if_true, if_false, reduceCtorEq] at h
  by_cases h3 : off = 0x0C <;> simp only [h3, if_true, if_false, reduceCtorEq] at h
  by_cases h4 : off = 0x10 <;> simp only [h4, if_true, if_false, reduceCtorEq] at h
  by_cases h5 : off = 0x14 <;> simp only [h5, if_true, if_false, reduceCtorEq] at h
  by_cases h6 : off = 0x18 <;> simp only [h6, if_true, if_false, reduceCtorEq] at h
  by_cases h7 : off = 0x1C <;> simp only [h7, if_true, if_false, reduceCtorEq] at h
  by_cases h8 : off = 0x20 <;> simp only [h8, if_true, if_false, reduceCtorEq] at h
  by_cases h9 : off < 0x40 <;> simp only [h9, if_true, if_false, reduceCtorEq] at h
  by_cases ha : off < 0x60 <;> simp only [ha, if_true, if_false, reduceCtorEq] at h
  by_cases hb : off < 0x1000 <;> simp only [hb, if_true, if_false, reduceCtorEq] at h
  by_cases hc : off - 0x1000 < Config.bufCap <;> simp only [hc, if_true, if_false, reduceCtorEq] at h

/-- Only a byte access names a byte of DBUF, and the byte it names lies inside the buffer (10_state R26). -/
theorem regionOf_dbuf {width : Width} {off i : Nat} (h : regionOf width off = .dbuf i) :
    width = .byte ∧ off = 0x1000 + i ∧ i < Config.bufCap := by
  cases width with
  | byte => exact ⟨rfl, byteRegion_dbuf h⟩
  | half => cases h
  | word =>
    unfold regionOf at h
    simp only at h
    split at h
    · exact absurd h wordRegion_dbuf
    · cases h

theorem hostByte?_of_lt {s : State} {i : Nat} (h : i < s.dlen.toNat) : s.hostByte? i = s.dbuf? i := if_pos h

theorem hostByte?_of_le {s : State} {i : Nat} (h : s.dlen.toNat ≤ i) : s.hostByte? i = none := if_neg (Nat.not_lt.mpr h)

/-- A host read of a specified byte below DLEN returns it and changes nothing else (10_state R19, 20_memory R44). -/
theorem readDbuf_specified {s : State} {i : Nat} {b : Byte} (hi : i < s.dlen.toNat) (hb : s.dbuf? i = some b) :
    readDbuf i s = { s with busRead := b.setWidth 32 } := by
  unfold readDbuf
  rw [hostByte?_of_lt hi, hb]
  rfl

/-- A host read at or above DLEN, or of a byte no one has written, is a draw (10_state R19, 93 U1). -/
theorem readDbuf_draw {s : State} {i : Nat} (h : s.dlen.toNat ≤ i ∨ s.dbuf? i = none) :
    readDbuf i s = { s with busRead := (Config.freeByte .dbuf s.draws i).setWidth 32, draws := s.draws + 1 } := by
  have hn : s.hostByte? i = none := by
    unfold State.hostByte?
    rcases h with h | h
    · exact if_neg (Nat.not_lt.mpr h)
    · rw [h, ite_self]
  unfold readDbuf
  rw [hn]
  rfl

end Sys2Proof.Machine
end

