-- ==== Sys2Proof/Laws/PerInstr.lean ====
section
/-! SUPPORT. The family RoundTrip: decoding the encoded word of a command gives it back, one lemma per constructor. -/

namespace Sys2Proof.Laws.RoundTrip

/-- Decode undoes encode on `i` (spec 30_encoding R50, R52). -/
def Statement (i : Instr) : Prop := decode i.encode = some i

theorem sysReset (arg : BitVec 24) : Statement (.sysReset arg) := by
  simp [Statement, decode, decodeWord, opcField_encode, argField_encode, Instr.opcode, Instr.argBits]

theorem errAck (arg : BitVec 24) : Statement (.errAck arg) := by
  simp [Statement, decode, decodeWord, opcField_encode, argField_encode, Instr.opcode, Instr.argBits]

theorem keyClone (arg : BitVec 24) : Statement (.keyClone arg) := by
  simp [Statement, decode, decodeWord, opcField_encode, argField_encode, Instr.opcode, Instr.argBits]

theorem sessCreate (alg dir : BitVec 1) (mode pad rsv : BitVec 2) (keybits : BitVec 16) : Statement (.sessCreate alg dir mode pad rsv keybits) := by
  simp [Statement, decode, decodeWord, opcField_encode, Instr.opcode, createFields_encode]

theorem sessExec (arg : BitVec 24) : Statement (.sessExec arg) := by
  simp [Statement, decode, decodeWord, opcField_encode, argField_encode, Instr.opcode, Instr.argBits]

theorem tfKeyx (arg : BitVec 24) : Statement (.tfKeyx arg) := by
  simp [Statement, decode, decodeWord, opcField_encode, argField_encode, Instr.opcode, Instr.argBits]

theorem tfEncb (off : BitVec 24) : Statement (.tfEncb off) := by
  simp [Statement, decode, decodeWord, opcField_encode, argField_encode, Instr.opcode, Instr.argBits]

theorem tfDecb (off : BitVec 24) : Statement (.tfDecb off) := by
  simp [Statement, decode, decodeWord, opcField_encode, argField_encode, Instr.opcode, Instr.argBits]

theorem tfClose (arg : BitVec 24) : Statement (.tfClose arg) := by
  simp [Statement, decode, decodeWord, opcField_encode, argField_encode, Instr.opcode, Instr.argBits]

theorem spKeyx (arg : BitVec 24) : Statement (.spKeyx arg) := by
  simp [Statement, decode, decodeWord, opcField_encode, argField_encode, Instr.opcode, Instr.argBits]

theorem spEncb (off : BitVec 24) : Statement (.spEncb off) := by
  simp [Statement, decode, decodeWord, opcField_encode, argField_encode, Instr.opcode, Instr.argBits]

theorem spDecb (off : BitVec 24) : Statement (.spDecb off) := by
  simp [Statement, decode, decodeWord, opcField_encode, argField_encode, Instr.opcode, Instr.argBits]

theorem spClose (arg : BitVec 24) : Statement (.spClose arg) := by
  simp [Statement, decode, decodeWord, opcField_encode, argField_encode, Instr.opcode, Instr.argBits]

theorem p7Append (arg : BitVec 24) : Statement (.p7Append arg) := by
  simp [Statement, decode, decodeWord, opcField_encode, argField_encode, Instr.opcode, Instr.argBits]

theorem p7Remove (arg : BitVec 24) : Statement (.p7Remove arg) := by
  simp [Statement, decode, decodeWord, opcField_encode, argField_encode, Instr.opcode, Instr.argBits]

theorem npAppend (arg : BitVec 24) : Statement (.npAppend arg) := by
  simp [Statement, decode, decodeWord, opcField_encode, argField_encode, Instr.opcode, Instr.argBits]

theorem npRemove (arg : BitVec 24) : Statement (.npRemove arg) := by
  simp [Statement, decode, decodeWord, opcField_encode, argField_encode, Instr.opcode, Instr.argBits]

theorem cbcOpen (arg : BitVec 24) : Statement (.cbcOpen arg) := by
  simp [Statement, decode, decodeWord, opcField_encode, argField_encode, Instr.opcode, Instr.argBits]

theorem cbcStep (arg : BitVec 24) : Statement (.cbcStep arg) := by
  simp [Statement, decode, decodeWord, opcField_encode, argField_encode, Instr.opcode, Instr.argBits]

theorem cbcClose (arg : BitVec 24) : Statement (.cbcClose arg) := by
  simp [Statement, decode, decodeWord, opcField_encode, argField_encode, Instr.opcode, Instr.argBits]

end Sys2Proof.Laws.RoundTrip
end

