-- ==== Sys2Proof/Tests/Slice0.lean ====
section
/-! SUPPORT. Tests of one operation or one step each, with results from the spec's tables and vectors (95_test_vectors), and
one witness per statement of Obligations.lean: a state and operands that meet its hypotheses together, at the ends of their
ranges. -/

namespace Sys2Proof.Tests

open Sys2Proof.Machine

set_option Elab.async false

/-! ## States to test on -/

/-- A state with every field 0 or empty. -/
def zero : State where
  err := false
  cfgValid := false
  keyValid := false
  dataValid := false
  wkeyValid := false
  tfxValid := false
  spxValid := false
  phase := .none
  cfg := 0
  errcode := 0
  errcmd := 0
  keylen := 0
  dlen := 0
  cur := 0
  rem := 0
  key := table 32 fun _ => 0
  wkey := table 32 fun _ => 0
  wklen := 0
  dbuf := []
  ivreg := table 16 fun _ => 0
  tfK := table 40 fun _ => 0
  tfM := table 4 fun _ => table 256 fun _ => 0
  spK := table 132 fun _ => 0
  draws := 0
  host := []
  busRead := 0

/-- `LOADDATA` of a list of bytes. -/
def load (l : List Byte) (s : State) : State :=
  { s with dbuf := Memory.writeList [] 0 l, dlen := BitVec.ofNat 32 l.length, dataValid := true }

/-- A session stands ready, with CFG as given and a caller's key of 16 bytes. -/
def session (cfg : Word) (s : State) : State :=
  { s with cfg := cfg, cfgValid := true, phase := .created, keyValid := true, keylen := 16 }

/-- The working key is there, 16 bytes of it. -/
def cloned (s : State) : State := { s with wkeyValid := true, wklen := 16 }

/-- A run is open at the first block, both expanded keys valid. -/
def opened (s : State) : State :=
  { cloned s with phase := .opened, tfxValid := true, spxValid := true, cur := 16, rem := s.dlen - 16 }

/-- What a command leaves in the registers: ERR, ERRCODE, ERRCMD, and DLEN, or none where it gives no next state. -/
def outcome (i : Instr) (s : State) : Option (Bool × Word × Word × Word) :=
  match exec i s with
  | .next t => some (t.err, t.errcode, t.errcmd, t.dlen)
  | .fault _ => none
  | .refused _ => none

/-- A field of the state after a command. -/
def field {α : Type} (f : State → α) (i : Instr) (s : State) : Option α :=
  match exec i s with
  | .next t => some (f t)
  | .fault _ => none
  | .refused _ => none

/-- STATUS after a step, with what the last read returned. -/
def afterStep (s : State) : Option (Word × Word) :=
  match step s with
  | .next t => some (statusWord t, t.busRead)
  | .fault _ => none
  | .refused _ => none

/-! ## WellFormed: an ill-formed term for each check (30_encoding R53) -/

theorem test_wellformed_refuses_argument :
    ([.sysReset 1, .errAck 1, .keyClone 0x800000, .sessExec 1, .tfKeyx 0x100, .tfClose 1, .spKeyx 1, .spClose 1, .p7Append 0x100,
      .p7Remove 1, .npAppend 1, .npRemove 1, .cbcOpen 1, .cbcStep 1, .cbcClose 1] : List Instr).all (!·.wellFormed) := by decide

theorem test_wellformed_refuses_reserved_bits : (Instr.sessCreate 0 0 0 0 1 128).wellFormed = false := by decide

theorem test_wellformed_refuses_mode : (Instr.sessCreate 0 0 1 0 0 128).wellFormed = false := by decide

theorem test_wellformed_refuses_pad :
    (Instr.sessCreate 0 0 0 2 0 128).wellFormed = false ∧ (Instr.sessCreate 0 0 0 3 0 128).wellFormed = false := by decide

theorem test_wellformed_refuses_keybits :
    ([0, 64, 100, 129, 512] : List (BitVec 16)).all (fun k => !(Instr.sessCreate 0 0 0 0 0 k).wellFormed) := by decide

theorem test_wellformed_accepts :
    ([.sysReset 0, .tfEncb 0xFFFFFF, .spDecb 1, .sessCreate 1 1 0 1 0 192, .sessCreate 0 0 0 0 0 256] : List Instr).all
      (·.wellFormed) := by decide

/-! ## Decode: one word per command, from 95_test_vectors 3.1 and 3.2 -/

theorem test_decode_format_z :
    ([(0x00000001, .sysReset 0), (0x00000002, .errAck 0), (0x00000003, .keyClone 0), (0x00000009, .sessExec 0),
      (0x00000010, .tfKeyx 0), (0x00000013, .tfClose 0), (0x00000020, .spKeyx 0), (0x00000023, .spClose 0),
      (0x00000030, .p7Append 0), (0x00000031, .p7Remove 0), (0x00000032, .npAppend 0), (0x00000033, .npRemove 0),
      (0x00000040, .cbcOpen 0), (0x00000041, .cbcStep 0), (0x00000042, .cbcClose 0), (0x00010030, .p7Append 0x100)]
      : List (Word × Instr)).all (fun x => decode x.1 == some x.2) := by decide

theorem test_decode_format_o :
    ([(0x00001011, .tfEncb 16), (0x00001012, .tfDecb 16), (0x00002021, .spEncb 32), (0xFFFFFF22, .spDecb 16777215),
      (0x0000F011, .tfEncb 240)] : List (Word × Instr)).all (fun x => decode x.1 == some x.2) := by decide

theorem test_decode_format_c :
    ([(0x00800008, .sessCreate 0 0 0 0 0 128), (0x00800208, .sessCreate 0 1 0 0 0 128), (0x01000108, .sessCreate 1 0 0 0 0 256),
      (0x00C01308, .sessCreate 1 1 0 1 0 192), (0x00C01008, .sessCreate 0 0 0 1 0 192), (0x00801108, .sessCreate 1 0 0 1 0 128),
      (0x00804008, .sessCreate 0 0 0 0 1 128), (0x00402408, .sessCreate 0 0 1 2 0 64)] : List (Word × Instr)).all
      (fun x => decode x.1 == some x.2) := by decide

theorem test_decode_unassigned :
    ([0x00000000, 0x00000004, 0x0000000A, 0x00000014, 0x00000024, 0x00000034, 0x00000043, 0x000000FF, 0x12345600]
      : List Word).all (fun w => decode w == none) := by decide

theorem test_decode_table_word : decodeTableWord 32 0x00001811 = some (.tfEncb 24) := by decide

/-! ## Field arithmetic and the Twofish tables (95_test_vectors 4.1, 4.2; 40_twofish R62) -/

theorem test_gfmul :
    gfmul 0x169 0x5B 0xA9 = 0xD9 ∧ gfmul 0x169 0xEF 0xA9 = 0x39 ∧ gfmul 0x14D 0xA4 0x02 = 0x05 ∧
      gfmul 0x14D 0x9E 0xFF = 0x36 := by decide +kernel

/-- The table of 40_twofish R62, rows 0x to 7x. -/
theorem test_q0_low :
    (List.range 128).map (fun x => qTable 0 (BitVec.ofNat 8 (x))) =
      ([0xA9, 0x67, 0xB3, 0xE8, 0x04, 0xFD, 0xA3, 0x76, 0x9A, 0x92, 0x80, 0x78, 0xE4, 0xDD, 0xD1, 0x38,
        0x0D, 0xC6, 0x35, 0x98, 0x18, 0xF7, 0xEC, 0x6C, 0x43, 0x75, 0x37, 0x26, 0xFA, 0x13, 0x94, 0x48,
        0xF2, 0xD0, 0x8B, 0x30, 0x84, 0x54, 0xDF, 0x23, 0x19, 0x5B, 0x3D, 0x59, 0xF3, 0xAE, 0xA2, 0x82,
        0x63, 0x01, 0x83, 0x2E, 0xD9, 0x51, 0x9B, 0x7C, 0xA6, 0xEB, 0xA5, 0xBE, 0x16, 0x0C, 0xE3, 0x61,
        0xC0, 0x8C, 0x3A, 0xF5, 0x73, 0x2C, 0x25, 0x0B, 0xBB, 0x4E, 0x89, 0x6B, 0x53, 0x6A, 0xB4, 0xF1,
        0xE1, 0xE6, 0xBD, 0x45, 0xE2, 0xF4, 0xB6, 0x66, 0xCC, 0x95, 0x03, 0x56, 0xD4, 0x1C, 0x1E, 0xD7,
        0xFB, 0xC3, 0x8E, 0xB5, 0xE9, 0xCF, 0xBF, 0xBA, 0xEA, 0x77, 0x39, 0xAF, 0x33, 0xC9, 0x62, 0x71,
        0x81, 0x79, 0x09, 0xAD, 0x24, 0xCD, 0xF9, 0xD8, 0xE5, 0xC5, 0xB9, 0x4D, 0x44, 0x08, 0x86, 0xE7] : List Byte) := by decide +kernel

/-- The table of 40_twofish R62, rows 8x to Fx. -/
theorem test_q0_high :
    (List.range 128).map (fun x => qTable 0 (BitVec.ofNat 8 (128 + x))) =
      ([0xA1, 0x1D, 0xAA, 0xED, 0x06, 0x70, 0xB2, 0xD2, 0x41, 0x7B, 0xA0, 0x11, 0x31, 0xC2, 0x27, 0x90,
        0x20, 0xF6, 0x60, 0xFF, 0x96, 0x5C, 0xB1, 0xAB, 0x9E, 0x9C, 0x52, 0x1B, 0x5F, 0x93, 0x0A, 0xEF,
        0x91, 0x85, 0x49, 0xEE, 0x2D, 0x4F, 0x8F, 0x3B, 0x47, 0x87, 0x6D, 0x46, 0xD6, 0x3E, 0x69, 0x64,
        0x2A, 0xCE, 0xCB, 0x2F, 0xFC, 0x97, 0x05, 0x7A, 0xAC, 0x7F, 0xD5, 0x1A, 0x4B, 0x0E, 0xA7, 0x5A,
        0x28, 0x14, 0x3F, 0x29, 0x88, 0x3C, 0x4C, 0x02, 0xB8, 0xDA, 0xB0, 0x17, 0x55, 0x1F, 0x8A, 0x7D,
        0x57, 0xC7, 0x8D, 0x74, 0xB7, 0xC4, 0x9F, 0x72, 0x7E, 0x15, 0x22, 0x12, 0x58, 0x07, 0x99, 0x34,
        0x6E, 0x50, 0xDE, 0x68, 0x65, 0xBC, 0xDB, 0xF8, 0xC8, 0xA8, 0x2B, 0x40, 0xDC, 0xFE, 0x32, 0xA4,
        0xCA, 0x10, 0x21, 0xF0, 0xD3, 0x5D, 0x0F, 0x00, 0x6F, 0x9D, 0x36, 0x42, 0x4A, 0x5E, 0xC1, 0xE0] : List Byte) := by decide +kernel

/-- The table of 40_twofish R62, rows 0x to 7x. -/
theorem test_q1_low :
    (List.range 128).map (fun x => qTable 1 (BitVec.ofNat 8 (x))) =
      ([0x75, 0xF3, 0xC6, 0xF4, 0xDB, 0x7B, 0xFB, 0xC8, 0x4A, 0xD3, 0xE6, 0x6B, 0x45, 0x7D, 0xE8, 0x4B,
        0xD6, 0x32, 0xD8, 0xFD, 0x37, 0x71, 0xF1, 0xE1, 0x30, 0x0F, 0xF8, 0x1B, 0x87, 0xFA, 0x06, 0x3F,
        0x5E, 0xBA, 0xAE, 0x5B, 0x8A, 0x00, 0xBC, 0x9D, 0x6D, 0xC1, 0xB1, 0x0E, 0x80, 0x5D, 0xD2, 0xD5,
        0xA0, 0x84, 0x07, 0x14, 0xB5, 0x90, 0x2C, 0xA3, 0xB2, 0x73, 0x4C, 0x54, 0x92, 0x74, 0x36, 0x51,
        0x38, 0xB0, 0xBD, 0x5A, 0xFC, 0x60, 0x62, 0x96, 0x6C, 0x42, 0xF7, 0x10, 0x7C, 0x28, 0x27, 0x8C,
        0x13, 0x95, 0x9C, 0xC7, 0x24, 0x46, 0x3B, 0x70, 0xCA, 0xE3, 0x85, 0xCB, 0x11, 0xD0, 0x93, 0xB8,
        0xA6, 0x83, 0x20, 0xFF, 0x9F, 0x77, 0xC3, 0xCC, 0x03, 0x6F, 0x08, 0xBF, 0x40, 0xE7, 0x2B, 0xE2,
        0x79, 0x0C, 0xAA, 0x82, 0x41, 0x3A, 0xEA, 0xB9, 0xE4, 0x9A, 0xA4, 0x97, 0x7E, 0xDA, 0x7A, 0x17] : List Byte) := by decide +kernel

/-- The table of 40_twofish R62, rows 8x to Fx. -/
theorem test_q1_high :
    (List.range 128).map (fun x => qTable 1 (BitVec.ofNat 8 (128 + x))) =
      ([0x66, 0x94, 0xA1, 0x1D, 0x3D, 0xF0, 0xDE, 0xB3, 0x0B, 0x72, 0xA7, 0x1C, 0xEF, 0xD1, 0x53, 0x3E,
        0x8F, 0x33, 0x26, 0x5F, 0xEC, 0x76, 0x2A, 0x49, 0x81, 0x88, 0xEE, 0x21, 0xC4, 0x1A, 0xEB, 0xD9,
        0xC5, 0x39, 0x99, 0xCD, 0xAD, 0x31, 0x8B, 0x01, 0x18, 0x23, 0xDD, 0x1F, 0x4E, 0x2D, 0xF9, 0x48,
        0x4F, 0xF2, 0x65, 0x8E, 0x78, 0x5C, 0x58, 0x19, 0x8D, 0xE5, 0x98, 0x57, 0x67, 0x7F, 0x05, 0x64,
        0xAF, 0x63, 0xB6, 0xFE, 0xF5, 0xB7, 0x3C, 0xA5, 0xCE, 0xE9, 0x68, 0x44, 0xE0, 0x4D, 0x43, 0x69,
        0x29, 0x2E, 0xAC, 0x15, 0x59, 0xA8, 0x0A, 0x9E, 0x6E, 0x47, 0xDF, 0x34, 0x35, 0x6A, 0xCF, 0xDC,
        0x22, 0xC9, 0xC0, 0x9B, 0x89, 0xD4, 0xED, 0xAB, 0x12, 0xA2, 0x0D, 0x52, 0xBB, 0x02, 0x2F, 0xA9,
        0xD7, 0x61, 0x1E, 0xB4, 0x50, 0x04, 0xF6, 0xC2, 0x16, 0x25, 0x86, 0x56, 0x55, 0x09, 0xBE, 0x91] : List Byte) := by decide +kernel

theorem test_m_tables :
    mTable 0 0x01 = 0xECEC21F3 ∧ mTable 0 0xFF = 0x1313EF91 ∧ mTable 1 0x01 = 0x67901717 ∧ mTable 1 0xFF = 0xE0D8A8A8 ∧
      mTable 2 0x01 = 0xECF3EC21 ∧ mTable 2 0xFF = 0x139113EF ∧ mTable 3 0x01 = 0x90176790 ∧ mTable 3 0xFF = 0xD8A8E0D8 := by
  decide +kernel

theorem test_rs_word :
    rsWord [1, 0, 0, 0, 0, 0, 0, 0] 0 = 0xA402A401 ∧ rsWord [0, 0, 0, 0, 0, 0, 0, 1] 0 = 0x0319E59E ∧
      rsWord [0x01, 0x23, 0x45, 0x67, 0x89, 0xAB, 0xCD, 0xEF] 0 = 0xB89FF6F2 ∧
      rsWord [0x88, 0x99, 0xAA, 0xBB, 0xCC, 0xDD, 0xEE, 0xFF] 0 = 0x8E4447F7 := by decide +kernel

theorem test_rs_shift_register :
    rsRem 0x67452301 0xEFCDAB89 = 0xB89FF6F2 ∧ rsRem 0xFFFFFFFF 0xFFFFFFFF = 0x0ACA4AB9 := by decide +kernel

theorem test_h_two_words :
    hFun 0 [0, 0] = 0x6F01A38B ∧ hFun 0 [0x67452301, 0x98BADCFE] = 0xA0A9E8F4 ∧
      hFun 0x01010101 [0xEFCDAB89, 0x10325476] = 0xF1E2A682 := by decide +kernel

theorem test_h_three_and_four_words :
    hFun 0x12345678 [1, 2, 3] = 0xE32DCE2A ∧ hFun 0x12345678 [1, 2, 3, 4] = 0xDB05E23D := by decide +kernel

/-- The 32-byte key of 95_test_vectors 4.5. -/
def longKey : Vector Byte 32 :=
  #v[0x01, 0x23, 0x45, 0x67, 0x89, 0xAB, 0xCD, 0xEF, 0xFE, 0xDC, 0xBA, 0x98, 0x76, 0x54, 0x32, 0x10,
    0x00, 0x11, 0x22, 0x33, 0x44, 0x55, 0x66, 0x77, 0x88, 0x99, 0xAA, 0xBB, 0xCC, 0xDD, 0xEE, 0xFF]

theorem test_tf_key_words :
    tfMe (tfKeyBytes 32 longKey) 4 = [0x67452301, 0x98BADCFE, 0x33221100, 0xBBAA9988] ∧
      tfMo (tfKeyBytes 24 longKey) 3 = [0xEFCDAB89, 0x10325476, 0x77665544] ∧
      tfS (tfKeyBytes 32 longKey) 4 = [0x8E4447F7, 0x45661061, 0xB255BC4B, 0xB89FF6F2] := by decide +kernel

theorem test_tf_keyx_long_keys :
    (tfScheduleK 16 longKey).getD 0 0 = 0x83506BE5 ∧ (tfScheduleK 24 longKey).getD 39 0 = 0x6A1AD61E ∧
      (tfScheduleK 32 longKey).getD 1 0 = 0x44D13C60 ∧ (tfScheduleK 32 longKey).getD 38 0 = 0xEE7515E6 := by decide +kernel

/-- The key-dependent tables of the all-zero 16-byte key. -/
def zeroM : Vector (Vector Word 256) 4 := tfScheduleM 16 zero.wkey

theorem test_tf_tables :
    tfLookup zeroM 0 0x01 = 0xF2F2BE98 ∧ tfLookup zeroM 1 0x80 = 0x5AF8D5D5 ∧ tfLookup zeroM 2 0xFF = 0x66AE6631 ∧
      tfLookup zeroM 3 0x01 = 0xC3BDFCC3 := by decide +kernel

theorem test_tf_g : tfG0 zeroM 0x52C54DDE = 0xC06D4949 ∧ tfG1 zeroM 0x11F0626D = 0x41B9BFC1 := by decide +kernel

/-- Rounds 0 and 1 of the trace of 95_test_vectors 4.4. -/
theorem test_tf_first_rounds :
    tfForward zeroM 0x52C54DDE 0x11F0626D 0x7CAC9D4A 0x4D1B4AAA 0xF98FFEF9 0x9C5B3C17 = (0xC38DCAA4, 0x7A0A91B6) ∧
      tfForward zeroM 0xC38DCAA4 0x7A0A91B6 0x52C54DDE 0x11F0626D 0x15A48310 0x342A4D81 = (0x55A538DE, 0x5C5A4DB6) := by
  decide +kernel

/-- Round 15 of the trace, forward and back. -/
theorem test_tf_last_round :
    tfForward zeroM 0xEB27628F 0x2C51191D 0xB0681C46 0x606D0273 0xF298311E 0x696EA672 = (0xC1708BA9, 0x9522A3CE) ∧
      tfInverse zeroM 0xEB27628F 0x2C51191D 0xC1708BA9 0x9522A3CE 0xF298311E 0x696EA672 = (0xB0681C46, 0x606D0273) := by
  decide +kernel

/-- The output words and the bytes written, from the words after round 15. -/
theorem test_tf_output :
    blockOfQuad (xorQuad (tfSwap ⟨0xC1708BA9, 0x9522A3CE, 0xEB27628F, 0x2C51191D⟩)
        ⟨0xB7B83A10, 0x1E7D0BEB, 0xEE9C341F, 0xCFE14BE4⟩) =
      #v[0x9F, 0x58, 0x9F, 0x5C, 0xF6, 0x12, 0x2C, 0x32, 0xB6, 0xBF, 0xEC, 0x2F, 0x2A, 0xE8, 0xC3, 0x5A] := by decide +kernel

/-! ## Serpent (95_test_vectors 5) -/

/-- The input words of 95_test_vectors 5.1. -/
def spInput : Quad := ⟨0x01234567, 0x89ABCDEF, 0xFEDCBA98, 0x76543210⟩

theorem test_sp_boxes_low :
    spS 0 spInput = ⟨0xFFFFFFFF, 0x76543210, 0xFEDCBA98, 0x00000000⟩ ∧
      spS 1 spInput = ⟨0x89ABCDEF, 0x77777777, 0xFFFFFFFF, 0x00000000⟩ ∧
      spS 2 spInput = ⟨0x01234567, 0x88888888, 0x00000000, 0x89ABCDEF⟩ ∧
      spS 3 spInput = ⟨0x00000000, 0xFEDCBA98, 0x88888888, 0x77777777⟩ := by decide +kernel

theorem test_sp_boxes_high :
    spS 4 spInput = ⟨0xFFFFFFFF, 0x89ABCDEF, 0x00000000, 0xFEDCBA98⟩ ∧
      spS 5 spInput = ⟨0xFFFFFFFF, 0x01234567, 0x76543210, 0xFFFFFFFF⟩ ∧
      spS 6 spInput = ⟨0x77777777, 0x88888888, 0xFFFFFFFF, 0x76543210⟩ ∧
      spS 7 spInput = ⟨0x76543210, 0x88888888, 0x00000000, 0x76543210⟩ := by decide +kernel

theorem test_sp_inverse_boxes :
    spSI 0 spInput = ⟨0xFEDCBA98, 0x76543210, 0xFEDCBA98, 0x76543210⟩ ∧
      spSI 3 spInput = ⟨0x01234567, 0x89ABCDEF, 0xFFFFFFFF, 0x00000000⟩ ∧
      spSI 7 spInput = ⟨0x89ABCDEF, 0xFEDCBA98, 0x89ABCDEF, 0xFFFFFFFF⟩ := by decide +kernel

theorem test_sp_boxes_by_equations :
    spBoolean spEquations 1 ⟨0x00000001, 0x00000000, 0x00000000, 0x00000002⟩ =
        ⟨0xFFFFFFFE, 0xFFFFFFFC, 0xFFFFFFFD, 0xFFFFFFFD⟩ ∧
      spBoolean spInverseEquations 7 spInput = ⟨0x89ABCDEF, 0xFEDCBA98, 0x89ABCDEF, 0xFFFFFFFF⟩ := by decide +kernel

theorem test_sp_linear_step :
    spLT ⟨0x80000000, 0, 0, 0⟩ = ⟨0x08060000, 0x00002000, 0x00001400, 0x00400000⟩ ∧
      spLT ⟨0, 0, 1, 0⟩ = ⟨0x00008200, 0x00000010, 0x02000003, 0x00000400⟩ ∧
      spLT spInput = ⟨0x835D3BD5, 0x2FC5F218, 0xC97FDBC8, 0xEB73FBE2⟩ ∧
      spLTI spInput = ⟨0x2EA63FB7, 0xD27BA548, 0x7A2B14CD, 0xCE0320AF⟩ := by decide +kernel

theorem test_sp_normalize :
    spNormalize 3 #v[1, 2, 3, 9, 9, 9, 9, 9, 9, 9, 9, 9, 9, 9, 9, 9, 9, 9, 9, 9, 9, 9, 9, 9, 9, 9, 9, 9, 9, 9, 9, 9] =
        #v[3, 2, 1, 1, 0, 0, 0, 0, 0, 0, 0, 0, 0, 0, 0, 0, 0, 0, 0, 0, 0, 0, 0, 0, 0, 0, 0, 0, 0, 0, 0, 0] ∧
      spNormalize 32 longKey = table 32 (fun i => longKey.getD (31 - i) 0) := by decide +kernel

/-- The first prekeys of the all-zero 16-byte key (95_test_vectors 5.2). -/
theorem test_sp_prekeys :
    (spWords (spNormalize 16 zero.wkey) 8).take 8 =
      [0x5E0C162E, 0x9E0F8FB9, 0x4C164700, 0x2C3795D9, 0xF0B8BE61, 0xE9C4A25C, 0xD5AA412F, 0xBBCDCCF1] := by decide +kernel

/-- SP_K of the all-zero 16-byte key: the quadruples 0, 1 and 32 (95_test_vectors 5.2). -/
theorem test_sp_keyx :
    spKeyQuad (spSchedule (spNormalize 16 zero.wkey)) 0 = ⟨0x6F579DD2, 0xA7A3A3CE, 0xF29990ED, 0x8ED77392⟩ ∧
      spKeyQuad (spSchedule (spNormalize 16 zero.wkey)) 1 = ⟨0x80125B0E, 0xEC264D48, 0x6023C3D7, 0x41D3A19F⟩ ∧
      spKeyQuad (spSchedule (spNormalize 16 zero.wkey)) 32 = ⟨0x5DBA09C8, 0x0735E815, 0x86801046, 0x4AF628F4⟩ := by
  decide +kernel

/-- Round 0 and round 31 of the trace of 95_test_vectors 5.3, the round keys put in by hand. -/
theorem test_sp_rounds :
    xorQuad (spLT (spS 0 ⟨0x6F579DD2, 0xA7A3A3CE, 0xF29990ED, 0x8ED77392⟩))
        ⟨0x80125B0E, 0xEC264D48, 0x6023C3D7, 0x41D3A19F⟩ = ⟨0xE4EFE568, 0x8232CC33, 0x5586D703, 0x8CEB582B⟩ ∧
      xorQuad (spS 7 ⟨0x7F7EDF22, 0x5BA4D073, 0xD7E20727, 0x54364184⟩)
        ⟨0x5DBA09C8, 0x0735E815, 0x86801046, 0x4AF628F4⟩ = ⟨0x7AB12036, 0xD093A9E6, 0x76B81896, 0xE9BA6682⟩ := by
  decide +kernel

theorem test_sp_store :
    spStore ⟨0x7AB12036, 0xD093A9E6, 0x76B81896, 0xE9BA6682⟩ =
      #v[0xE9, 0xBA, 0x66, 0x82, 0x76, 0xB8, 0x18, 0x96, 0xD0, 0x93, 0xA9, 0xE6, 0x7A, 0xB1, 0x20, 0x36] ∧
    spLoad #v[0xE9, 0xBA, 0x66, 0x82, 0x76, 0xB8, 0x18, 0x96, 0xD0, 0x93, 0xA9, 0xE6, 0x7A, 0xB1, 0x20, 0x36] =
      ⟨0x7AB12036, 0xD093A9E6, 0x76B81896, 0xE9BA6682⟩ := by decide +kernel

/-! ## The block commands (95_test_vectors 4.6, 5.5) -/

/-- Forty bytes 00 01 .. 27 and both expanded keys valid. -/
def forty : State := { load (listFrom (BitVec.ofNat 8) 40 0) zero with tfxValid := true, spxValid := true }

theorem test_tf_encb_last_offset : outcome (.tfEncb 24) forty = some (false, 0, 0, 40) := by decide +kernel

theorem test_tf_encb_beyond : outcome (.tfEncb 25) forty = some (true, 0x061, 0x00001911, 40) := by decide +kernel

theorem test_tf_decb_no_key : outcome (.tfDecb 0) { forty with tfxValid := false } = some (true, 0x0B1, 0x00000012, 40) := by
  decide +kernel

/-- The bytes outside the block stay (an offset need not be a multiple of 16). -/
theorem test_tf_decb_frame :
    field (fun t => (t.dbuf? 2, t.dbuf? 19, t.dbuf?  40)) (.tfDecb 3) forty = some (some 2, some 19, none) := by decide +kernel

theorem test_sp_encb_no_key : outcome (.spEncb 0) { forty with spxValid := false } = some (true, 0x0B1, 0x00000021, 40) := by
  decide +kernel

theorem test_sp_encb_beyond :
    outcome (.spEncb 1) { forty with dlen := 16 } = some (true, 0x061, 0x00000121, 16) := by decide +kernel

theorem test_sp_decb_largest_offset :
    outcome (.spDecb 0xFFFFFF) forty = some (true, 0x061, 0xFFFFFF22, 40) := by decide +kernel

theorem test_sp_decb_no_data :
    outcome (.spDecb 0) { zero with spxValid := true } = some (true, 0x021, 0x00000022, 0) := by decide +kernel

/-! ## Keys and engines -/

/-- 10_state R19 and U1 of 93: below DLEN the byte is read back; the same byte stored at or above DLEN is not, the read is a draw. -/
theorem test_read_dbuf_at_dlen :
    (readDbuf 1 (load [7, 9] zero)).busRead = 9 ∧
      (readDbuf 1 { load [7, 9] zero with dlen := 1 }).busRead = (Config.freeByte .dbuf zero.draws 1).setWidth 32 :=
  ⟨rfl, rfl⟩

theorem test_key_clone_absent : outcome (.keyClone 0) zero = some (true, 0x011, 0x00000003, 0) := by decide +kernel

/-- The bytes below KEYLEN are copied, the others are not zeroed: they hold no specified value. -/
theorem test_key_clone :
    field (fun t => (t.wkeyValid, t.wklen, t.wkey.getD 0 0, t.wkey.getD 2 0)) (.keyClone 0)
      { zero with keyValid := true, keylen := 3, key := longKey } = some (true, 3, 0x01, 0x45) := by decide +kernel

theorem test_tf_keyx_absent : outcome (.tfKeyx 0) zero = some (true, 0x011, 0x00000010, 0) := by decide +kernel

theorem test_tf_keyx :
    field (fun t => (t.tfxValid, t.spxValid, t.tfK.getD 0 0, t.wklen)) (.tfKeyx 0) (cloned zero) =
      some (true, false, 0x52C54DDE, 16) := by decide +kernel

theorem test_sp_keyx_absent : outcome (.spKeyx 0) zero = some (true, 0x011, 0x00000020, 0) := by decide +kernel

/-- SP.KEYX mutates WKEY and WKLEN (95_test_vectors 5.2). -/
theorem test_sp_keyx_mutates :
    field (fun t => (t.spxValid, t.wklen, t.wkey.getD 15 9, t.wkey.getD 16 9, t.wkey.getD 17 9)) (.spKeyx 0) (cloned zero) =
      some (true, 32, 0, 1, 0) := by decide +kernel

theorem test_tf_close : field (fun t => (t.tfxValid, t.spxValid)) (.tfClose 0) forty = some (false, true) := by decide +kernel

theorem test_tf_close_in_a_run : outcome (.tfClose 0) (opened forty) = some (true, 0x071, 0x00000013, 40) := by decide +kernel

theorem test_sp_close : field (fun t => (t.tfxValid, t.spxValid)) (.spClose 0) forty = some (true, false) := by decide +kernel

theorem test_sp_close_argument : outcome (.spClose 1) forty = some (true, 0x061, 0x00000123, 40) := by decide +kernel

/-! ## Padding (95_test_vectors 6) -/

theorem test_p7_append :
    (p7AppendAct (load [0x41, 0x42, 0x43] zero)).dbuf =
      [(0, 0x41), (1, 0x42), (2, 0x43), (3, 0x0D), (4, 0x0D), (5, 0x0D), (6, 0x0D), (7, 0x0D), (8, 0x0D), (9, 0x0D), (10, 0x0D),
        (11, 0x0D), (12, 0x0D), (13, 0x0D), (14, 0x0D), (15, 0x0D)] ∧
    (p7AppendAct (load [] zero)).dbuf? 15 = some 0x10 ∧ (p7AppendAct { zero with dlen := 16 }).dlen = 32 := by decide +kernel

/-- No room for the padding block: CAPACITY (with BUF_CAP bytes loaded). -/
theorem test_p7_append_capacity :
    exec (.p7Append 0) { zero with dlen := BitVec.ofNat 32 Config.bufCap, dataValid := true } =
      .next (State.recordError .capacity 0x00000030 { zero with dlen := BitVec.ofNat 32 Config.bufCap, dataValid := true }) := by
  refine exec_refused (i := .p7Append 0) rfl ?_
  have h1 := bufCap_mod
  have h2 := bufCap_lt
  have h3 : (BitVec.ofNat 32 Config.bufCap).toNat = Config.bufCap := by rw [BitVec.toNat_ofNat]; omega
  simp only [checksOf, checkAppendFits, p7Count, h3, h1]
  simp [checkZ, WellFormed.argZero, checkIdle, State.isIdle, checkData, zero]

theorem test_p7_remove :
    ([([0x41, 0x42, 0x43, 0x01], 3), ([0x41, 0x42, 0x07, 0x05, 0x03], 2), ([0x41, 0x42, 0x43, 0x00], 3), ([0x09, 0x09], 0), ([], 0),
      ([0x10], 0), ([0x10, 0x10, 0x10, 0x10, 0x10, 0x10, 0x10, 0x10, 0x10, 0x10, 0x10, 0x10, 0x10, 0x10, 0x10, 0x10], 0)]
      : List (List Byte × Word)).all (fun x => outcome (.p7Remove 0) (load x.1 zero) == some (false, 0, 0, x.2)) := by
  decide +kernel

/-- V-PAD-6: a marker above 16 removes one byte and is no error. -/
theorem test_p7_remove_large_marker :
    outcome (.p7Remove 0) (load [0x41, 0x42, 0x43, 0x11] zero) = some (false, 0, 0, 3) ∧
      outcome (.p7Remove 0) (load [0x41, 0x42, 0x43, 0xFF] zero) = some (false, 0, 0, 3) := by decide +kernel

theorem test_np_append : outcome (.npAppend 0) (load [0x41, 0x42, 0x43] zero) = some (false, 0, 0, 3) := by decide +kernel

theorem test_np_append_no_data : outcome (.npAppend 0) zero = some (true, 0x021, 0x00000032, 0) := by decide +kernel

theorem test_np_remove : outcome (.npRemove 0) (load [0x41, 0x42, 0x43, 0x03] zero) = some (false, 0, 0, 4) := by decide +kernel

theorem test_np_remove_argument : outcome (.npRemove 1) zero = some (true, 0x061, 0x00000133, 0) := by decide +kernel

/-! ## Session and mode driver (95_test_vectors 7) -/

theorem test_sess_create :
    field (fun t => (t.cfg, statusWord t, t.cur, t.rem)) (.sessCreate 1 1 0 1 0 192) zero = some (0x00C01300, 0x102, 0, 0) := by
  decide +kernel

/-- CFG is checked before KEYBITS, and KEYBITS before PHASE. -/
theorem test_sess_create_refused :
    outcome (.sessCreate 0 0 1 2 0 64) zero = some (true, 0x041, 0x00402408, 0) ∧
      outcome (.sessCreate 0 0 0 0 0 100) (opened zero) = some (true, 0x031, 0x00640008, 0) := by decide +kernel

/-- S1, S2 and S5 of 95_test_vectors 7.5, in the order of R160. -/
theorem test_sess_exec_absent :
    outcome (.sessExec 0) zero = some (true, 0x0C1, 0x00000009, 0) ∧
      outcome (.sessExec 0) { session 0x00800000 zero with keyValid := false } = some (true, 0x011, 0x00000009, 0) ∧
      outcome (.sessExec 0) { session 0x00800000 zero with keylen := 24 } = some (true, 0x021, 0x00000009, 0) := by
  decide +kernel

/-- S4, S8 and S9 of 95_test_vectors 7.5. -/
theorem test_sess_exec_lengths :
    outcome (.sessExec 0) { session 0x00800000 (load [1] zero) with keylen := 24 } = some (true, 0x081, 0x00000009, 1) ∧
      outcome (.sessExec 0) { session 0x00800200 (load [] zero) with dlen := 16 } = some (true, 0x091, 0x00000009, 16) ∧
      outcome (.sessExec 0) { session 0x00800200 (load [] zero) with dlen := 33 } = some (true, 0x091, 0x00000009, 33) := by
  decide +kernel

/-- The second part of the run of V-CBC-1d: from the buffer before the close (row 7 of its table) the close leaves the three
bytes. -/
theorem test_cbc_close_decrypt :
    field (fun t => (t.dbuf, t.dlen, statusWord t)) (.cbcClose 0)
      { opened (session 0x00800200 (load [0, 1, 2, 3, 4, 5, 6, 7, 8, 9, 10, 11, 12, 13, 14, 15, 0x41, 0x42, 0x43, 0x0D, 0x0D, 0x0D,
          0x0D, 0x0D, 0x0D, 0x0D, 0x0D, 0x0D, 0x0D, 0x0D, 0x0D, 0x0D] zero)) with
        phase := .stepping, cur := 32, rem := 0, spxValid := false } =
      some ([(0, 0x41), (1, 0x42), (2, 0x43)], 3, 0x41E) := by decide +kernel

/-- V-CBC-4d: under NoPadding the zero bytes at the end are trimmed (43_cbc R148). -/
theorem test_cbc_close_trims_zeros :
    outcome (.cbcClose 0)
      { opened (session 0x00801200 (load [0, 1, 2, 3, 4, 5, 6, 7, 8, 9, 10, 11, 12, 13, 14, 15, 0x00, 0x11, 0x22, 0x33, 0x44, 0x55,
          0x66, 0x77, 0x88, 0x99, 0xAA, 0xBB, 0xCC, 0xDD, 0x00, 0x00] zero)) with
        phase := .stepping, cur := 32, rem := 0 } = some (false, 0, 0, 14) := by decide +kernel

/-- A session that decrypts with Serpent, its expanded key all zero, and two blocks. -/
def decrypting : State := session 0x00801300 { forty with dlen := 32 }

/-- CBC.OPEN in direction Decrypt takes the first block as the IV (43_cbc R142). -/
theorem test_cbc_open_decrypt :
    field (fun t => (t.ivreg.getD 0 9, t.ivreg.getD 15 9, t.cur, t.rem, t.dlen)) (.cbcOpen 0) (cloned decrypting) =
      some (0, 15, 16, 16, 32) := by decide +kernel

theorem test_cbc_open_refused :
    outcome (.cbcOpen 0) zero = some (true, 0x0C1, 0x00000040, 0) ∧
      outcome (.cbcOpen 0) (session 0x00800000 (load [1] zero)) = some (true, 0x011, 0x00000040, 1) ∧
      outcome (.cbcOpen 0) (cloned (session 0x00800000 (load [1, 2, 3] zero))) = some (true, 0x091, 0x00000040, 3) := by
  decide +kernel

/-- CBC.STEP in direction Decrypt keeps the ciphertext block as the next IV and moves CUR and REM (43_cbc R145). -/
theorem test_cbc_step_decrypt :
    field (fun t => (t.ivreg.getD 0 9, t.ivreg.getD 15 9, t.cur, t.rem, t.dbuf? 15)) (.cbcStep 0) (opened decrypting) =
      some (16, 31, 32, 0, some 15) := by decide +kernel

theorem test_cbc_step_refused :
    outcome (.cbcStep 0) { decrypting with phase := .created } = some (true, 0x071, 0x00000041, 32) ∧
      outcome (.cbcStep 0) { opened decrypting with phase := .stepping, cur := 32 } = some (true, 0x091, 0x00000041, 32) := by
  decide +kernel

theorem test_cbc_close_refused :
    outcome (.cbcClose 0) (opened decrypting) = some (true, 0x071, 0x00000042, 32) ∧
      outcome (.cbcClose 0) { opened decrypting with phase := .stepping } = some (true, 0x091, 0x00000042, 32) := by
  decide +kernel

/-! ## Errors, reset, the host port (95_test_vectors 8, 10; 10_state R26) -/

/-- X2: an error is pending. -/
def pending : State := { zero with err := true, errcode := 0x061, errcmd := 0x00000109 }

theorem test_err_ack : outcome (.errAck 0) pending = some (false, 0, 0, 0) ∧ outcome (.errAck 0) zero = some (false, 0, 0, 0) := by
  decide +kernel

theorem test_err_ack_argument :
    outcome (.errAck 1) pending = some (true, 0x061, 0x00000109, 0) ∧ outcome (.errAck 1) zero = some (true, 0x061, 0x00000102, 0) := by
  decide +kernel

theorem test_sys_reset :
    field (fun t => (statusWord t, t.dlen, t.cfg, t.dbuf.length, t.wklen)) (.sysReset 0) (opened decrypting) =
      some (0, 0, 0, 0, 0) ∧ field statusWord (.sysReset 0) pending = some 0 := by decide +kernel

theorem test_sys_reset_argument : outcome (.sysReset 1) zero = some (true, 0x061, 0x00000101, 0) := by decide +kernel

/-- X12: a command is dropped while an error is pending; X13, X14: host writes are not. -/
theorem test_pending_error :
    outcome (.sessCreate 0 0 0 0 0 128) pending = some (true, 0x061, 0x00000109, 0) ∧
      afterStep { pending with host := [.write .word 0x14 16] } = some (0x005, 0) ∧
      afterStep { pending with host := [.write .word 0x14 33] } = some (0x001, 0) := by decide +kernel

/-- X1, X5: an opcode outside the map, and a refused host write. -/
theorem test_refused_accesses :
    (step { zero with host := [commandAccess 0] } = .next { zero with err := true, errcode := 0x051, errcmd := 0 }) ∧
      (step { zero with host := [.write .word 0x14 33] } =
        .next { zero with err := true, errcode := 0x081, errcmd := 0x000014FF }) := by constructor <;> rfl

/-- X19: a host write of DLEN while a run is open. -/
theorem test_dlen_in_a_run :
    afterStep { opened decrypting with spxValid := false, host := [.write .word 0x18 16] } = some (0x23F, 0) := by decide +kernel

theorem test_register_reads :
    afterStep { decrypting with host := [.read .word 0x04] } = some (0x16E, 0x16E) ∧
      afterStep { decrypting with host := [.read .word 0x10] } = some (0x16E, 0x00801300) ∧
      afterStep { decrypting with host := [.read .byte 0x5F] } = some (0x16E, 0) ∧
      afterStep { zero with host := [.read .word 0x20] } = some (0, 0) := by decide +kernel

theorem test_unlisted_accesses :
    step { zero with host := [.read .half 0] } = .refused (.unlistedAccess .half 0) ∧
      step { zero with host := [.write .byte 0 1] } = .refused (.unlistedAccess .byte 0) ∧
      step { zero with host := [.read .word 0x1E] } = .refused (.unlistedAccess .word 0x1E) := ⟨rfl, rfl, rfl⟩

theorem test_fetch_word : afterStep (State.withFetchWord zero 32 0x00800008) = some (0x102, 0) := by decide +kernel

/-! ## Known answers (95_test_vectors 2, 4.3, 5.2): the published values for the all-zero key and block -/

/-- TF_K of the all-zero 16-byte key, as 95_test_vectors 4.3 prints it. -/
def zeroTfK : Vector Word 40 :=
  #v[0x52C54DDE, 0x11F0626D, 0x7CAC9D4A, 0x4D1B4AAA, 0xB7B83A10, 0x1E7D0BEB, 0xEE9C341F, 0xCFE14BE4,
    0xF98FFEF9, 0x9C5B3C17, 0x15A48310, 0x342A4D81, 0x424D89FE, 0xC14724A7, 0x311B834C, 0xFDE87320,
    0x3302778F, 0x26CD67B4, 0x7A6C6362, 0xC2BAF60E, 0x3411B994, 0xD972C87F, 0x84ADB1EA, 0xA7DEE434,
    0x54D2960F, 0xA2F7CAA8, 0xA6B8FF8C, 0x8014C425, 0x6A748D1C, 0xEDBAF720, 0x928EF78C, 0x0338EE13,
    0x9949D6BE, 0xC8314176, 0x07C07D68, 0xECAE7EA7, 0x1FE71844, 0x85C05C89, 0xF298311E, 0x696EA672]

theorem test_tf_keyx_zero_key : tfScheduleK 16 zero.wkey = zeroTfK := by decide +kernel

/-- V-TF-3. -/
theorem test_tf_known_answer :
    tfEncBlock zeroTfK zeroM (table 16 fun _ => 0) =
      #v[0x9F, 0x58, 0x9F, 0x5C, 0xF6, 0x12, 0x2C, 0x32, 0xB6, 0xBF, 0xEC, 0x2F, 0x2A, 0xE8, 0xC3, 0x5A] := by decide +kernel

/-- SP_K of the all-zero 16-byte key, as 95_test_vectors 5.2 prints it. -/
def zeroSpK : Vector Word 132 :=
  #v[0x6F579DD2, 0xA7A3A3CE, 0xF29990ED, 0x8ED77392, 0x80125B0E, 0xEC264D48, 0x6023C3D7, 0x41D3A19F,
    0xF8C9EA64, 0x85E629C5, 0xEDC06A3C, 0x5208C226, 0x996EDCA3, 0x87C0E675, 0x28D9D59C, 0x0A69F259,
    0x3B9094E6, 0x0B918E16, 0xEB3F3D7A, 0x81A43B80, 0xDE2068FE, 0x3C0A592A, 0x6987F660, 0xB85C1049,
    0x57FE226C, 0x7E01D297, 0xFE13D038, 0x145FB65A, 0x4F5DF0C5, 0x6648582B, 0xC385F12F, 0x984381B0,
    0x447BCF29, 0x68941F24, 0x523B25D2, 0x086144F0, 0xF45443F8, 0x9FE43D24, 0x9CB5B319, 0x3EDA4321,
    0xB4146DD5, 0x2CD8083E, 0x9ED2F57F, 0x6E55B8B8, 0x94D3397A, 0xC6E90A6F, 0x9F35D452, 0x39146B55,
    0xFCF11184, 0x357BA27F, 0xD1E4E6D0, 0x2EBF4F5E, 0x2EAA8274, 0xDE5A7089, 0xE2FF0356, 0x17482FFC,
    0xEEB5BB44, 0xEE77BDE8, 0x7ECC739D, 0x357BA7EC, 0x755C9A06, 0x0DBD73D7, 0x5A16A42E, 0xBD4253F7,
    0xCAE3885C, 0xA594CC7A, 0x6487DE0E, 0x83CB2331, 0x213C9FBB, 0x106C6AF8, 0x0C9C9F4C, 0xD554B5CC,
    0x656F9008, 0x85DB98CE, 0x04EC632B, 0x83F0FD5E, 0x9C72345E, 0x0C547D37, 0x3C580E7B, 0x68C52253,
    0x5A8033F3, 0xF0F5C3FF, 0xA17AAC1D, 0x48D929C1, 0x7275B839, 0xBCD32557, 0x6242379F, 0x9F18AEF2,
    0x3E641FBF, 0x2BF25532, 0xD80D8936, 0x7A38E7A8, 0x75878446, 0x3B59AFDD, 0x6F9A2417, 0xD374C9E8,
    0x92372BC2, 0x0FE107A2, 0x7EA908D8, 0xD2F3EC0F, 0x7AFE62EF, 0x3D876138, 0x8E783EB4, 0x3313E04D,
    0x7B554140, 0x3B1C350D, 0xA75C40ED, 0xDCAB53AF, 0xAD845CA5, 0x24BBD3F9, 0x53BD7CB2, 0x5149D6C4,
    0x4E10EE30, 0xCF3BE057, 0xFABC555C, 0x8B4276E9, 0x6F4408EC, 0x1CD43A6D, 0xA021E8FD, 0x6169BCC0,
    0x4D0A99C5, 0xC9E96286, 0xFA234C4E, 0x92541CDB, 0x1F08F310, 0x7AAF29B2, 0xEBF4E180, 0xC23175A7,
    0x5DBA09C8, 0x0735E815, 0x86801046, 0x4AF628F4]

/-- V-SP-1, under the expanded key of 95_test_vectors 5.2. -/
theorem test_sp_known_answer :
    spEncBlock zeroSpK (table 16 fun _ => 0) =
      #v[0xE9, 0xBA, 0x66, 0x82, 0x76, 0xB8, 0x18, 0x96, 0xD0, 0x93, 0xA9, 0xE6, 0x7A, 0xB1, 0x20, 0x36] := by decide +kernel

/-! ## Witnesses: every statement's hypotheses are met together -/

/-- BUF_CAP is below the largest 32-bit value. -/
theorem bufCap_lt_max : Config.bufCap < 4294967295 := by unfold Config.bufCap; omega

theorem witness_EncodeDecodeRoundTrip : decode 0x01000108 = some (.sessCreate 1 0 0 0 0 256) := by decide

/-- One word for each clause of R53. -/
theorem witness_IllegalWordsRefused :
    zero.err = false ∧
    ((0x000000FF : Word).extractLsb' 0 8 ∉ ([0x01, 0x02, 0x03, 0x08, 0x09, 0x10, 0x11, 0x12, 0x13, 0x20, 0x21, 0x22, 0x23, 0x30,
        0x31, 0x32, 0x33, 0x40, 0x41, 0x42] : List (BitVec 8))) ∧
    (decode 0x80000042 = some (.cbcClose 0x800000) ∧ commandFormat (.cbcClose 0x800000) = .z ∧
      (0x80000042 : Word).extractLsb' 8 24 ≠ 0) ∧
    ((0x00803008 : Word).extractLsb' 0 8 = 0x08 ∧ (0x00803008 : Word).extractLsb' 12 2 = 3) ∧
    ((0x00804008 : Word).extractLsb' 0 8 = 0x08 ∧ (0x00804008 : Word).extractLsb' 14 2 ≠ 0) ∧
    ((0x00811008 : Word).extractLsb' 0 8 = 0x08 ∧ (0x00811008 : Word).extractLsb' 14 2 = 0 ∧
      (0x00811008 : Word).extractLsb' 10 2 = 0 ∧ (0x00811008 : Word).extractLsb' 12 2 = 1 ∧
      (0x00811008 : Word).extractLsb' 16 16 ≠ 128 ∧ (0x00811008 : Word).extractLsb' 16 16 ≠ 192 ∧
      (0x00811008 : Word).extractLsb' 16 16 ≠ 256) := by decide

theorem witness_StepRunsDecodedCommand :
    { zero with host := [commandAccess 0x00000001] }.host = commandAccess 0x00000001 :: [] ∧
      decode 0x00000001 = some (.sysReset 0) ∧ { pending with host := [commandAccess 0] }.host = commandAccess 0 :: [] ∧
      decode 0 = none ∧ zero.err = false ∧ pending.err = true := by decide +kernel

theorem witness_IdleStepWaits : zero.host = [] := rfl

/-- The hypothesis of the second clause, and the places where the map of R26 changes, on either side. -/
theorem witness_StepStopsOnlyAtUnlistedAccess :
    step { zero with host := [.read .byte 0x23] } = .refused (.unlistedAccess .byte 0x23) ∧
      regionOf .byte 0x24 = .reserved ∧ regionOf .byte 0x3F = .reserved ∧ regionOf .byte 0x40 = .key 0 ∧
      regionOf .byte 0x60 = .reserved ∧ regionOf .word 0x3C = .reserved ∧ regionOf .word 0x40 = .unlisted ∧
      regionOf .word 0x5C = .unlisted ∧ regionOf .word 0x60 = .reserved ∧ regionOf .word 0x21 = .unlisted ∧
      regionOf .word 0xFFC = .reserved ∧ regionOf .half 0x20 = .unlisted := by
  refine ⟨rfl, ?_⟩
  decide +kernel

theorem witness_StepStops_buffer :
    regionOf .byte 0x102F = .dbuf 47 ∧ regionOf .word 0x102C = .unlisted ∧
      regionOf .byte (0x1000 + Config.bufCap) = .reserved := by
  have h := bufCap_ge
  refine ⟨?_, ?_, ?_⟩
  · show (if 47 < Config.bufCap then Region.dbuf 47 else .reserved) = _
    rw [if_pos (by omega)]
  · show (if 44 < Config.bufCap then Region.unlisted else .reserved) = _
    rw [if_pos (by omega)]
  · show byteRegion (0x1000 + Config.bufCap) = _
    unfold byteRegion
    rw [if_neg (by omega), if_neg (by omega), if_neg (by omega), if_neg (by omega), if_neg (by omega)]

theorem witness_RegisterReads :
    { zero with host := [.read .word 0x20] }.host = .read .word 0x20 :: [] ∧
      { zero with host := [.read .byte 0x40] }.host = .read .byte 0x40 :: [] ∧
      { zero with host := [.read .byte 0x5F] }.host = .read .byte 0x5F :: [] := by decide +kernel

/-- The first byte of DBUF, specified; the same byte stored with DLEN = 0; the 48th byte, below DLEN and never written. -/
theorem witness_DataByteRead :
    ({ load [7] zero with host := [.read .byte (0x1000 + 0)] }.host = .read .byte (0x1000 + 0) :: [] ∧
      0 < (load [7] zero).dlen.toNat ∧ (load [7] zero).dbuf? 0 = some 7) ∧
      ({ load [7] zero with dlen := 0, host := [.read .byte (0x1000 + 0)] }.host = .read .byte (0x1000 + 0) :: [] ∧
        { load [7] zero with dlen := 0 }.dlen.toNat ≤ 0 ∧ { load [7] zero with dlen := 0 }.dbuf? 0 = some 7) ∧
      ({ zero with dlen := 48, host := [.read .byte (0x1000 + 47)] }.host = .read .byte (0x1000 + 47) :: [] ∧
        47 < { zero with dlen := 48 }.dlen.toNat ∧ { zero with dlen := 48 }.dbuf? 47 = none ∧ 47 < Config.bufCap) :=
  ⟨⟨rfl, by decide, rfl⟩, ⟨rfl, by decide, rfl⟩, rfl, by decide, rfl, bufCap_ge⟩

theorem witness_KeylenWrite :
    { zero with host := [.write .word 0x14 32] }.host = .write .word 0x14 32 :: [] ∧ (32 : Word).toNat ≤ 32 ∧
      { zero with host := [.write .word 0x14 33] }.host = .write .word 0x14 33 :: [] ∧ 32 < (33 : Word).toNat ∧
      zero.err = false ∧ pending.err = true := by decide +kernel

theorem witness_DlenWrite :
    ({ zero with host := [.write .word 0x18 48] }.host = .write .word 0x18 48 :: [] ∧ ¬ zero.runOpen ∧
      (48 : Word).toNat ≤ Config.bufCap) ∧
    ({ opened zero with host := [.write .word 0x18 0] }.host = .write .word 0x18 0 :: [] ∧ (opened zero).runOpen ∧
      (opened zero).err = false ∧ { opened zero with err := true }.runOpen) ∧
    ({ zero with host := [.write .word 0x18 0xFFFFFFFF] }.host = .write .word 0x18 0xFFFFFFFF :: [] ∧
      Config.bufCap < (0xFFFFFFFF : Word).toNat ∧ zero.err = false ∧ pending.err = true) :=
  ⟨⟨rfl, by decide, bufCap_ge⟩, ⟨rfl, .inl rfl, rfl, .inl rfl⟩, rfl, bufCap_lt_max, rfl, rfl⟩

theorem witness_ByteWrites :
    { zero with host := [.write .byte (0x40 + 31) 9] }.host = .write .byte (0x40 + 31) 9 :: [] ∧ 31 < 32 ∧
      { zero with host := [.write .byte (0x1000 + 47) 9] }.host = .write .byte (0x1000 + 47) 9 :: [] ∧ 47 < Config.bufCap :=
  ⟨rfl, by decide, rfl, bufCap_ge⟩

theorem witness_ReadOnlyAndReservedIgnored :
    { zero with host := [.write .word 0x20 9] }.host = .write .word 0x20 9 :: [] ∧
      { zero with host := [.write .byte 0x24 9] }.host = .write .byte 0x24 9 :: [] ∧
      { zero with host := [.read .word 0xFFC] }.host = .read .word 0xFFC :: [] ∧ 0xFFC % 4 = 0 ∧
      { zero with host := [.read .byte (0x1000 + Config.bufCap)] }.host = .read .byte (0x1000 + Config.bufCap) :: [] :=
  ⟨rfl, rfl, rfl, rfl, rfl⟩

theorem witness_RefusalRecordsOnlyTheError :
    zero.err = false ∧ exec (.sessExec 0) zero = .next (State.recordError .noSession 0x00000009 zero) ∧
      (State.recordError .noSession 0x00000009 zero).err = true := ⟨rfl, rfl, rfl⟩

theorem witness_PendingErrorDropsCommands :
    pending.err = true ∧
      ((0x00800008 : Word).extractLsb' 0 8 ≠ 0x01 ∧ (0x00800008 : Word).extractLsb' 0 8 ≠ 0x02) ∧
      ((0x00000102 : Word).extractLsb' 0 8 = 0x02 ∧ (0x00000102 : Word).extractLsb' 8 24 ≠ 0) := by decide +kernel

/-- One command for each outcome: dropped, refused for each kind of check, Done. -/
theorem witness_RefusalPriority :
    (pending.err = true ∧ (0x00000003 : Word).extractLsb' 0 8 ≠ 0x01 ∧ (0x00000003 : Word).extractLsb' 0 8 ≠ 0x02) ∧
      zero.err = false ∧ (0x000000FF : Word).extractLsb' 0 8 ∉ commandOpcodes ∧
      (0x00001911 : Word).extractLsb' 0 8 ∈ commandOpcodes ∧ forty.err = false ∧ refusalCause (.sessExec 1) zero = some .operand ∧ refusalCause (.sessExec 0) zero = some .noSession ∧
      refusalCause (.keyClone 0) zero = some .nullKey ∧ refusalCause (.npAppend 0) zero = some .nullData ∧
      refusalCause (.tfEncb 0) { forty with tfxValid := false } = some .noKeySched ∧
      refusalCause (.tfEncb 25) forty = some .operand ∧ refusalCause (.tfEncb 24) forty = none := by decide +kernel

theorem witness_PhaseTable :
    zero.err = false ∧ (Instr.cbcStep 0).wellFormed = true ∧ phaseVerdict (.cbcStep 0) zero.phase = some .noSession ∧
      (opened zero).err = false ∧ phaseVerdict (.keyClone 0) (opened zero).phase = some .phase ∧
      phaseVerdict (.cbcStep 0) (opened zero).phase = none ∧ (Instr.keyClone 0).wellFormed = true := by decide +kernel

theorem witness_OpenRunIsFrozen :
    (opened zero).runOpen ∧
      exec (.keyClone 0) (opened zero) = .next (State.recordError .phase 0x00000003 (opened zero)) := ⟨.inl rfl, rfl⟩

theorem witness_ErrAckRule :
    (zero.errorOk ∧ zero.err = false ∧ pending.err = true ∧ (1 : BitVec 24) ≠ 0#24) ∧
    (exec (.sessExec 0) zero = .next (State.recordError .noSession 0x00000009 zero) ∧
      (State.recordError .noSession 0x00000009 zero).err = true) ∧
    (step { pending with host := [commandAccess 0x00000002] } = .next zero ∧ zero.err = false) :=
  ⟨⟨⟨fun h => (by cases h), fun _ => ⟨rfl, rfl⟩⟩, rfl, rfl, by decide⟩, ⟨rfl, rfl⟩, rfl, rfl⟩

theorem witness_KeyCloneRule :
    (session 0x00800000 zero).err = false ∧ ¬ (session 0x00800000 zero).runOpen ∧ (session 0x00800000 zero).keyValid = true ∧
      15 < (session 0x00800000 zero).keylen.toNat := by decide +kernel

theorem witness_SessCreateRule :
    zero.err = false ∧ ¬ zero.runOpen ∧ ((1 : BitVec 2) = 0 ∨ (1 : BitVec 2) = 1) ∧
      ((256 : BitVec 16) = 128 ∨ (256 : BitVec 16) = 192 ∨ (256 : BitVec 16) = 256) := by decide +kernel

/-- A session that encrypts 31 bytes with PKCS7, and one of 32 bytes with NoPadding: both just fit 48 bytes. -/
theorem witness_SessExecEncrypts :
    ∀ s ∈ [session 0x00800000 { load [] zero with dlen := 31 }, session 0x00801100 { load [] zero with dlen := 32 }],
      s.err = false ∧ s.sessionReady ∧ s.keyValid = true ∧ s.dataValid = true ∧
        s.keylen.toNat * 8 = (cfgKeybits s.cfg).toNat ∧ cfgDir s.cfg = 0#1 ∧
        (cfgPad s.cfg = 0#2 ∨ (16 ≤ s.dlen.toNat ∧ s.dlen.toNat % 16 = 0)) ∧ sessionLength s + 16 ≤ Config.bufCap := by
  have h := bufCap_ge
  intro s hs
  rcases List.mem_cons.mp hs with rfl | hs
  · refine ⟨rfl, .inl rfl, rfl, rfl, by decide, by decide, .inl (by decide), ?_⟩
    have : sessionLength (session 0x00800000 { load [] zero with dlen := 31 }) = 32 := by decide
    omega
  · rw [List.mem_singleton.mp hs]
    refine ⟨rfl, .inl rfl, rfl, rfl, by decide, by decide, .inr (by decide), ?_⟩
    have : sessionLength (session 0x00801100 { load [] zero with dlen := 32 }) = 32 := by decide
    omega

/-- A session that decrypts the shortest ciphertext, with PKCS7 and without. -/
theorem witness_SessExecDecrypts :
    ∀ s ∈ [session 0x00800200 { load [] zero with dlen := 32 }, decrypting],
      s.err = false ∧ s.sessionReady ∧ s.keyValid = true ∧ s.dataValid = true ∧
        s.keylen.toNat * 8 = (cfgKeybits s.cfg).toNat ∧ cfgDir s.cfg = 1#1 ∧ 32 ≤ s.dlen.toNat ∧ s.dlen.toNat % 16 = 0 := by
  decide +kernel

theorem witness_SessExecEqualsCommandSequence :
    decrypting.err = false ∧ refusalCause (.sessExec 0) decrypting = none := by decide +kernel

theorem witness_SessionRoundTrip :
    let s := { load [0x41, 0x42, 0x43] zero with keyValid := true, keylen := 16 }
    s.err = false ∧ ¬ s.runOpen ∧ s.keyValid = true ∧ s.dataValid = true ∧
      ((128 : BitVec 16) = 128 ∨ (128 : BitVec 16) = 192 ∨ (128 : BitVec 16) = 256) ∧ s.keylen.toNat * 8 = (128 : BitVec 16).toNat ∧
      s.dlen.toNat + 16 - s.dlen.toNat % 16 + 16 ≤ Config.bufCap ∧
      ∀ a, a < s.dlen.toNat → s.dbuf? a = some (([0x41, 0x42, 0x43] : List Byte).getD a 0) := by
  have h := bufCap_ge
  exact ⟨rfl, by decide, rfl, rfl, .inl rfl, rfl, by show 3 + 16 - 3 % 16 + 16 ≤ Config.bufCap; omega, by decide⟩

/-- TfKeyxRule, SpKeyxRule and SpSecondKeyxReverses. -/
theorem witness_KeyxRules :
    (cloned zero).err = false ∧ ¬ (cloned zero).runOpen ∧ (cloned zero).wkeyValid = true := by decide +kernel

/-- The last pair of subkeys, of the all-zero key. -/
theorem witness_TfSubkeyPairs :
    ∃ A B : Word, 19 < 20 ∧ A = hFun (BitVec.ofNat 32 (2 * 19) * 0x01010101) [0, 0] ∧
      B = rol32 (hFun (BitVec.ofNat 32 (2 * 19 + 1) * 0x01010101) [0, 0]) 8 := ⟨_, _, by decide, rfl, rfl⟩

/-- A key of 3 bytes and the same key with zero bytes up to 16 (95_test_vectors 2.1). -/
theorem witness_TfZeroExtendedKey :
    let w : Vector Byte 32 := table 32 fun i => if i < 3 then BitVec.ofNat 8 (i + 1) else 9
    let w' : Vector Byte 32 := table 32 fun i => if i < 3 then BitVec.ofNat 8 (i + 1) else 0
    3 ≤ 16 ∧ 16 ≤ 32 ∧ tfKeySize 3 = tfKeySize 16 ∧ (∀ i, i < 3 → w'.getD i 0 = w.getD i 0) ∧
      (∀ i, i < 16 → 3 ≤ i → w'.getD i 0 = 0) := by decide +kernel

/-- The words of the sixteen rounds of a block, by the double-rounds of R76. -/
def roundWords (K : Vector Word 40) (M : Vector (Vector Word 256) 4) (x : Quad) : Nat → Quad
  | 0 => ⟨x.w0 ^^^ K.getD 0 0, x.w1 ^^^ K.getD 1 0, x.w2 ^^^ K.getD 2 0, x.w3 ^^^ K.getD 3 0⟩
  | n + 1 =>
    let r := roundWords K M x n
    if n % 2 = 0 then
      let y := tfForward M r.w0 r.w1 r.w2 r.w3 (K.getD (8 + 2 * n) 0) (K.getD (9 + 2 * n) 0)
      ⟨r.w0, r.w1, y.1, y.2⟩
    else
      let y := tfForward M r.w2 r.w3 r.w0 r.w1 (K.getD (8 + 2 * n) 0) (K.getD (9 + 2 * n) 0)
      ⟨y.1, y.2, r.w2, r.w3⟩

theorem witness_TfSixteenRounds (K : Vector Word 40) (M : Vector (Vector Word 256) 4) (x : Quad) :
    (roundWords K M x 0 = ⟨x.w0 ^^^ K.getD 0 0, x.w1 ^^^ K.getD 1 0, x.w2 ^^^ K.getD 2 0, x.w3 ^^^ K.getD 3 0⟩) ∧
    (∀ n, n < 16 → n % 2 = 0 → roundWords K M x (n + 1) =
      ⟨(roundWords K M x n).w0, (roundWords K M x n).w1,
        ror32 ((roundWords K M x n).w2 ^^^
          (tfG0 M (roundWords K M x n).w0 + tfG1 M (roundWords K M x n).w1 + K.getD (8 + 2 * n) 0)) 1,
        rol32 (roundWords K M x n).w3 1 ^^^
          (tfG0 M (roundWords K M x n).w0 + tfG1 M (roundWords K M x n).w1 + tfG1 M (roundWords K M x n).w1 +
            K.getD (9 + 2 * n) 0)⟩) ∧
    (∀ n, n < 16 → n % 2 = 1 → roundWords K M x (n + 1) =
      ⟨ror32 ((roundWords K M x n).w0 ^^^
          (tfG0 M (roundWords K M x n).w2 + tfG1 M (roundWords K M x n).w3 + K.getD (8 + 2 * n) 0)) 1,
        rol32 (roundWords K M x n).w1 1 ^^^
          (tfG0 M (roundWords K M x n).w2 + tfG1 M (roundWords K M x n).w3 + tfG1 M (roundWords K M x n).w3 +
            K.getD (9 + 2 * n) 0),
        (roundWords K M x n).w2, (roundWords K M x n).w3⟩) := by
  refine ⟨rfl, fun n _ h => ?_, fun n _ h => ?_⟩
  · rw [roundWords]; simp only [h, if_true]; rfl
  · rw [roundWords]; simp only [h, if_neg (by decide : ¬ (1 : Nat) = 0)]; rfl

/-- TfBlockRule, TfDecryptUndoesEncrypt, SpBlockRule, SpDecryptUndoesEncrypt: the last place a block fits. -/
theorem witness_BlockRules :
    forty.err = false ∧ ¬ forty.runOpen ∧ forty.dataValid = true ∧ forty.tfxValid = true ∧ forty.spxValid = true ∧
      (24 : BitVec 24).toNat + 16 ≤ forty.dlen.toNat ∧ ∀ i, i < 16 → (forty.dbuf? ((24 : BitVec 24).toNat + i)).isSome := by
  decide +kernel

/-- Lengths 32 and 31: the last byte of the key, the marker's place, and none or one place after it. -/
theorem witness_SpNormalizedKey : (32 ≤ 32 ∧ 31 < 32) ∧ (31 ≤ 32 ∧ 30 < 31 ∧ 31 < 32) ∧ (30 ≤ 32 ∧ 30 < 31 ∧ 31 < 32) := by decide

/-- The seed words of a key and the prekeys after them, in the order of the recurrence. -/
def prekeyWord (key : Vector Byte 32) (n : Nat) : Word := (spWords key (n - 7)).getD (if n < 8 then 7 - n else 0) 0

theorem spWords_getD (key : Vector Byte 32) (m : Nat) :
    ∀ j, j ≤ m + 7 → (spWords key m).getD j 0 = prekeyWord key (m + 7 - j) := by
  induction m with
  | zero =>
    intro j hj
    have h1 : 0 + 7 - j - 7 = 0 := by omega
    have h2 : 7 - (0 + 7 - j) = j := by omega
    rw [prekeyWord, h1, if_pos (by omega), h2]
  | succ m ih =>
    intro j hj
    cases j with
    | zero =>
      have h1 : m + 1 + 7 - 0 - 7 = m + 1 := by omega
      rw [prekeyWord, h1, if_neg (by omega)]
    | succ j =>
      have h1 : m + 1 + 7 - (j + 1) = m + 7 - j := by omega
      rw [h1, ← ih j (by omega)]
      rfl

theorem witness_SpRoundKeySchedule (key : Vector Byte 32) :
    (∀ i, i < 8 → prekeyWord key i =
      le32 (key.getD (4 * i) 0) (key.getD (4 * i + 1) 0) (key.getD (4 * i + 2) 0) (key.getD (4 * i + 3) 0)) ∧
    (∀ i, i < 132 → prekeyWord key (i + 8) =
      rol32 (prekeyWord key i ^^^ prekeyWord key (i + 3) ^^^ prekeyWord key (i + 5) ^^^ prekeyWord key (i + 7) ^^^ 0x9E3779B9 ^^^
        BitVec.ofNat 32 i) 11) := by
  refine ⟨fun i hi => ?_, fun i _ => ?_⟩
  · interval_cases i <;> rfl
  · have h0 := spWords_getD key (i + 1) 0 (by omega)
    have h7 := spWords_getD key i 7 (by omega)
    have h4 := spWords_getD key i 4 (by omega)
    have h2 := spWords_getD key i 2 (by omega)
    have hz := spWords_getD key i 0 (by omega)
    rw [show i + 1 + 7 - 0 = i + 8 by omega] at h0
    rw [show i + 7 - 7 = i by omega] at h7
    rw [show i + 7 - 4 = i + 3 by omega] at h4
    rw [show i + 7 - 2 = i + 5 by omega] at h2
    rw [← h0, ← h7, ← h4, ← h2, ← Nat.sub_zero (i + 7), ← hz]
    rfl

/-- SpStepsInvert and SpEquationsGiveBoxes: the first and the last box. -/
theorem witness_SpSteps : 7 < 8 ∧ 0 < 8 := by decide

/-- The words after each of the thirty-two rounds. -/
def spRoundWords (K : Vector Word 132) (x : Quad) : Nat → Quad
  | 0 => xorQuad x (spKeyQuad K 0)
  | n + 1 => spRound K n (spRoundWords K x n)

theorem witness_SpThirtyTwoRounds (K : Vector Word 132) (x : Quad) :
    spRoundWords K x 0 = xorQuad x ⟨K.getD 0 0, K.getD 1 0, K.getD 2 0, K.getD 3 0⟩ ∧
    (∀ n, n < 32 → spRoundWords K x (n + 1) =
      xorQuad (if n < 31 then spLT (spS (n % 8) (spRoundWords K x n)) else spS (n % 8) (spRoundWords K x n))
        ⟨K.getD (4 * n + 4) 0, K.getD (4 * n + 5) 0, K.getD (4 * n + 6) 0, K.getD (4 * n + 7) 0⟩) :=
  ⟨rfl, fun _ _ => rfl⟩

theorem witness_EngineCloseRules : forty.err = false ∧ ¬ forty.runOpen := by decide +kernel

/-- 32 bytes, 47 bytes and none: the padded length is 48, 48 and 16. -/
theorem witness_P7AppendRule :
    ∀ x ∈ ([(32, 16), (47, 1), (0, 16)] : List (Word × Nat)),
      let s := { load [] zero with dlen := x.1 }
      s.err = false ∧ ¬ s.runOpen ∧ s.dataValid = true ∧ x.2 = 16 - s.dlen.toNat % 16 ∧ s.dlen.toNat + x.2 ≤ Config.bufCap := by
  have h := bufCap_ge
  intro x hx
  simp only [List.mem_cons, List.not_mem_nil, or_false] at hx
  rcases hx with rfl | rfl | rfl
  · exact ⟨rfl, by decide, rfl, rfl, by show 32 + 16 ≤ Config.bufCap; omega⟩
  · exact ⟨rfl, by decide, rfl, rfl, by show 47 + 1 ≤ Config.bufCap; omega⟩
  · exact ⟨rfl, by decide, rfl, rfl, by show 0 + 16 ≤ Config.bufCap; omega⟩

/-- One buffer for each clause: empty, last byte 0, 1, 16 and 17; and an unspecified last byte. -/
theorem witness_P7RemoveRule :
    (∀ l ∈ ([[], [1, 0], [1, 1], [16], [1, 16], [1, 17]] : List (List Byte)),
      (load l zero).err = false ∧ ¬ (load l zero).runOpen ∧ (load l zero).dataValid = true) ∧
    (load [1, 0] zero).dbuf? 1 = some 0 ∧ (load [1, 16] zero).dbuf? 1 = some 16 ∧ (load [1, 17] zero).dbuf? 1 = some 17 := by
  decide +kernel

theorem witness_P7RemoveUndoesAppend :
    (load [0x41, 0x42, 0x43] zero).err = false ∧ ¬ (load [0x41, 0x42, 0x43] zero).runOpen ∧
      (load [0x41, 0x42, 0x43] zero).dataValid = true ∧
      (load [0x41, 0x42, 0x43] zero).dlen.toNat + (16 - (load [0x41, 0x42, 0x43] zero).dlen.toNat % 16) ≤ Config.bufCap := by
  have h := bufCap_ge
  exact ⟨rfl, by decide, rfl, by show 3 + (16 - 3 % 16) ≤ Config.bufCap; omega⟩

theorem witness_NoPaddingRules :
    (Instr.npAppend = Instr.npAppend ∨ Instr.npAppend = Instr.npRemove) ∧ zero.err = false ∧ (1 : BitVec 24) ≠ 0#24 ∧
      (opened zero).runOpen ∧ (opened zero).err = false ∧ ¬ zero.runOpen ∧ zero.dataValid = false ∧ (load [1] zero).dataValid = true ∧
      ¬ (load [1] zero).runOpen ∧ (load [1] zero).err = false :=
  ⟨.inl rfl, rfl, by decide, .inl rfl, rfl, by decide, rfl, rfl, by decide, rfl⟩

/-- A session of each engine that encrypts two blocks. -/
theorem witness_CbcOpenEncrypt :
    ∀ cfg ∈ ([0x00800000, 0x00801100] : List Word),
      let s := cloned (session cfg { load [] zero with dlen := 32 })
      s.err = false ∧ s.sessionReady ∧ s.wkeyValid = true ∧ s.dataValid = true ∧ cfgDir s.cfg = 0#1 ∧ s.dlen.toNat % 16 = 0 ∧
        16 ≤ s.dlen.toNat ∧ s.dlen.toNat + 16 ≤ Config.bufCap := by
  have h := bufCap_ge
  intro cfg hc
  simp only [List.mem_cons, List.not_mem_nil, or_false] at hc
  rcases hc with rfl | rfl
  · exact ⟨rfl, .inl rfl, rfl, rfl, by decide, by decide, by decide, by show 32 + 16 ≤ Config.bufCap; omega⟩
  · exact ⟨rfl, .inl rfl, rfl, rfl, by decide, by decide, by decide, by show 32 + 16 ≤ Config.bufCap; omega⟩

theorem witness_CbcOpenDecrypt :
    ∀ s ∈ [cloned decrypting, cloned (session 0x00800200 { forty with dlen := 32 })],
      s.err = false ∧ s.sessionReady ∧ s.wkeyValid = true ∧ s.dataValid = true ∧ cfgDir s.cfg = 1#1 ∧ s.dlen.toNat % 16 = 0 ∧
        32 ≤ s.dlen.toNat := by
  decide +kernel

theorem witness_CbcStepEncrypt :
    ∀ s ∈ [opened (session 0x00800000 { forty with dlen := 32 }), opened (session 0x00800100 { forty with dlen := 32 })],
      s.err = false ∧ s.runOpen ∧ 16 ≤ s.cur.toNat ∧ s.cur.toNat + 16 ≤ s.dlen.toNat ∧ cfgDir s.cfg = 0#1 := by
  decide +kernel

theorem witness_CbcStepDecrypt :
    (opened decrypting).err = false ∧ (opened decrypting).runOpen ∧
      (opened decrypting).cur.toNat + 16 ≤ (opened decrypting).dlen.toNat ∧ cfgDir (opened decrypting).cfg = 1#1 := by
  decide +kernel

/-- A run of two blocks, all of it stepped. -/
def closing (cfg : Word) : State :=
  { opened (session cfg { forty with dlen := 32 }) with phase := .stepping, cur := 32, rem := 0 }

theorem witness_CbcCloseEncrypt :
    ∀ s ∈ [closing 0x00800000, closing 0x00801100],
      s.err = false ∧ s.phase = .stepping ∧ s.cur = s.dlen ∧ cfgDir s.cfg = 0#1 := by decide +kernel

theorem witness_CbcCloseDecrypt :
    ∀ s ∈ [closing 0x00800200, closing 0x00801300],
      s.err = false ∧ s.phase = .stepping ∧ s.cur = s.dlen ∧ cfgDir s.cfg = 1#1 ∧ 16 ≤ s.dlen.toNat := by decide +kernel

/-- One block to encrypt, and an IV and one block to decrypt. -/
theorem witness_CbcChains :
    let e := cloned (session 0x00800000 { forty with dlen := 16 })
    let p : Block := table 16 (BitVec.ofNat 8)
    let q : Block := table 16 fun i => BitVec.ofNat 8 (16 + i)
    (e.err = false ∧ e.sessionReady ∧ e.wkeyValid = true ∧ e.dataValid = true ∧ cfgDir e.cfg = 0#1 ∧ e.holdsBlocks [p] ∧
      1 ≤ [p].length ∧ 16 * [p].length + 16 ≤ Config.bufCap) ∧
    ((cloned decrypting).err = false ∧ (cloned decrypting).sessionReady ∧ (cloned decrypting).wkeyValid = true ∧
      (cloned decrypting).dataValid = true ∧ cfgDir (cloned decrypting).cfg = 1#1 ∧ (cloned decrypting).holdsBlocks [p, q] ∧
      1 ≤ [q].length) := by
  have h := bufCap_ge
  refine ⟨⟨rfl, .inl rfl, rfl, rfl, by decide, ⟨by decide, by decide +kernel⟩, by decide, ?_⟩,
    rfl, .inl rfl, rfl, rfl, by decide, ⟨by decide, by decide +kernel⟩, by decide⟩
  show 16 * 1 + 16 ≤ Config.bufCap
  omega

theorem witness_OnlyTheseCommandsWrite :
    exec (.npAppend 0) (load [1] zero) = .next (load [1] zero) ∧ (∀ arg, Instr.npAppend 0 ≠ .sysReset arg) :=
  ⟨rfl, fun _ h => by cases h⟩

/-- A run in its middle meets the invariant, and its next step is a CBC.STEP. -/
theorem witness_StepKeepsInvariant :
    let s := { cloned (session 0x00801300 { load [] zero with dlen := 48 }) with
      phase := .opened, spxValid := true, cur := 16, rem := 32, host := [commandAccess 0x00000041] }
    Inv s ∧ (step s = .next (cbcStepAct { s with host := [] })) := by
  have h := bufCap_ge
  refine ⟨⟨⟨List.Pairwise.nil, (fun c hc => by cases hc), h, (fun hd => by cases hd)⟩, ⟨by decide, by decide, ?_, ?_⟩,
    ⟨fun _ => ⟨by decide, ?_⟩, (fun hd => by cases hd)⟩, ⟨(fun hd => by cases hd), fun _ => ⟨rfl, rfl⟩⟩, ?_⟩, rfl⟩
  · intro hd; cases hd
  · intro hd; cases hd
  · show legalCfg 0x00801300
    unfold legalCfg
    decide
  · refine ⟨⟨?_, ?_, ?_, ?_, ?_, ?_, ?_, ?_⟩, ?_, ?_⟩ <;> decide

end Sys2Proof.Tests
end

/-! ## What a command and a step can be (00_scope R8, 10_state R26, 70_reset_and_hazards R211) -/

namespace Sys2Proof.Machine

/-- No action sets ERR: a refusal is the only event that does (60_exceptions R183). -/
theorem actionOf_keeps_err_false (i : Instr) {s : State} (h : s.err = false) : (actionOf i s).err = false := by
  cases i with
  | sysReset _ => exact afterReset_err ..
  | errAck _ => exact acknowledge_err s
  | sessExec _ => simp [actionOf, sessExecAct, sessRun, h]
  | _ => simp [actionOf, h]

/-- Settles O15: a command is dropped, runs an action, which leaves ERR clear, or records its refusal. -/
theorem refusalRecordsOnlyTheError : Obligations.RefusalRecordsOnlyTheError := by
  intro i s
  obtain ⟨t, ht⟩ := exec_next i s
  refine ⟨t, ht, fun hs hte => ?_⟩
  rcases exec_cases ht with rfl | ⟨-, rfl, -⟩ | ⟨-, c, -, rfl⟩
  · simp [hs] at hte
  · simp [actionOf_keeps_err_false i hs] at hte
  · exact ⟨c, rfl⟩

/-- The bytes of the window that R26 does not list: the registers. -/
theorem byteRegion_eq_unlisted_iff (off : Nat) : byteRegion off = .unlisted ↔ off < 0x24 := by
  fun_cases byteRegion off <;> simp only [reduceCtorEq, true_iff, false_iff] <;> omega

/-- The words of the window that R26 does not list: those of KEY and of DBUF. -/
theorem wordRegion_eq_unlisted_iff (off : Nat) :
    wordRegion off = .unlisted ↔ (0x40 ≤ off ∧ off < 0x60) ∨ (0x1000 ≤ off ∧ off < 0x1000 + Config.bufCap) := by
  fun_cases wordRegion off <;> simp only [reduceCtorEq, true_iff, false_iff] <;> omega

/-- Every access that R26 does not list, by its width. -/
theorem regionOf_eq_unlisted_iff (width : Width) (off : Nat) :
    regionOf width off = .unlisted ↔
      (width = .half ∨
        (width = .byte ∧ off < 0x24) ∨
        (width = .word ∧ (off % 4 ≠ 0 ∨ (0x40 ≤ off ∧ off < 0x60) ∨ (0x1000 ≤ off ∧ off < 0x1000 + Config.bufCap)))) := by
  cases width with
  | byte => simp [regionOf, byteRegion_eq_unlisted_iff]
  | half => simp [regionOf]
  | word =>
    by_cases haligned : off % 4 = 0
    · simp [regionOf, haligned, wordRegion_eq_unlisted_iff]
    · simp [regionOf, haligned]

/-- A word written to CMD always gives a next state (00_scope R8, 30_encoding R53). -/
theorem runWord_next (w : Word) (s : State) : ∃ t, runWord w s = .next t := by
  unfold runWord
  split
  · exact exec_next ..
  · exact ⟨_, rfl⟩

/-- A host read is answered, or R26 does not list it and it is refused. -/
theorem serveRead_cases (width : Width) (off : Nat) (s : State) :
    (∃ t, serveRead width off s = .next t) ∨
      (regionOf width off = .unlisted ∧ serveRead width off s = .refused (.unlistedAccess width off)) := by
  unfold serveRead
  cases regionOf width off with
  | unlisted => exact .inr ⟨rfl, rfl⟩
  | _ => exact .inl ⟨_, rfl⟩

/-- A host write is served, or R26 does not list it and it is refused. -/
theorem serveWrite_cases (width : Width) (off : Nat) (v : Word) (s : State) :
    (∃ t, serveWrite width off v s = .next t) ∨
      (regionOf width off = .unlisted ∧ serveWrite width off v s = .refused (.unlistedAccess width off)) := by
  unfold serveWrite
  cases regionOf width off with
  | unlisted => exact .inr ⟨rfl, rfl⟩
  | cmd => exact .inl (runWord_next v s)
  | _ => exact .inl ⟨_, rfl⟩

/-- Everything a step can be: a next state, or the refusal of an oldest host access that R26 does not list (20_memory R43). -/
theorem step_cases (s : State) :
    (∃ t, step s = .next t) ∨
      ∃ width off v rest, (s.host = .read width off :: rest ∨ s.host = .write width off v :: rest) ∧
        regionOf width off = .unlisted ∧ step s = .refused (.unlistedAccess width off) := by
  unfold step
  split
  · exact .inl ⟨_, rfl⟩
  · next a rest ha =>
    cases a with
    | read width off =>
      exact (serveRead_cases width off _).imp_right fun ⟨hu, hr⟩ => ⟨width, off, 0, rest, .inl ha, hu, hr⟩
    | write width off v =>
      exact (serveWrite_cases width off v _).imp_right fun ⟨hu, hr⟩ => ⟨width, off, v, rest, .inr ha, hu, hr⟩

/-- Settles O7: `Fault` is empty, a refused step is the second case of `step_cases`, and `regionOf_eq_unlisted_iff` is the map. -/
theorem stepStopsOnlyAtUnlistedAccess : Obligations.StepStopsOnlyAtUnlistedAccess := by
  refine ⟨fun _ f => (nomatch f), fun s r hr => ?_, regionOf_eq_unlisted_iff⟩
  rcases step_cases s with ⟨t, ht⟩ | ⟨width, off, v, rest, hhost, hu, hs⟩
  · cases ht.symm.trans hr
  · cases hs.symm.trans hr
    exact ⟨width, off, v, rest, hhost, hu, rfl⟩

end Sys2Proof.Machine

/-! ## The invariant of the machine (10_state R11 to R19)

`Inv` has five parts. Each part has its own preservation lemma over the actions of the commands (`actionOf_bufferOk`, ...),
which splits into the commands that write the part's fields and one case for all the others. -/

namespace Sys2Proof.Machine

/-! ### Reset (10_state R25) -/

/-- The table of reset values meets the invariant, whatever the unspecified storage holds. -/
theorem afterReset_inv (n : Nat) (host : List Access) (busRead : Word) : Inv (State.afterReset n host busRead) where
  buffer := by simp [State.bufferOk, Memory.wf]
  keys := by simp [State.keysOk]
  config := by simp [State.configOk]
  error := by simp [State.errorOk]
  run := by simp [State.runOk]

/-- Settles O59: power-on is draw 0 of the table of reset values. -/
theorem resetMeetsInvariant : Obligations.ResetMeetsInvariant := afterReset_inv 0 [] 0

/-! ### The error registers -/

/-- A command that is Done leaves the error registers, but SYS.RESET and ERR.ACK, which clear them (60_exceptions R183). -/
theorem actionOf_errorOk (i : Instr) {s : State} (h : s.errorOk) : (actionOf i s).errorOk := by
  cases i with
  | sysReset _ => exact (afterReset_inv ..).error
  | errAck _ => simp [actionOf, State.errorOk]
  | sessExec _ => simpa [actionOf, State.errorOk, sessExecAct, sessRun] using h
  | _ => simpa [actionOf, State.errorOk] using h

theorem recordError_errorOk (c : Cause) (w : Word) (s : State) : (s.recordError c w).errorOk := by
  simp [State.errorOk]

/-! ### The key lengths -/

theorem keyCloneAct_keysOk {s : State} (h : s.keysOk) : (keyCloneAct s).keysOk := by
  obtain ⟨hkey, -, habsent, -⟩ := h
  simpa [State.keysOk, hkey] using habsent

theorem spKeyxAct_keysOk {s : State} (h : s.keysOk) (hw : s.wkeyValid = true) : (spKeyxAct s).keysOk := by
  obtain ⟨hkey, -, habsent, -⟩ := h
  simpa [State.keysOk, hkey, hw] using habsent

/-- An open leaves WKLEN, or sets it to 32 where the engine is Serpent (41_serpent R109). -/
theorem cbcOpenAct_wklen (s : State) : (cbcOpenAct s).wklen = if s.isSerpent then 32 else s.wklen := by
  cases h : s.isSerpent with
  | true => obtain ⟨-, -, -, -, hlen⟩ := cbcOpenAct_serpent h; simpa using hlen
  | false => obtain ⟨-, -, -, -, hlen⟩ := cbcOpenAct_twofish h; simpa using hlen

theorem cbcOpenAct_keysOk {s : State} (h : s.keysOk) (hw : s.wkeyValid = true) : (cbcOpenAct s).keysOk := by
  obtain ⟨hkey, hwkey, habsent, -⟩ := h
  refine ⟨by simpa using hkey, ?_, by simpa using habsent, by simp [hw]⟩
  rw [cbcOpenAct_wklen]
  split <;> omega

theorem sessExecAct_keysOk {s : State} (h : s.keysOk) : (sessExecAct s).keysOk := by
  have hopen : (cbcOpenAct (sessAppend (keyCloneAct s))).keysOk :=
    cbcOpenAct_keysOk (by simpa [State.keysOk] using keyCloneAct_keysOk h) (by simp)
  simpa [State.keysOk, sessExecAct, sessRun] using hopen

/-- The commands that write WKLEN copy KEYLEN, or make it 32 and find a working key there. -/
theorem actionOf_keysOk {i : Instr} {s : State} (h : s.keysOk) (hc : firstFailing (checksOf i s) = none) :
    (actionOf i s).keysOk := by
  rw [firstFailing_eq_none] at hc
  cases i with
  | sysReset _ => exact (afterReset_inv ..).keys
  | keyClone _ => exact keyCloneAct_keysOk h
  | sessExec _ => exact sessExecAct_keysOk h
  | spKeyx _ => exact spKeyxAct_keysOk h (hc (checkWkey s) (by simp [checksOf]))
  | cbcOpen _ => exact cbcOpenAct_keysOk h (hc (checkWkey s) (by simp [checksOf]))
  | _ => simpa [actionOf, State.keysOk] using h

/-! ### CFG -/

/-- CFG takes a command word's bits from 8 upward (30_encoding R51). -/
theorem cfgOf_getLsbD (w : Word) (n : Nat) : (cfgOf w).getLsbD n = (decide (8 ≤ n) && w.getLsbD n) := by
  have hmask : cfgOf w = w &&& BitVec.allOnes 32 <<< 8 := rfl
  rw [hmask, BitVec.getLsbD_and, BitVec.getLsbD_shiftLeft, BitVec.getLsbD_allOnes]
  have hlow : (!decide (n < 8)) = decide (8 ≤ n) := by rw [← decide_not, decide_eq_decide, Nat.not_lt]
  by_cases hn : n < 32
  · simp [hn, show n - 8 < 32 by omega, hlow, Bool.and_comm]
  · simp [BitVec.getLsbD_of_ge _ _ (show 32 ≤ n by omega)]

theorem cfgOf_extractLsb' (w : Word) {start len : Nat} (h : 8 ≤ start) :
    (cfgOf w).extractLsb' start len = w.extractLsb' start len := by
  ext k hk
  simp [cfgOf_getLsbD, show 8 ≤ start + k by omega]

theorem cfgOf_low (w : Word) : (cfgOf w).extractLsb' 0 8 = 0 := by
  ext k hk
  simp [cfgOf_getLsbD, hk]

/-- A legal SESS.CREATE word gives CFG a legal value (10_state R11, 30_encoding R53). -/
theorem legalCfg_of_create {alg dir : BitVec 1} {mode pad rsv : BitVec 2} {keybits : BitVec 16}
    (hf : WellFormed.cfgFields mode pad rsv = true) (hk : WellFormed.keyBits keybits = true) :
    legalCfg (cfgOf (Instr.sessCreate alg dir mode pad rsv keybits).encode) := by
  have hfields := createFields_encode alg dir mode pad rsv keybits
  simp only [createFields, Instr.sessCreate.injEq] at hfields
  obtain ⟨-, -, hmode, hpad, hrsv, hkeybits⟩ := hfields
  simp only [WellFormed.cfgFields, Bool.and_eq_true, Bool.or_eq_true, beq_iff_eq] at hf
  obtain ⟨⟨hrsv0, hmode0⟩, hpad01⟩ := hf
  simp only [WellFormed.keyBits, Bool.or_eq_true, beq_iff_eq, or_assoc] at hk
  refine ⟨cfgOf_low _, ?_, ?_, ?_, ?_⟩ <;>
    simp only [cfgMode, cfgPad, cfgKeybits, cfgOf_extractLsb' _ (show 8 ≤ 10 by decide),
      cfgOf_extractLsb' _ (show 8 ≤ 12 by decide), cfgOf_extractLsb' _ (show 8 ≤ 14 by decide),
      cfgOf_extractLsb' _ (show 8 ≤ 16 by decide), hmode, hpad, hrsv, hkeybits]
  · exact hmode0
  · exact hpad01
  · exact hrsv0
  · exact hk

/-- From one phase of a session to another, with CFG as it is. -/
theorem configOk_of_session {s t : State} (h : s.configOk) (hs : s.phase ≠ .none) (ht : t.phase ≠ .none)
    (hcfg : t.cfg = s.cfg) (hvalid : t.cfgValid = s.cfgValid) : t.configOk := by
  obtain ⟨hlegal, habsent⟩ := h
  have hv : s.cfgValid = true := by
    cases hv : s.cfgValid with
    | true => rfl
    | false => exact absurd (habsent hv).1 hs
  exact ⟨fun _ => ⟨ht, hcfg ▸ (hlegal hv).2⟩, fun hf => by simp [hvalid, hv] at hf⟩

theorem phase_ne_none_of_startable {s : State} (h : (checkStartable s).1 = true) : s.phase ≠ .none := by
  intro hp; simp [checkStartable, hp] at h

theorem phase_ne_none_of_running {s : State} (h : (checkRunning s).1 = true) : s.phase ≠ .none := by
  intro hp; simp [checkRunning, hp] at h

theorem phase_ne_none_of_stepping {s : State} (h : (checkStepping s).1 = true) : s.phase ≠ .none := by
  intro hp; simp [checkStepping, hp] at h

/-- SESS.CREATE makes a legal CFG; the commands that move PHASE find a session there. -/
theorem actionOf_configOk {i : Instr} {s : State} (h : s.configOk) (hc : firstFailing (checksOf i s) = none) :
    (actionOf i s).configOk := by
  rw [firstFailing_eq_none] at hc
  cases i with
  | sysReset _ => exact (afterReset_inv ..).config
  | sessCreate alg dir mode pad rsv keybits =>
    have hf := hc (checkCfgFields mode pad rsv) (by simp [checksOf])
    have hk := hc (checkKeybits keybits) (by simp [checksOf])
    exact ⟨fun _ => ⟨by simp [actionOf], legalCfg_of_create hf hk⟩, fun hv => by simp [actionOf] at hv⟩
  | sessExec _ =>
    have hs := phase_ne_none_of_startable (hc (checkStartable s) (by simp [checksOf, sessExecChecks]))
    apply configOk_of_session h hs <;> simp [actionOf, sessExecAct, sessRun]
  | cbcOpen _ =>
    have hs := phase_ne_none_of_startable (hc (checkStartable s) (by simp [checksOf]))
    apply configOk_of_session h hs <;> simp [actionOf]
  | cbcStep _ =>
    have hs := phase_ne_none_of_running (hc (checkRunning s) (by simp [checksOf]))
    apply configOk_of_session h hs <;> simp [actionOf]
  | cbcClose _ =>
    have hs := phase_ne_none_of_stepping (hc (checkStepping s) (by simp [checksOf]))
    apply configOk_of_session h hs <;> simp [actionOf]
  | _ => simpa [actionOf, State.configOk] using h

/-! ### CUR, REM and PHASE -/

theorem runOk_of_opened {s : State} (hp : s.phase = .opened) :
    s.runOk ↔ s.running ∧ s.cur = 16 ∧ 32 ≤ s.dlen.toNat := by simp [State.runOk, hp]

theorem runOk_of_stepping {s : State} (hp : s.phase = .stepping) : s.runOk ↔ s.running ∧ 32 ≤ s.cur.toNat := by
  simp [State.runOk, hp]

theorem runOk_of_not_runOpen {s : State} (hp : ¬ s.runOpen) : s.runOk ↔ s.cur = 0 ∧ s.rem = 0 := by
  cases h : s.phase <;> simp [State.runOpen, h] at hp <;> simp [State.runOk, h]

theorem running_of_runOpen {s : State} (h : s.runOk) (hp : s.runOpen) : s.running := by
  rcases hp with hp | hp
  · exact ((runOk_of_opened hp).1 h).1
  · exact ((runOk_of_stepping hp).1 h).1

/-- The check of R190 that no run is open. -/
theorem not_runOpen_of_checkIdle {s : State} (h : (checkIdle s).1 = true) : ¬ s.runOpen := by
  rintro (hp | hp) <;> simp [checkIdle, State.isIdle, hp] at h

theorem runOpen_of_checkRunning {s : State} (h : (checkRunning s).1 = true) : s.runOpen := by
  simpa [checkRunning] using h

/-- With no run open, what leaves PHASE, CUR and REM leaves `runOk`. -/
theorem runOk_of_idle {s t : State} (h : s.runOk) (hidle : ¬ s.runOpen) (hphase : t.phase = s.phase)
    (hcur : t.cur = s.cur) (hrem : t.rem = s.rem) : t.runOk := by
  have hidle' : ¬ t.runOpen := by rwa [State.runOpen, hphase]
  rw [runOk_of_not_runOpen hidle', hcur, hrem]
  exact (runOk_of_not_runOpen hidle).1 h

/-- What an open is given (43_cbc R140 checks 4 to 6): data of whole blocks, at least two to decrypt, the first being the IV;
at least one to encrypt, with room for the IV. -/
def State.openable (s : State) : Prop :=
  s.dataValid = true ∧ s.dlen.toNat % 16 = 0 ∧
    if s.isDecrypt then 32 ≤ s.dlen.toNat else 16 ≤ s.dlen.toNat ∧ s.dlen.toNat + 16 ≤ Config.bufCap

theorem openable_of_checks {s : State} (hdata : (checkData s).1 = true) (hlen : (checkOpenLength s).1 = true)
    (hfits : (checkOpenFits s).1 = true) : s.openable := by
  refine ⟨hdata, ?_⟩
  cases hd : s.isDecrypt <;> simp [checkOpenLength, checkOpenFits, hd] at hlen hfits ⊢ <;> omega

/-- DLEN after an open: the encrypting one puts the IV before the data (43_cbc R141). -/
theorem cbcOpenAct_dlen_toNat {s : State} (h : s.openable) :
    (cbcOpenAct s).dlen.toNat = if s.isDecrypt then s.dlen.toNat else s.dlen.toNat + 16 := by
  obtain ⟨-, -, hlen⟩ := h
  have hcap := bufCap_lt
  rw [cbcOpenAct_dlen]
  cases hd : s.isDecrypt <;> simp [hd] at hlen ⊢
  omega

/-- An open leaves the IV and at least one block more. -/
theorem cbcOpenAct_length {s : State} (h : s.openable) :
    32 ≤ (cbcOpenAct s).dlen.toNat ∧ (cbcOpenAct s).dlen.toNat % 16 = 0 := by
  rw [cbcOpenAct_dlen_toNat h]
  obtain ⟨-, hmod, hlen⟩ := h
  cases hd : s.isDecrypt <;> simp [hd] at hlen ⊢ <;> omega

/-- REM after an open: all but the IV. -/
theorem cbcOpenAct_rem_toNat {s : State} (h : s.openable) :
    (cbcOpenAct s).rem.toNat = (cbcOpenAct s).dlen.toNat - 16 := by
  rw [cbcOpenAct_dlen_toNat h, cbcOpenAct_rem]
  obtain ⟨-, -, hlen⟩ := h
  cases hd : s.isDecrypt <;> simp [hd] at hlen ⊢
  bv_omega

theorem cbcOpenAct_runOk {s : State} (h : s.openable) (hw : s.wkeyValid = true) : (cbcOpenAct s).runOk := by
  obtain ⟨hlen, hmod⟩ := cbcOpenAct_length h
  have hcur : (cbcOpenAct s).cur.toNat = 16 := by simp
  have hrem := cbcOpenAct_rem_toNat h
  have hengine : (cbcOpenAct s).engineValid = true := by
    cases hs : s.isSerpent <;> simp [State.engineValid, isSerpent_of_cfg (cbcOpenAct_cfg s), hs]
  rw [runOk_of_opened (cbcOpenAct_phase s)]
  exact ⟨⟨by omega, by omega, by omega, hmod, by omega, by simpa using h.1, by simpa using hw, hengine⟩,
    cbcOpenAct_cur s, hlen⟩

/-- One step moves CUR by a block. -/
theorem cbcStepAct_cur_toNat {s : State} (hleft : s.cur.toNat + 16 ≤ s.dlen.toNat) :
    (cbcStepAct s).cur.toNat = s.cur.toNat + 16 := by
  rw [cbcStepAct_cur]; bv_omega

theorem cbcStepAct_rem_toNat {s : State} (hleft : s.cur.toNat + 16 ≤ s.dlen.toNat) :
    (cbcStepAct s).rem.toNat = s.dlen.toNat - (s.cur.toNat + 16) := by
  rw [cbcStepAct_rem]; bv_omega

theorem cbcStepAct_runOk {s : State} (h : s.running) (hleft : s.cur.toNat + 16 ≤ s.dlen.toNat) :
    (cbcStepAct s).runOk := by
  have hcur := cbcStepAct_cur_toNat hleft
  have hrem := cbcStepAct_rem_toNat hleft
  obtain ⟨hlow, -, hcmod, hdmod, -, hdata, hwkey, hengine⟩ := h
  rw [runOk_of_stepping (cbcStepAct_phase s)]
  refine ⟨⟨by omega, ?_, by omega, by simpa using hdmod, ?_, by simpa using hdata, by simpa using hwkey, ?_⟩, by omega⟩
  · rwa [hcur, cbcStepAct_dlen]
  · rw [hrem, hcur, cbcStepAct_dlen]
  · simpa [State.engineValid, isSerpent_of_cfg (cbcStepAct_cfg s)] using hengine

/-- A close, and so a whole session, ends with no block to do. -/
theorem cbcCloseAct_runOk (s : State) : (cbcCloseAct s).runOk := by
  simp [State.runOk]

/-- The commands that move CUR start, advance or end a run; all others but ERR.ACK find none open. -/
theorem actionOf_runOk {i : Instr} {s : State} (h : s.runOk) (hc : firstFailing (checksOf i s) = none) :
    (actionOf i s).runOk := by
  rw [firstFailing_eq_none] at hc
  cases i with
  | sysReset _ => exact (afterReset_inv ..).run
  | errAck _ => exact h
  | sessCreate _ _ _ _ _ _ => simp [actionOf, State.runOk]
  | sessExec _ => exact cbcCloseAct_runOk _
  | cbcOpen _ =>
    have hopen : s.openable :=
      openable_of_checks (hc (checkData s) (by simp [checksOf])) (hc (checkOpenLength s) (by simp [checksOf]))
        (hc (checkOpenFits s) (by simp [checksOf]))
    exact cbcOpenAct_runOk hopen (hc (checkWkey s) (by simp [checksOf]))
  | cbcStep _ =>
    have hrun := running_of_runOpen h (runOpen_of_checkRunning (hc (checkRunning s) (by simp [checksOf])))
    have hleft := hc (checkBlockLeft s) (by simp [checksOf])
    exact cbcStepAct_runOk hrun (of_decide_eq_true hleft)
  | cbcClose _ => exact cbcCloseAct_runOk s
  | _ =>
    have hidle := not_runOpen_of_checkIdle (hc (checkIdle s) (by simp [checksOf, tfBlockChecks, spBlockChecks]))
    apply runOk_of_idle h hidle <;> simp [actionOf]

/-! ### DBUF and DLEN -/

/-- What leaves DLEN and DATA_VALID keeps `bufferOk` if DBUF stays canonical and inside the buffer. -/
theorem bufferOk_of_dbuf {s t : State} (h : s.bufferOk) (hwf : Memory.wf t.dbuf) (hbelow : Memory.below t.dbuf Config.bufCap)
    (hdlen : t.dlen = s.dlen) (hdata : t.dataValid = s.dataValid) : t.bufferOk := by
  obtain ⟨-, -, hcap, habsent⟩ := h
  exact ⟨hwf, hbelow, hdlen ▸ hcap, hdlen ▸ hdata ▸ habsent⟩

theorem bufferOk_of_eq {s t : State} (h : s.bufferOk) (hdbuf : t.dbuf = s.dbuf) (hdlen : t.dlen = s.dlen)
    (hdata : t.dataValid = s.dataValid) : t.bufferOk := by
  obtain ⟨hwf, hbelow, -, -⟩ := id h
  exact bufferOk_of_dbuf h (hdbuf ▸ hwf) (hdbuf ▸ hbelow) hdlen hdata

theorem forgetTail_bufferOk {s : State} (h : s.bufferOk) : s.forgetTail.bufferOk := by
  obtain ⟨hwf, hbelow, -, -⟩ := id h
  exact bufferOk_of_dbuf h (forgetFrom_wf hwf _) (forgetFrom_below hbelow _) rfl rfl

/-- A shorter DLEN keeps `bufferOk`. -/
theorem bufferOk_of_shorter {s t : State} (h : s.bufferOk) (hwf : Memory.wf t.dbuf)
    (hbelow : Memory.below t.dbuf Config.bufCap) (hdlen : t.dlen.toNat ≤ s.dlen.toNat) (hdata : t.dataValid = s.dataValid) :
    t.bufferOk := by
  obtain ⟨-, -, hcap, habsent⟩ := h
  refine ⟨hwf, hbelow, hdlen.trans hcap, fun hv => BitVec.eq_of_toNat_eq ?_⟩
  have hzero := habsent (hdata ▸ hv)
  simpa [hzero] using hdlen

/-- A block update inside the data stays inside the buffer. -/
theorem blockUpdate_bufferOk {s : State} (h : s.bufferOk) (f : Block → Block) {off : Nat}
    (hoff : off + 16 ≤ s.dlen.toNat) : (s.blockUpdate f off).bufferOk := by
  obtain ⟨hwf, hbelow, hcap, -⟩ := id h
  refine bufferOk_of_dbuf h (writeList_wf hwf _ _) (writeList_below hbelow _ _ ?_) rfl rfl
  simpa using hoff.trans hcap

theorem engineEnc_bufferOk {s : State} (h : s.bufferOk) {off : Nat} (hoff : off + 16 ≤ s.dlen.toNat) :
    (engineEnc off s).bufferOk := by
  unfold engineEnc
  split <;> exact blockUpdate_bufferOk h _ hoff

theorem engineDec_bufferOk {s : State} (h : s.bufferOk) {off : Nat} (hoff : off + 16 ≤ s.dlen.toNat) :
    (engineDec off s).bufferOk := by
  unfold engineDec
  split <;> exact blockUpdate_bufferOk h _ hoff

theorem p7AppendAct_bufferOk {s : State} (h : s.bufferOk) (hdata : s.dataValid = true)
    (hfits : s.dlen.toNat + p7Count s.dlen.toNat ≤ Config.bufCap) : (p7AppendAct s).bufferOk := by
  obtain ⟨hwf, hbelow, -, -⟩ := h
  have hlt := bufCap_lt
  refine forgetTail_bufferOk ⟨writeList_wf hwf _ _, writeList_below hbelow _ _ (by simpa using hfits), ?_, ?_⟩
  · simp only [BitVec.toNat_add, BitVec.toNat_ofNat]
    omega
  · simp [hdata]

/-- PKCS7's removal never lengthens the data (42_padding R131). -/
theorem p7RemoveLen_le (dlen : Nat) (marker : Byte) : p7RemoveLen dlen marker ≤ dlen := by
  unfold p7RemoveLen; split_ifs <;> omega

theorem trimLen_le (byte : Nat → Byte) (n : Nat) : trimLen byte n ≤ n := by
  induction n with
  | zero => exact Nat.le_refl 0
  | succ n ih => unfold trimLen; split <;> omega

/-- Cutting the data to a smaller length and forgetting the rest, as P7.REMOVE and the trim of CBC.CLOSE do. -/
theorem cut_bufferOk {s : State} (h : s.bufferOk) {n : Nat} (hn : n ≤ s.dlen.toNat) (draws : Nat) :
    (State.forgetTail { s with dlen := BitVec.ofNat 32 n, draws := draws }).bufferOk := by
  obtain ⟨hwf, hbelow, -, -⟩ := id h
  exact forgetTail_bufferOk (bufferOk_of_shorter h hwf hbelow ((Nat.mod_le _ _).trans hn) rfl)

theorem p7RemoveAct_bufferOk {s : State} (h : s.bufferOk) : (p7RemoveAct s).bufferOk :=
  cut_bufferOk h (p7RemoveLen_le _ _) _

theorem trimZeros_bufferOk {s : State} (h : s.bufferOk) : (trimZeros s).bufferOk :=
  cut_bufferOk h (trimLen_le _ _) _

theorem removePadding_bufferOk {s : State} (h : s.bufferOk) : (removePadding s).bufferOk := by
  unfold removePadding
  split
  · exact p7RemoveAct_bufferOk h
  · exact h

theorem stripIv_bufferOk {s : State} (h : s.bufferOk) (hiv : 16 ≤ s.dlen.toNat) : (stripIv s).bufferOk := by
  obtain ⟨hwf, hbelow, -, -⟩ := id h
  refine bufferOk_of_shorter h (shiftDown_wf (forgetFrom_wf hwf _) 16) (shiftDown_below (forgetFrom_below hbelow _) 16) ?_ rfl
  rw [stripIv_dlen]; bv_omega

theorem engineKeyx_bufferOk {s : State} (h : s.bufferOk) : (engineKeyx s).bufferOk :=
  bufferOk_of_eq h (engineKeyx_dbuf s) (engineKeyx_dlen s) (engineKeyx_dataValid s)

theorem engineClose_bufferOk {s : State} (h : s.bufferOk) : (engineClose s).bufferOk :=
  bufferOk_of_eq h (engineClose_dbuf s) (engineClose_dlen s) (engineClose_dataValid s)

/-- The encrypting open moves the data up and writes the IV below it. -/
theorem openEncrypt_bufferOk {s : State} (h : s.bufferOk) (hdata : s.dataValid = true)
    (hfits : s.dlen.toNat + 16 ≤ Config.bufCap) : (openEncrypt s).bufferOk := by
  obtain ⟨hwf, -, -, -⟩ := h
  have hlt := bufCap_lt
  have hmoved : Memory.below (Memory.shiftUp (Memory.forgetFrom s.dbuf s.dlen.toNat) 16) Config.bufCap :=
    below_mono (shiftUp_below (forgetFrom_below_self _ _) 16) hfits
  refine ⟨writeList_wf (shiftUp_wf (forgetFrom_wf hwf _) 16) _ _, writeList_below hmoved _ _ ?_, ?_, ?_⟩
  · simp; omega
  · rw [openEncrypt_dlen]; bv_omega
  · simp [hdata]

theorem cbcOpenAct_bufferOk {s : State} (h : s.bufferOk) (hopen : s.openable) : (cbcOpenAct s).bufferOk := by
  have hkeyx := engineKeyx_bufferOk h
  obtain ⟨hdata, -, hlen⟩ := hopen
  refine forgetTail_bufferOk ?_
  cases hd : s.isDecrypt with
  | true => exact hkeyx
  | false =>
    simp only [hd, Bool.false_eq_true, if_false] at hlen ⊢
    exact openEncrypt_bufferOk hkeyx (by simpa using hdata) (by simpa using hlen.2)

theorem stepEncrypt_bufferOk {s : State} (h : s.bufferOk) (hleft : s.cur.toNat + 16 ≤ s.dlen.toNat) :
    (stepEncrypt s).bufferOk := by
  have hxor := blockUpdate_bufferOk h (fun b => xorBlock b (s.readBlock (s.cur.toNat - 16))) hleft
  exact bufferOk_of_eq (engineEnc_bufferOk hxor hleft) (stepEncrypt_dbuf s) (by simp) (by simp)

theorem stepDecrypt_bufferOk {s : State} (h : s.bufferOk) (hleft : s.cur.toNat + 16 ≤ s.dlen.toNat) :
    (stepDecrypt s).bufferOk := by
  have hdec := engineDec_bufferOk h hleft
  exact bufferOk_of_eq (blockUpdate_bufferOk hdec _ (by simpa using hleft)) (stepDecrypt_dbuf s) (by simp) (by simp)

theorem cbcStepAct_bufferOk {s : State} (h : s.bufferOk) (hleft : s.cur.toNat + 16 ≤ s.dlen.toNat) :
    (cbcStepAct s).bufferOk := by
  refine forgetTail_bufferOk ?_
  split
  · exact stepDecrypt_bufferOk h hleft
  · exact stepEncrypt_bufferOk h hleft

theorem cbcCloseAct_bufferOk {s : State} (h : s.bufferOk) (hiv : 16 ≤ s.dlen.toNat) : (cbcCloseAct s).bufferOk := by
  have hclose := engineClose_bufferOk h
  refine forgetTail_bufferOk ?_
  split
  · exact removePadding_bufferOk (trimZeros_bufferOk (stripIv_bufferOk hclose (by simpa using hiv)))
  · exact hclose

/-- The steps of SESS.EXEC: while REM is not 0 another whole block is left (44_session R160). -/
theorem stepLoop_bufferOk (n : Nat) {s : State} (h : s.bufferOk) (hleft : s.cur.toNat + 16 ≤ s.dlen.toNat)
    (hcur : s.cur.toNat % 16 = 0) (hdlen : s.dlen.toNat % 16 = 0) : (stepLoop n s).bufferOk := by
  induction n generalizing s with
  | zero => exact h
  | succ n ih =>
    have hstep := cbcStepAct_bufferOk h hleft
    unfold stepLoop
    split
    · exact hstep
    · next hrem =>
      have hcur' := cbcStepAct_cur_toNat hleft
      have hrem' : s.dlen.toNat - (s.cur.toNat + 16) ≠ 0 := by
        rw [← cbcStepAct_rem_toNat hleft]; exact fun hz => hrem (BitVec.eq_of_toNat_eq hz)
      refine ih hstep ?_ (by omega) (by simpa using hdlen)
      rw [hcur', cbcStepAct_dlen]; omega

/-- DLEN after the padding of SESS.EXEC (44_session R160 check 7). -/
theorem sessAppend_dlen_toNat {s : State} (hfits : s.isDecrypt = true ∨ paddedLen s ≤ Config.bufCap) :
    (sessAppend s).dlen.toNat = if s.isDecrypt then s.dlen.toNat else paddedLen s := by
  have hlt := bufCap_lt
  unfold sessAppend
  cases hd : s.isDecrypt with
  | true => rfl
  | false =>
    cases hp : s.isPkcs7 with
    | true =>
      simp only [hd, Bool.false_eq_true, false_or, paddedLen, hp, if_true] at hfits
      simp only [Bool.false_eq_true, if_false, if_true, paddedLen, hp, p7AppendAct_dlen, BitVec.toNat_add,
        BitVec.toNat_ofNat]
      omega
    | false => simp [paddedLen, hp]

/-- The checks of SESS.EXEC make the padded data fit for an open (44_session R160 checks 4, 6 and 7). -/
theorem sessAppend_openable {s : State} (hdata : s.dataValid = true) (hlen : (checkExecLength s).1 = true)
    (hfits : (checkExecFits s).1 = true) : (sessAppend s).openable := by
  have hdlen := sessAppend_dlen_toNat (s := s) (by
    cases hd : s.isDecrypt <;> simp [checkExecFits, hd] at hfits ⊢; omega)
  refine ⟨by simpa using hdata, ?_⟩
  rw [isDecrypt_of_cfg (sessAppend_cfg s), hdlen]
  cases hd : s.isDecrypt with
  | true => simp [checkExecLength, hd] at hlen ⊢; omega
  | false =>
    cases hp : s.isPkcs7 <;> simp [checkExecLength, checkExecFits, hd, hp, paddedLen, p7Count] at hlen hfits ⊢ <;> omega

theorem sessAppend_bufferOk {s : State} (h : s.bufferOk) (hdata : s.dataValid = true) (hfits : (checkExecFits s).1 = true) :
    (sessAppend s).bufferOk := by
  unfold sessAppend
  split
  · exact h
  · split
    · next hd hp =>
      simp [checkExecFits, hd, paddedLen, hp] at hfits
      exact p7AppendAct_bufferOk h hdata (by omega)
    · exact h

/-- After its open SESS.EXEC keeps DBUF in order: the steps stay below DLEN and the close shortens it. -/
theorem sessRun_bufferOk {s : State} (h : s.bufferOk) (hcur : s.cur.toNat = 16) (hlen : 32 ≤ s.dlen.toNat)
    (hmod : s.dlen.toNat % 16 = 0) : (sessRun s).bufferOk :=
  cbcCloseAct_bufferOk (stepLoop_bufferOk _ h (by omega) (by omega) hmod) (by rw [stepLoop_dlen]; omega)

theorem sessExecAct_bufferOk {s : State} (h : s.bufferOk) (hdata : s.dataValid = true)
    (hlen : (checkExecLength s).1 = true) (hfits : (checkExecFits s).1 = true) : (sessExecAct s).bufferOk := by
  have hclone : (keyCloneAct s).bufferOk := h
  have hopen : (sessAppend (keyCloneAct s)).openable := sessAppend_openable hdata hlen hfits
  obtain ⟨hlen', hmod'⟩ := cbcOpenAct_length hopen
  exact sessRun_bufferOk (cbcOpenAct_bufferOk (sessAppend_bufferOk hclone hdata hfits) hopen) (by simp) hlen' hmod'

/-- Every command that writes DBUF writes inside the buffer, and every one that lengthens the data has checked that it fits. -/
theorem actionOf_bufferOk {i : Instr} {s : State} (h : s.bufferOk) (hrun : s.runOk)
    (hc : firstFailing (checksOf i s) = none) : (actionOf i s).bufferOk := by
  rw [firstFailing_eq_none] at hc
  cases i with
  | sysReset _ => exact (afterReset_inv ..).buffer
  | sessCreate _ _ _ _ _ _ => exact forgetTail_bufferOk h
  | sessExec _ =>
    exact sessExecAct_bufferOk h (hc (checkData s) (by simp [checksOf, sessExecChecks]))
      (hc (checkExecLength s) (by simp [checksOf, sessExecChecks])) (hc (checkExecFits s) (by simp [checksOf, sessExecChecks]))
  | tfEncb off | tfDecb off =>
    have hoff := hc (checkBlock (offsetOf off) s) (by simp [checksOf, tfBlockChecks])
    exact blockUpdate_bufferOk h _ (of_decide_eq_true hoff)
  | spEncb off | spDecb off =>
    have hoff := hc (checkBlock (offsetOf off) s) (by simp [checksOf, spBlockChecks])
    exact blockUpdate_bufferOk h _ (of_decide_eq_true hoff)
  | p7Append _ =>
    have hfits := hc (checkAppendFits s) (by simp [checksOf])
    exact p7AppendAct_bufferOk h (hc (checkData s) (by simp [checksOf])) (of_decide_eq_true hfits)
  | p7Remove _ => exact p7RemoveAct_bufferOk h
  | cbcOpen _ =>
    exact cbcOpenAct_bufferOk h (openable_of_checks (hc (checkData s) (by simp [checksOf]))
      (hc (checkOpenLength s) (by simp [checksOf])) (hc (checkOpenFits s) (by simp [checksOf])))
  | cbcStep _ =>
    have hleft := hc (checkBlockLeft s) (by simp [checksOf])
    exact cbcStepAct_bufferOk h (of_decide_eq_true hleft)
  | cbcClose _ =>
    have hstepping := hc (checkStepping s) (by simp [checksOf])
    obtain ⟨hlow, hhigh, -⟩ := running_of_runOpen hrun (.inr (by simpa [checkStepping] using hstepping))
    exact cbcCloseAct_bufferOk h (hlow.trans hhigh)
  | _ => exact h

/-! ### Every step -/

theorem recordError_inv {s : State} (h : Inv s) (c : Cause) (w : Word) : Inv (s.recordError c w) where
  buffer := h.buffer
  keys := h.keys
  config := h.config
  error := recordError_errorOk c w s
  run := h.run

theorem refuse_inv {s : State} (h : Inv s) (c : Cause) (w : Word) : Inv (s.refuse c w) := by
  unfold State.refuse
  split
  · exact h
  · exact recordError_inv h c w

/-- A command keeps the invariant: it is dropped, Done or refused. -/
theorem exec_inv {i : Instr} {s t : State} (h : Inv s) (ht : exec i s = .next t) : Inv t := by
  rcases exec_cases ht with rfl | ⟨hc, rfl, -⟩ | ⟨-, c, -, rfl⟩
  · exact h
  · exact ⟨actionOf_bufferOk h.buffer h.run hc, actionOf_keysOk h.keys hc, actionOf_configOk h.config hc,
      actionOf_errorOk i h.error, actionOf_runOk h.run hc⟩
  · exact recordError_inv h c _

theorem runWord_inv {w : Word} {s t : State} (h : Inv s) (ht : runWord w s = .next t) : Inv t := by
  unfold runWord at ht
  split at ht
  · exact exec_inv h ht
  · cases ht; exact refuse_inv h _ _

theorem writeKeylen_inv {s : State} (h : Inv s) (v : Word) : Inv (writeKeylen v s) := by
  unfold writeKeylen
  split
  · exact refuse_inv h _ _
  · next hv =>
    obtain ⟨-, hwkey, -, hwabsent⟩ := h.keys
    exact ⟨h.buffer, ⟨Nat.not_lt.1 hv, hwkey, nofun, hwabsent⟩, h.config, h.error, h.run⟩

theorem writeDlen_inv {s : State} (h : Inv s) (v : Word) : Inv (writeDlen v s) := by
  unfold writeDlen
  split
  · exact refuse_inv h _ _
  · next hidle =>
    split
    · exact refuse_inv h _ _
    · next hv =>
      obtain ⟨hwf, hbelow, -, -⟩ := h.buffer
      exact ⟨⟨hwf, hbelow, Nat.not_lt.1 hv, nofun⟩, h.keys, h.config, h.error, runOk_of_idle h.run hidle rfl rfl rfl⟩

theorem writeDbuf_inv {s : State} (h : Inv s) {i : Nat} (hi : i < Config.bufCap) (b : Byte) : Inv (writeDbuf i b s) := by
  obtain ⟨hwf, hbelow, -, -⟩ := h.buffer
  exact ⟨bufferOk_of_dbuf h.buffer (write_wf hwf i b) (write_below hbelow i b hi) rfl rfl, h.keys, h.config, h.error, h.run⟩

/-- The invariant says nothing of the model's own fields: the pending accesses, the last value read and the draw counter. -/
theorem inv_of_model_fields {s : State} (h : Inv s) (host : List Access) (busRead : Word) (draws : Nat) :
    Inv { s with host := host, busRead := busRead, draws := draws } :=
  ⟨h.buffer, h.keys, h.config, h.error, h.run⟩

theorem readDbuf_inv {s : State} (h : Inv s) (i : Nat) : Inv (readDbuf i s) := by
  unfold readDbuf
  split <;> exact inv_of_model_fields h ..

theorem serveRead_inv {width : Width} {off : Nat} {s t : State} (h : Inv s) (ht : serveRead width off s = .next t) :
    Inv t := by
  unfold serveRead at ht
  cases hr : regionOf width off with
  | unlisted => simp [hr] at ht
  | dbuf i => simp only [hr] at ht; cases ht; exact readDbuf_inv h i
  | _ => simp only [hr] at ht; cases ht; exact inv_of_model_fields h ..

theorem serveWrite_inv {width : Width} {off : Nat} {v : Word} {s t : State} (h : Inv s)
    (ht : serveWrite width off v s = .next t) : Inv t := by
  unfold serveWrite at ht
  cases hr : regionOf width off with
  | unlisted => simp [hr] at ht
  | cmd => simp only [hr] at ht; exact runWord_inv h ht
  | keylen => simp only [hr] at ht; cases ht; exact writeKeylen_inv h v
  | dlen => simp only [hr] at ht; cases ht; exact writeDlen_inv h v
  | key i => simp only [hr] at ht; cases ht; exact ⟨h.buffer, h.keys, h.config, h.error, h.run⟩
  | dbuf i =>
    obtain ⟨-, -, hi⟩ := regionOf_dbuf hr
    simp only [hr] at ht; cases ht; exact writeDbuf_inv h hi _
  | _ => simp only [hr] at ht; cases ht; exact h

/-- Settles O60: an idle step keeps the state, and serving a read or a write keeps the invariant. -/
theorem stepKeepsInvariant : Obligations.StepKeepsInvariant := by
  intro s t h ht
  unfold step at ht
  split at ht
  · cases ht; exact h
  · next a rest _ =>
    have hrest : Inv { s with host := rest } := inv_of_model_fields h ..
    cases a with
    | read width off => exact serveRead_inv hrest ht
    | write width off v => exact serveWrite_inv hrest ht

end Sys2Proof.Machine

/-! ## The host port (10_state R26, 20_memory R44) -/

namespace Sys2Proof.Machine

/-! ### A step that serves one access -/

theorem step_of_read {s : State} {width : Width} {off : Nat} {rest : List Access}
    (h : s.host = .read width off :: rest) : step s = serveRead width off { s with host := rest } := by
  simp only [step, h, serve]

theorem step_of_write {s : State} {width : Width} {off : Nat} {v : Word} {rest : List Access}
    (h : s.host = .write width off v :: rest) : step s = serveWrite width off v { s with host := rest } := by
  simp only [step, h, serve]

/-! ### The map of the window -/

theorem regionOf_key_byte {i : Nat} (h : i < 32) : regionOf .byte (0x40 + i) = .key i := by
  simp only [regionOf, byteRegion, show ¬ 0x40 + i < 0x24 by omega, show ¬ 0x40 + i < 0x40 by omega,
    show 0x40 + i < 0x60 by omega, if_true, if_false, Nat.add_sub_cancel_left]

theorem regionOf_dbuf_byte {i : Nat} (h : i < Config.bufCap) : regionOf .byte (0x1000 + i) = .dbuf i := by
  simp only [regionOf, byteRegion, show ¬ 0x1000 + i < 0x24 by omega, show ¬ 0x1000 + i < 0x40 by omega,
    show ¬ 0x1000 + i < 0x60 by omega, show ¬ 0x1000 + i < 0x1000 by omega, h, if_true, if_false,
    Nat.add_sub_cancel_left]

/-- The offsets of the window that R26 names neither a register nor a byte of KEY or DBUF. -/
def reservedOffset (off : Nat) : Prop :=
  0x24 ≤ off ∧ off < 0x40 ∨ 0x60 ≤ off ∧ off < 0x1000 ∨ 0x1000 + Config.bufCap ≤ off

theorem byteRegion_eq_reserved_iff (off : Nat) : byteRegion off = .reserved ↔ reservedOffset off := by
  unfold reservedOffset
  fun_cases byteRegion off <;> simp only [reduceCtorEq, true_iff, false_iff] <;> omega

theorem wordRegion_eq_reserved_iff {off : Nat} (h : 0x24 ≤ off) : wordRegion off = .reserved ↔ reservedOffset off := by
  unfold reservedOffset
  fun_cases wordRegion off <;> simp only [reduceCtorEq, true_iff, false_iff] <;> omega

/-- Reserved offsets take bytes and aligned words (log 10). -/
theorem regionOf_of_reservedOffset {width : Width} {off : Nat} (hwidth : width = .byte ∨ width = .word ∧ off % 4 = 0)
    (h : reservedOffset off) : regionOf width off = .reserved := by
  have hlow : 0x24 ≤ off := by unfold reservedOffset at h; omega
  rcases hwidth with rfl | ⟨rfl, haligned⟩
  · exact (byteRegion_eq_reserved_iff off).2 h
  · simp only [regionOf, haligned, if_true, (wordRegion_eq_reserved_iff hlow).2 h]

/-! ### Host reads -/

/-- Settles O8: each listed access names its register, and `serveRead` answers with it. -/
theorem registerReads : Obligations.RegisterReads := by
  intro s width off rest hhost v hv
  rw [step_of_read hhost]
  rcases hv with ⟨rfl, hreg⟩ | ⟨rfl, hlow, hhigh, rfl⟩
  · rcases hreg with ⟨rfl, rfl⟩ | ⟨rfl, rfl⟩ | ⟨rfl, rfl⟩ | ⟨rfl, rfl⟩ | ⟨rfl, rfl⟩ | ⟨rfl, rfl⟩ | ⟨rfl, rfl⟩ | ⟨rfl, rfl⟩ |
      ⟨rfl, rfl⟩ <;> rfl
  · obtain ⟨i, rfl⟩ := Nat.exists_eq_add_of_le hlow
    simp only [serveRead, regionOf_key_byte (show i < 32 by omega)]
    rfl

/-- Settles O10: the read is the specified byte below DLEN or a draw, by `readDbuf_specified` and `readDbuf_draw`. -/
theorem dataByteRead : Obligations.DataByteRead := by
  intro s i rest hhost hi
  have hstep : step s = .next (readDbuf i { s with host := rest }) := by
    rw [step_of_read hhost]; simp only [serveRead, regionOf_dbuf_byte hi]
  by_cases hdraw : s.dlen.toNat ≤ i ∨ s.dbuf? i = none
  · refine ⟨Config.freeByte .dbuf s.draws i, s.draws + 1, fun v hlt hv => ?_, fun _ => ⟨rfl, rfl⟩, ?_⟩
    · rcases hdraw with hle | hnone
      · omega
      · simp [hv] at hnone
    · rw [hstep, readDbuf_draw (s := { s with host := rest }) hdraw]
  · obtain ⟨hlt, hsome⟩ := not_or.1 hdraw
    obtain ⟨b, hb⟩ := Option.ne_none_iff_exists'.1 hsome
    refine ⟨b, s.draws, fun v _ hv => ⟨Option.some.inj (hb.symm.trans hv), rfl⟩, fun h => absurd h hdraw, ?_⟩
    rw [hstep, readDbuf_specified (s := { s with host := rest }) (Nat.not_le.1 hlt) hb]

/-! ### Host writes -/

theorem writeKeylen_accepted {v : Word} (hv : v.toNat ≤ 32) (s : State) :
    writeKeylen v s = { s with keylen := v, keyValid := true } := if_neg (Nat.not_lt.2 hv)

theorem writeKeylen_refused {v : Word} (hv : 32 < v.toNat) (s : State) :
    writeKeylen v s = s.refuse .keylen 0x000014FF := if_pos hv

/-- Settles O11: KEYLEN takes up to 32 in every phase; above, the write is refused, as `State.refuse` says. -/
theorem keylenWrite : Obligations.KeylenWrite := by
  intro s v rest hhost
  have hstep : step s = .next (writeKeylen v { s with host := rest }) := step_of_write hhost
  refine ⟨fun hv => ?_, fun hv he => ?_, fun hv he => ?_⟩
  · rw [hstep, writeKeylen_accepted hv]
  · rw [hstep, writeKeylen_refused hv, refuse_of_ok (s := { s with host := rest }) he]; rfl
  · rw [hstep, writeKeylen_refused hv, refuse_of_err (s := { s with host := rest }) he]

theorem writeDlen_accepted {v : Word} {s : State} (hidle : ¬ s.runOpen) (hv : v.toNat ≤ Config.bufCap) :
    writeDlen v s = { s with dlen := v, dataValid := true } := by
  rw [writeDlen, if_neg hidle, if_neg (Nat.not_lt.2 hv)]

theorem writeDlen_refused_phase {s : State} (hopen : s.runOpen) (v : Word) :
    writeDlen v s = s.refuse .phase 0x000018FF := if_pos hopen

theorem writeDlen_refused_capacity {v : Word} {s : State} (hidle : ¬ s.runOpen) (hv : Config.bufCap < v.toNat) :
    writeDlen v s = s.refuse .capacity 0x000018FF := by
  rw [writeDlen, if_neg hidle, if_pos hv]; rfl

/-- Settles O12: DLEN takes up to BUF_CAP while no run is open; the phase is checked before the capacity. -/
theorem dlenWrite : Obligations.DlenWrite := by
  intro s v rest hhost
  have hstep : step s = .next (writeDlen v { s with host := rest }) := step_of_write hhost
  refine ⟨fun hidle hv => ?_, fun hopen he => ?_, fun hidle hv he => ?_, fun hbad he => ?_⟩
  · rw [hstep, writeDlen_accepted (s := { s with host := rest }) hidle hv]
  · rw [hstep, writeDlen_refused_phase (s := { s with host := rest }) hopen,
      refuse_of_ok (s := { s with host := rest }) he]
    rfl
  · rw [hstep, writeDlen_refused_capacity (s := { s with host := rest }) hidle hv,
      refuse_of_ok (s := { s with host := rest }) he]
    rfl
  · by_cases hopen : s.runOpen
    · rw [hstep, writeDlen_refused_phase (s := { s with host := rest }) hopen,
        refuse_of_err (s := { s with host := rest }) he]
    · rw [hstep, writeDlen_refused_capacity (s := { s with host := rest }) hopen (hbad.resolve_left hopen),
        refuse_of_err (s := { s with host := rest }) he]

/-- A byte of KEY after a host write of one. -/
theorem writeKey_getD {i : Nat} (h : i < 32) (b : Byte) (s : State) (j : Nat) :
    (writeKey i b s).key.getD j 0 = if j = i then b else s.key.getD j 0 := by
  simp only [writeKey_key, Vector.getD, Vector.toArray_setIfInBounds, Array.getD_eq_getD_getElem?,
    Array.getElem?_setIfInBounds]
  by_cases hj : j = i
  · simp [hj, h]
  · simp [hj, Ne.symm hj]

/-- Settles O13: the access names the byte, which `writeKey` or `Memory.write` replaces. -/
theorem byteWrites : Obligations.ByteWrites := by
  constructor
  · intro s i v rest hhost hi
    refine ⟨(writeKey i (v.setWidth 8) s).key, ?_, writeKey_getD hi _ s⟩
    rw [step_of_write hhost]
    simp only [serveWrite, regionOf_key_byte hi]
    rfl
  · intro s i v rest hhost hi
    refine ⟨Memory.write s.dbuf i (v.setWidth 8), ?_, find?_write s.dbuf i _⟩
    rw [step_of_write hhost]
    simp only [serveWrite, regionOf_dbuf_byte hi]
    rfl

/-- Settles O14: by the map of the window, whose reserved offsets are `regionOf_of_reservedOffset`. -/
theorem readOnlyAndReservedIgnored : Obligations.ReadOnlyAndReservedIgnored := by
  intro s width off v rest
  refine ⟨fun hhost hwidth hoff => ?_, fun hwidth hoff => ?_⟩
  · rw [step_of_write hhost]
    subst hwidth
    rcases hoff with rfl | rfl | rfl | rfl | rfl | rfl <;> rfl
  · have hregion : regionOf width off = .reserved := regionOf_of_reservedOffset hwidth hoff
    refine ⟨fun hhost => ?_, fun hhost => ?_⟩
    · rw [step_of_write hhost]; simp only [serveWrite, hregion]
    · rw [step_of_read hhost]; simp only [serveRead, hregion]; rfl

/-! ### STATUS (10_state R12, R13) -/

theorem flagBit_getLsbD (b : Bool) (n : Nat) {k : Nat} (hk : k < 32) :
    (flagBit b n).getLsbD k = (decide (k = n) && b) := by
  rw [flagBit, BitVec.getLsbD_shiftLeft, BitVec.getLsbD_setWidth, BitVec.getLsbD_ofBool]
  rcases Nat.lt_trichotomy k n with hlt | rfl | hgt
  · simp [hlt, Nat.ne_of_lt hlt]
  · simp [hk]
  · simp [Nat.ne_of_gt hgt, show k - n ≠ 0 by omega]

/-- The flags stand in bits 0 to 6, PHASE from bit 8. -/
theorem statusWord_getLsbD (s : State) {k : Nat} (hk : k < 32) :
    (statusWord s).getLsbD k =
      (decide (k = 0) && s.err || decide (k = 1) && s.cfgValid || decide (k = 2) && s.keyValid ||
        decide (k = 3) && s.dataValid || decide (k = 4) && s.wkeyValid || decide (k = 5) && s.tfxValid ||
        decide (k = 6) && s.spxValid || decide (8 ≤ k) && (phaseCode s.phase).getLsbD (k - 8)) := by
  have hphase : ((phaseCode s.phase).setWidth 32 <<< 8).getLsbD k =
      (decide (8 ≤ k) && (phaseCode s.phase).getLsbD (k - 8)) := by
    by_cases h8 : k < 8
    · simp [h8, Nat.not_le.2 h8]
    · simp [hk, h8, Nat.not_lt.1 h8]
  simp only [statusWord, BitVec.getLsbD_or, flagBit_getLsbD _ _ hk, hphase]

theorem statusWord_getLsbD_high (s : State) {k : Nat} (h8 : 8 ≤ k) (hk : k < 32) :
    (statusWord s).getLsbD k = (phaseCode s.phase).getLsbD (k - 8) := by
  rw [statusWord_getLsbD s hk]
  simp [h8, show k ≠ 0 by omega, show k ≠ 1 by omega, show k ≠ 2 by omega, show k ≠ 3 by omega, show k ≠ 4 by omega,
    show k ≠ 5 by omega, show k ≠ 6 by omega]

/-- Settles O9: bit by bit, the two fields by `statusWord_getLsbD_high`. -/
theorem statusLayout : Obligations.StatusLayout := by
  intro s
  refine ⟨?_, ?_, ?_, ?_, ?_, ?_, ?_, ?_, ?_, ?_⟩
  iterate 8
    · rw [statusWord_getLsbD s (by decide)]; simp
  · ext k hk
    rw [BitVec.getElem_extractLsb', statusWord_getLsbD_high s (by omega) (by omega), BitVec.getLsbD_of_ge _ _ (by omega)]
    simp
  · ext k hk
    rw [BitVec.getElem_extractLsb', statusWord_getLsbD_high s (by omega) (by omega), Nat.add_sub_cancel_left,
      BitVec.getLsbD_eq_getElem hk]
    rfl

end Sys2Proof.Machine

/-! ## Reset (10_state R25, 70_reset_and_hazards R200) -/

namespace Sys2Proof.Machine

/-- Settles O21: `SYS.RESET` has one check, of its argument, and both are the table of reset values. -/
theorem resetState : Obligations.ResetState :=
  ⟨fun _ => ⟨_, _, _, _, _, _, _, rfl⟩, ⟨_, _, _, _, _, _, rfl⟩⟩

/-! ## Which commands write the keys, CFG and the valid flags (70_reset_and_hazards R208) -/

theorem isSerpent_eq_true {s : State} (h : cfgAlg s.cfg = 1#1) : s.isSerpent = true := by
  simp [State.isSerpent, h]

theorem isSerpent_eq_false {s : State} (h : cfgAlg s.cfg = 0#1) : s.isSerpent = false := by
  simp [State.isSerpent, h]

/-- The caller's key and the data are the host's to give: of the commands only SYS.RESET touches them. -/
theorem actionOf_callerKey (i : Instr) (s : State) (hreset : ∀ arg, i ≠ .sysReset arg) :
    (actionOf i s).key = s.key ∧ (actionOf i s).keylen = s.keylen ∧ (actionOf i s).keyValid = s.keyValid ∧
      (actionOf i s).dataValid = s.dataValid := by
  cases i with
  | sysReset arg => exact absurd rfl (hreset arg)
  | sessExec _ => simp [actionOf, sessExecAct, sessRun]
  | _ => simp [actionOf]

theorem actionOf_cfg (i : Instr) (s : State) (hreset : ∀ arg, i ≠ .sysReset arg)
    (hcreate : ∀ alg dir mode pad rsv keybits, i ≠ .sessCreate alg dir mode pad rsv keybits) :
    (actionOf i s).cfg = s.cfg ∧ (actionOf i s).cfgValid = s.cfgValid := by
  cases i with
  | sysReset arg => exact absurd rfl (hreset arg)
  | sessCreate alg dir mode pad rsv keybits => exact absurd rfl (hcreate alg dir mode pad rsv keybits)
  | sessExec _ => simp [actionOf, sessExecAct, sessRun]
  | _ => simp [actionOf]

theorem actionOf_wkeyValid (i : Instr) (s : State) (hreset : ∀ arg, i ≠ .sysReset arg)
    (hclone : ∀ arg, i ≠ .keyClone arg) (hexec : ∀ arg, i ≠ .sessExec arg) :
    (actionOf i s).wkeyValid = s.wkeyValid := by
  cases i with
  | sysReset arg => exact absurd rfl (hreset arg)
  | keyClone arg => exact absurd rfl (hclone arg)
  | sessExec arg => exact absurd rfl (hexec arg)
  | _ => simp [actionOf]

/-- A session closes what it opened: the expanded key of CFG.ALG's engine is gone, the other's is as it was. -/
theorem sessExecAct_tfxValid (s : State) : (sessExecAct s).tfxValid = (s.isSerpent && s.tfxValid) := by
  cases h : cfgAlg s.cfg == 1#1 <;> simp [sessExecAct, sessRun, State.isSerpent, h]

theorem sessExecAct_spxValid (s : State) : (sessExecAct s).spxValid = (!s.isSerpent && s.spxValid) := by
  cases h : cfgAlg s.cfg == 1#1 <;> simp [sessExecAct, sessRun, State.isSerpent, h]

theorem actionOf_tfxValid (i : Instr) (s : State) (hreset : ∀ arg, i ≠ .sysReset arg)
    (hkeyx : ∀ arg, i ≠ .tfKeyx arg) (hclose : ∀ arg, i ≠ .tfClose arg)
    (hmode : (∀ arg, i ≠ .sessExec arg) ∧ (∀ arg, i ≠ .cbcOpen arg) ∧ (∀ arg, i ≠ .cbcClose arg) ∨
      s.isSerpent = true) :
    (actionOf i s).tfxValid = s.tfxValid := by
  cases i with
  | sysReset arg => exact absurd rfl (hreset arg)
  | tfKeyx arg => exact absurd rfl (hkeyx arg)
  | tfClose arg => exact absurd rfl (hclose arg)
  | sessExec arg => simp [actionOf, sessExecAct_tfxValid, hmode.resolve_left fun ⟨hexec, _, _⟩ => hexec arg rfl]
  | cbcOpen arg => simp [actionOf, hmode.resolve_left fun ⟨_, hopen, _⟩ => hopen arg rfl]
  | cbcClose arg => simp [actionOf, hmode.resolve_left fun ⟨_, _, hclosed⟩ => hclosed arg rfl]
  | _ => simp [actionOf]

theorem actionOf_spxValid (i : Instr) (s : State) (hreset : ∀ arg, i ≠ .sysReset arg)
    (hkeyx : ∀ arg, i ≠ .spKeyx arg) (hclose : ∀ arg, i ≠ .spClose arg)
    (hmode : (∀ arg, i ≠ .sessExec arg) ∧ (∀ arg, i ≠ .cbcOpen arg) ∧ (∀ arg, i ≠ .cbcClose arg) ∨
      s.isSerpent = false) :
    (actionOf i s).spxValid = s.spxValid := by
  cases i with
  | sysReset arg => exact absurd rfl (hreset arg)
  | spKeyx arg => exact absurd rfl (hkeyx arg)
  | spClose arg => exact absurd rfl (hclose arg)
  | sessExec arg => simp [actionOf, sessExecAct_spxValid, hmode.resolve_left fun ⟨hexec, _, _⟩ => hexec arg rfl]
  | cbcOpen arg => simp [actionOf, hmode.resolve_left fun ⟨_, hopen, _⟩ => hopen arg rfl]
  | cbcClose arg => simp [actionOf, hmode.resolve_left fun ⟨_, _, hclosed⟩ => hclosed arg rfl]
  | _ => simp [actionOf]

/-- Settles O58: a dropped or refused command writes none of these fields, and the actions are the lemmas above. -/
theorem onlyTheseCommandsWrite : Obligations.OnlyTheseCommandsWrite := by
  intro i s t ht hreset
  rcases exec_cases ht with rfl | ⟨-, rfl, -⟩ | ⟨-, c, -, rfl⟩
  · simp
  · obtain ⟨hkey, hkeylen, hkeyValid, hdataValid⟩ := actionOf_callerKey i s hreset
    exact ⟨hkey, hkeylen, hkeyValid, hdataValid, actionOf_cfg i s hreset, actionOf_wkeyValid i s hreset,
      fun hkeyx hclose hmode => actionOf_tfxValid i s hreset hkeyx hclose (hmode.imp_right isSerpent_eq_true),
      fun hkeyx hclose hmode => actionOf_spxValid i s hreset hkeyx hclose (hmode.imp_right isSerpent_eq_false)⟩
  · simp

end Sys2Proof.Machine


/-! ## Encoding (30_encoding R50 to R53) -/

namespace Sys2Proof

/-! ### Decoding a word -/

/-- Settles O1: the decoder computes each of the nine words. -/
theorem sampleWordsDecode : Obligations.SampleWordsDecode := by
  unfold Obligations.SampleWordsDecode
  decide

/-- A word is no command exactly where its opcode is outside the map of R52. -/
theorem decode_eq_none_iff (w : Word) : decode w = none ↔ opcField w ∉ Machine.commandOpcodes := by
  unfold decode
  fun_cases decodeWord w <;> simp [Machine.commandOpcodes, *]

theorem decode_of_opcode_create {w : Word} (h : opcField w = 0x08#8) : decode w = some (createFields w) := by
  simp [decode, decodeWord, h]

/-! ### Decoding what a command encodes to -/

/-- Settles O2: one law of the family RoundTrip for each command. -/
theorem decodeEncodeRoundTrip : Obligations.DecodeEncodeRoundTrip
  | .sysReset arg => Laws.RoundTrip.sysReset arg
  | .errAck arg => Laws.RoundTrip.errAck arg
  | .keyClone arg => Laws.RoundTrip.keyClone arg
  | .sessCreate alg dir mode pad rsv keybits => Laws.RoundTrip.sessCreate alg dir mode pad rsv keybits
  | .sessExec arg => Laws.RoundTrip.sessExec arg
  | .tfKeyx arg => Laws.RoundTrip.tfKeyx arg
  | .tfEncb off => Laws.RoundTrip.tfEncb off
  | .tfDecb off => Laws.RoundTrip.tfDecb off
  | .tfClose arg => Laws.RoundTrip.tfClose arg
  | .spKeyx arg => Laws.RoundTrip.spKeyx arg
  | .spEncb off => Laws.RoundTrip.spEncb off
  | .spDecb off => Laws.RoundTrip.spDecb off
  | .spClose arg => Laws.RoundTrip.spClose arg
  | .p7Append arg => Laws.RoundTrip.p7Append arg
  | .p7Remove arg => Laws.RoundTrip.p7Remove arg
  | .npAppend arg => Laws.RoundTrip.npAppend arg
  | .npRemove arg => Laws.RoundTrip.npRemove arg
  | .cbcOpen arg => Laws.RoundTrip.cbcOpen arg
  | .cbcStep arg => Laws.RoundTrip.cbcStep arg
  | .cbcClose arg => Laws.RoundTrip.cbcClose arg

/-! ### Encoding what a word decodes to -/

/-- The six fields of format C cover the bits above the opcode, each bit once (R50). -/
theorem argBits_createFields (w : Word) : (createFields w).argBits = argField w := by
  simp only [createFields, Instr.argBits, argField]
  ext k hk
  interval_cases k <;> simp

theorem argBits_of_decode {w : Word} {i : Instr} (h : decode w = some i) : i.argBits = argField w := by
  rcases (decode_fields h).2 with ⟨rfl, -⟩ | harg
  · exact argBits_createFields w
  · exact harg

/-- A word is its argument above its opcode (R50). -/
theorem argField_or_opcField (w : Word) : (argField w).setWidth 32 <<< 8 ||| (opcField w).setWidth 32 = w := by
  ext k hk
  by_cases hlow : k < 8
  · simp [argField, opcField, hlow, hk]
  · simp [argField, opcField, hlow, hk, show 8 + (k - 8) = k by omega, show k - 8 < 24 by omega,
      BitVec.getLsbD_eq_getElem]

/-- Settles O3: the decoded command has the word's opcode and argument, which are the whole word. -/
theorem encodeDecodeRoundTrip : Obligations.EncodeDecodeRoundTrip := by
  intro w i h
  rw [Instr.encode, argBits_of_decode h, (decode_fields h).1, argField_or_opcField]

end Sys2Proof

namespace Sys2Proof.Machine

/-! ### Running a word (R53, 60_exceptions R182, R183) -/

theorem runWord_of_decode {w : Word} {i : Instr} (h : decode w = some i) (s : State) : runWord w s = exec i s := by
  simp only [runWord, h]

theorem runWord_of_decode_none {w : Word} (h : decode w = none) (s : State) :
    runWord w s = .next (s.refuse .opcode w) := by
  simp only [runWord, h]

/-- A word is refused with the cause of its command's first failing check, and ERRCMD is the word itself. -/
theorem runWord_refused {w : Word} {i : Instr} {s : State} {c : Cause} (he : s.err = false) (hd : decode w = some i)
    (hc : firstFailing (checksOf i s) = some c) : runWord w s = .next (s.recordError c w) := by
  rw [runWord_of_decode hd, exec_refused he hc, encodeDecodeRoundTrip w i hd]

/-- The argument is the first check of every command of format Z (60_exceptions R185). -/
theorem checksOf_format_z {i : Instr} (h : commandFormat i = .z) (s : State) :
    ∃ rest, checksOf i s = checkZ i.argBits :: rest := by
  cases i with
  | sessCreate _ _ _ _ _ _ | tfEncb _ | tfDecb _ | spEncb _ | spDecb _ => cases h
  | _ => exact ⟨_, rfl⟩

theorem firstFailing_format_z {i : Instr} (h : commandFormat i = .z) (harg : i.argBits ≠ 0#24) (s : State) :
    firstFailing (checksOf i s) = some .operand := by
  obtain ⟨rest, hrest⟩ := checksOf_format_z h s
  simp [hrest, checkZ, WellFormed.argZero, harg]

theorem firstFailing_create_cfg {w : Word} (s : State)
    (h : w.extractLsb' 14 2 ≠ 0#2 ∨ w.extractLsb' 10 2 ≠ 0#2 ∨ w.extractLsb' 12 2 = 2#2 ∨
      w.extractLsb' 12 2 = 3#2) :
    firstFailing (checksOf (createFields w) s) = some .cfg := by
  have hbad : WellFormed.cfgFields (w.extractLsb' 10 2) (w.extractLsb' 12 2) (w.extractLsb' 14 2) = false := by
    rcases h with h | h | h | h <;> simp [WellFormed.cfgFields, h]
  simp [createFields, checksOf, checkCfgFields, hbad]

theorem firstFailing_create_keybits {w : Word} (s : State) (hrsv : w.extractLsb' 14 2 = 0#2)
    (hmode : w.extractLsb' 10 2 = 0#2) (hpad : w.extractLsb' 12 2 = 0#2 ∨ w.extractLsb' 12 2 = 1#2)
    (hbits : w.extractLsb' 16 16 ≠ 128#16 ∧ w.extractLsb' 16 16 ≠ 192#16 ∧ w.extractLsb' 16 16 ≠ 256#16) :
    firstFailing (checksOf (createFields w) s) = some .keybits := by
  have hok : WellFormed.cfgFields (w.extractLsb' 10 2) (w.extractLsb' 12 2) (w.extractLsb' 14 2) = true := by
    rcases hpad with h | h <;> simp [WellFormed.cfgFields, hrsv, hmode, h]
  have hbad : WellFormed.keyBits (w.extractLsb' 16 16) = false := by
    obtain ⟨h128, h192, h256⟩ := hbits
    simp [WellFormed.keyBits, h128, h192, h256]
  simp [createFields, checksOf, checkCfgFields, checkKeybits, hok, hbad]

/-- Settles O4: an opcode outside the map decodes to nothing, and in the other clauses the failing check is the first. -/
theorem illegalWordsRefused : Obligations.IllegalWordsRefused := by
  intro w s he
  refine ⟨fun hopc => ?_, fun i hd hz harg => ?_, fun hopc hcfg => ?_, fun hopc hrsv hmode hpad hbits => ?_⟩
  · rw [runWord_of_decode_none ((decode_eq_none_iff w).2 hopc), refuse_of_ok he]; rfl
  · exact runWord_refused he hd (firstFailing_format_z hz (argBits_of_decode hd ▸ harg) s)
  · exact runWord_refused he (decode_of_opcode_create hopc) (firstFailing_create_cfg s hcfg)
  · exact runWord_refused he (decode_of_opcode_create hopc) (firstFailing_create_keybits s hrsv hmode hpad hbits)

/-- A pending word for CMD is run on the state with that access taken away (R50, 20_memory R46). -/
theorem step_of_command {s : State} {w : Word} {rest : List Access} (h : s.host = commandAccess w :: rest) :
    step s = runWord w { s with host := rest } := step_of_write h

/-- Settles O5: the step runs the word; one that decodes to none is refused, or dropped while an error is pending. -/
theorem stepRunsDecodedCommand : Obligations.StepRunsDecodedCommand := by
  intro s w rest hhost
  rw [step_of_command hhost]
  refine ⟨fun i hd => runWord_of_decode hd _, fun hd he => ?_, fun hd he => ?_⟩
  · rw [runWord_of_decode_none hd, refuse_of_ok (s := { s with host := rest }) he]; rfl
  · rw [runWord_of_decode_none hd, refuse_of_err (s := { s with host := rest }) he]

end Sys2Proof.Machine

/-! ## XOR-linear maps and the bytes of a word (00_scope R7) -/

namespace Sys2Proof

/-- A map of bit vectors that turns XOR into XOR. -/
def XorLinear {n m : Nat} (f : BitVec n → BitVec m) : Prop := ∀ x y, f (x ^^^ y) = f x ^^^ f y

theorem XorLinear.map_zero {n m : Nat} {f : BitVec n → BitVec m} (h : XorLinear f) : f 0#n = 0#m := by
  simpa using h 0#n 0#n

theorem xor_xor_xor_comm {n : Nat} (a b c d : BitVec n) : a ^^^ b ^^^ (c ^^^ d) = a ^^^ c ^^^ (b ^^^ d) := by ac_rfl

theorem XorLinear.xor {n m : Nat} {f g : BitVec n → BitVec m} (hf : XorLinear f) (hg : XorLinear g) :
    XorLinear fun x => f x ^^^ g x := fun x y => by
  simp only [hf x y, hg x y, xor_xor_xor_comm]

theorem XorLinear.comp {n m k : Nat} {g : BitVec m → BitVec k} {f : BitVec n → BitVec m} (hg : XorLinear g)
    (hf : XorLinear f) : XorLinear fun x => g (f x) := fun x y => (congrArg g (hf x y)).trans (hg _ _)

theorem xorLinear_shiftLeft {n : Nat} (k : Nat) : XorLinear fun x : BitVec n => x <<< k := fun x y =>
  BitVec.shiftLeft_xor_distrib x y k

theorem xorLinear_id {n : Nat} : XorLinear fun x : BitVec n => x := fun _ _ => rfl

theorem xorLinear_ushiftRight {n : Nat} (k : Nat) : XorLinear fun x : BitVec n => x >>> k := fun x y =>
  BitVec.ushiftRight_xor_distrib x y k

/-- A constant added where one bit is set. -/
theorem xorLinear_ite_getLsbD {n m : Nat} (k : Nat) (c : BitVec m) :
    XorLinear fun x : BitVec n => if x.getLsbD k then c else 0#m := fun x y => by
  cases hx : x.getLsbD k <;> cases hy : y.getLsbD k <;> simp [hx, hy]

/-- The low `k + 1` bits are the low `k` bits and bit `k`. -/
theorem setWidth_setWidth_succ {n : Nat} (x : BitVec n) (k : Nat) :
    (x.setWidth (k + 1)).setWidth n = (x.setWidth k).setWidth n ^^^ if x.getLsbD k then BitVec.twoPow n k else 0#n := by
  ext j hj
  by_cases h : j = k
  · subst h; split <;> simp_all [← BitVec.getLsbD_eq_getElem]
  · split <;> simp [h, show j < k + 1 ↔ j < k by omega]

/-- XOR-linear maps that agree on every single bit agree. -/
theorem XorLinear.eq_of_twoPow {n m : Nat} {f g : BitVec n → BitVec m} (hf : XorLinear f) (hg : XorLinear g)
    (h : ∀ i, i < n → f (BitVec.twoPow n i) = g (BitVec.twoPow n i)) (x : BitVec n) : f x = g x := by
  have hlow : ∀ k, k ≤ n → f ((x.setWidth k).setWidth n) = g ((x.setWidth k).setWidth n) := by
    intro k
    induction k with
    | zero => intro _; simp [hf.map_zero, hg.map_zero, BitVec.of_length_zero]
    | succ k ih =>
      intro hk
      rw [setWidth_setWidth_succ, hf, hg, ih (by omega)]
      split
      · rw [h k hk]
      · rw [hf.map_zero, hg.map_zero]
  simpa using hlow n (Nat.le_refl n)

theorem ite_xor_self_right {p : Prop} [Decidable p] {n : Nat} (x c : BitVec n) :
    (if p then x ^^^ c else x) = x ^^^ if p then c else 0#n := by
  split <;> simp

end Sys2Proof

namespace Sys2Proof.Machine

theorem getLsbD_le32 (b0 b1 b2 b3 : Byte) (k : Nat) :
    (le32 b0 b1 b2 b3).getLsbD k =
      if k < 8 then b0.getLsbD k else if k < 16 then b1.getLsbD (k - 8) else if k < 24 then b2.getLsbD (k - 16)
      else if k < 32 then b3.getLsbD (k - 24) else false := by
  simp only [le32, BitVec.getLsbD_or, BitVec.getLsbD_shiftLeft, BitVec.getLsbD_setWidth]
  grind

/-- `LE32` is XOR-linear in its four bytes together. -/
theorem le32_xor (a0 a1 a2 a3 b0 b1 b2 b3 : Byte) :
    le32 (a0 ^^^ b0) (a1 ^^^ b1) (a2 ^^^ b2) (a3 ^^^ b3) = le32 a0 a1 a2 a3 ^^^ le32 b0 b1 b2 b3 := by
  refine BitVec.eq_of_getLsbD_eq fun k hk => ?_
  simp only [getLsbD_le32, BitVec.getLsbD_xor]
  grind

theorem gfmulLoop_xor (P : BitVec 9) (k : Nat) (a : BitVec 9) (b c r s : Byte) :
    gfmulLoop P k a (b ^^^ c) (r ^^^ s) = gfmulLoop P k a b r ^^^ gfmulLoop P k a c s := by
  induction k generalizing a b c r s with
  | zero => rfl
  | succ k ih =>
    have hr : (if (b ^^^ c).getLsbD 0 then r ^^^ s ^^^ a.setWidth 8 else r ^^^ s) =
        (if b.getLsbD 0 then r ^^^ a.setWidth 8 else r) ^^^ if c.getLsbD 0 then s ^^^ a.setWidth 8 else s := by
      simp only [ite_xor_self_right, xorLinear_ite_getLsbD 0 (a.setWidth 8) b c, xor_xor_xor_comm]
    simp only [gfmulLoop]
    rw [BitVec.ushiftRight_xor_distrib, hr, ih]

/-- The field product is additive in its second factor (R7). -/
theorem gfmul_xorLinear (P : BitVec 9) (a : Byte) : XorLinear (gfmul P a) := fun b c => by
  simpa [gfmul] using gfmulLoop_xor P 8 (a.setWidth 9) b c 0 0

theorem byteOf_le32 (b0 b1 b2 b3 : Byte) :
    byteOf (le32 b0 b1 b2 b3) 0 = b0 ∧ byteOf (le32 b0 b1 b2 b3) 1 = b1 ∧ byteOf (le32 b0 b1 b2 b3) 2 = b2 ∧
      byteOf (le32 b0 b1 b2 b3) 3 = b3 := by
  refine ⟨?_, ?_, ?_, ?_⟩
  all_goals
    refine BitVec.eq_of_getLsbD_eq fun k hk => ?_
    simp only [byteOf, BitVec.getLsbD_extractLsb', getLsbD_le32]
    grind

theorem le32_byteOf (a : Word) : le32 (byteOf a 0) (byteOf a 1) (byteOf a 2) (byteOf a 3) = a := by
  refine BitVec.eq_of_getLsbD_eq fun k hk => ?_
  simp only [byteOf, BitVec.getLsbD_extractLsb', getLsbD_le32]
  grind

theorem getLsbD_rol32 (x : Word) {n k : Nat} (hn : n < 32) (hk : k < 32) :
    (rol32 x n).getLsbD k = x.getLsbD ((k + (32 - n)) % 32) := by
  rw [rol32, BitVec.getLsbD_rotateLeft, Nat.mod_eq_of_lt hn]
  by_cases h : k < n
  · simp [h, Nat.mod_eq_of_lt (show k + (32 - n) < 32 by omega), Nat.add_comm]
  · simp [h, hk, show (k + (32 - n)) % 32 = k - n by omega]

theorem rol32_ror32 (x : Word) {n : Nat} (hn : n < 32) : rol32 (ror32 x n) n = x := by
  refine BitVec.eq_of_getLsbD_eq fun k hk => ?_
  rw [ror32, getLsbD_rol32 _ hn hk, getLsbD_rol32 _ (by omega) (by omega)]
  congr 1
  omega

theorem ror32_rol32 (x : Word) {n : Nat} (hn : n < 32) : ror32 (rol32 x n) n = x := by
  refine BitVec.eq_of_getLsbD_eq fun k hk => ?_
  rw [ror32, getLsbD_rol32 _ (by omega) hk, getLsbD_rol32 _ hn (by omega)]
  congr 1
  omega

theorem byteOf_rol32_eight (X : Word) {i : Nat} (hi : i < 4) : byteOf (rol32 X 8) i = byteOf X ((i + 3) % 4) := by
  refine BitVec.eq_of_getLsbD_eq fun k hk => ?_
  simp only [byteOf, BitVec.getLsbD_extractLsb', hk, decide_true, Bool.true_and]
  rw [getLsbD_rol32 _ (by decide) (by omega)]
  congr 1
  omega

/-! ## The RS matrix and the shift register (40_twofish R66, R67) -/

/-- The word of RS column `c` times one key byte (R66). -/
def rsColumn (c : Nat) (b : Byte) : Word :=
  le32 (gfmul 0x14D ((tfRS.getD 0 []).getD c 0) b) (gfmul 0x14D ((tfRS.getD 1 []).getD c 0) b)
    (gfmul 0x14D ((tfRS.getD 2 []).getD c 0) b) (gfmul 0x14D ((tfRS.getD 3 []).getD c 0) b)

theorem rsColumn_xorLinear (c : Nat) : XorLinear (rsColumn c) := fun x y => by
  simp only [rsColumn, gfmul_xorLinear _ _ x y, le32_xor]

/-- The RS matrix product is the sum of its columns. -/
theorem rsWord_eq_columns (key : List Byte) (i : Nat) :
    rsWord key i =
      rsColumn 0 (key.getD (8 * i) 0) ^^^ rsColumn 1 (key.getD (8 * i + 1) 0) ^^^ rsColumn 2 (key.getD (8 * i + 2) 0) ^^^
        rsColumn 3 (key.getD (8 * i + 3) 0) ^^^ rsColumn 4 (key.getD (8 * i + 4) 0) ^^^
        rsColumn 5 (key.getD (8 * i + 5) 0) ^^^ rsColumn 6 (key.getD (8 * i + 6) 0) ^^^ rsColumn 7 (key.getD (8 * i + 7) 0) := by
  simp only [rsWord, rsByte, rsColumn, List.range_succ, List.range_zero, List.nil_append, List.cons_append, List.foldl_cons,
    List.foldl_nil, BitVec.ofNat_eq_ofNat, BitVec.zero_xor, ← le32_xor, Nat.add_zero]

/-- The byte that leaves the shift register times the field's generator (R67). -/
def rsTimes (t : Word) : Word := (t <<< 1) ^^^ if t.getLsbD 7 then 0x14D#32 else 0#32

/-- The same byte divided by the generator (R67). -/
def rsOver (t : Word) : Word := (t >>> 1) ^^^ if t.getLsbD 0 then 0xA6#32 else 0#32

/-- What the byte that leaves the shift register adds to it (R67). -/
def rsFeedback (t : Word) : Word :=
  t ^^^ rsTimes t <<< 16 ^^^ (rsTimes t ^^^ rsOver t) <<< 24 ^^^ (rsTimes t ^^^ rsOver t) <<< 8

theorem rsFeedback_xorLinear : XorLinear rsFeedback := by
  have htimes : XorLinear rsTimes := (xorLinear_shiftLeft 1).xor (xorLinear_ite_getLsbD 7 _)
  have hboth : XorLinear fun t => rsTimes t ^^^ rsOver t :=
    htimes.xor ((xorLinear_ushiftRight 1).xor (xorLinear_ite_getLsbD 0 _))
  exact ((xorLinear_id.xor ((xorLinear_shiftLeft 16).comp htimes)).xor ((xorLinear_shiftLeft 24).comp hboth)).xor
    ((xorLinear_shiftLeft 8).comp hboth)

/-- One turn: the pair moves up by a byte, and the byte that leaves it is fed back (R67). -/
theorem rsRemStep_eq (p q : Word) : rsRemStep (p, q) = (p <<< 8, q <<< 8 ^^^ p >>> 24 ^^^ rsFeedback (q >>> 24)) := by
  have hor : q <<< 8 ||| p >>> 24 = q <<< 8 ^^^ p >>> 24 := by
    refine BitVec.eq_of_getLsbD_eq fun k hk => ?_
    simp only [BitVec.getLsbD_or, BitVec.getLsbD_xor, BitVec.getLsbD_shiftLeft, BitVec.getLsbD_ushiftRight]
    grind
  simp only [rsRemStep, rsFeedback, rsTimes, rsOver, hor, ite_xor_self_right, BitVec.ofNat_eq_ofNat]
  simp only [BitVec.xor_assoc]

/-- XOR of two register pairs. -/
def xorPair (x y : Word × Word) : Word × Word := (x.1 ^^^ y.1, x.2 ^^^ y.2)

theorem rsRemStep_xorPair (x y : Word × Word) : rsRemStep (xorPair x y) = xorPair (rsRemStep x) (rsRemStep y) := by
  obtain ⟨p, q⟩ := x
  obtain ⟨r, s⟩ := y
  simp only [xorPair, rsRemStep_eq, BitVec.shiftLeft_xor_distrib, BitVec.ushiftRight_xor_distrib, rsFeedback_xorLinear _ _,
    xor_xor_xor_comm]

theorem repeat_rsRemStep_xorPair (n : Nat) (x y : Word × Word) :
    Nat.repeat rsRemStep n (xorPair x y) = xorPair (Nat.repeat rsRemStep n x) (Nat.repeat rsRemStep n y) := by
  induction n with
  | zero => rfl
  | succ n ih => simp only [Nat.repeat, ih, rsRemStep_xorPair]

theorem rsRem_xor (p q r s : Word) : rsRem (p ^^^ r) (q ^^^ s) = rsRem p q ^^^ rsRem r s :=
  congrArg Prod.snd (repeat_rsRemStep_xorPair 8 (p, q) (r, s))

/-- The word whose byte `j` is `b` and whose others are 0. -/
def wordWithByte (j : Nat) (b : Byte) : Word :=
  le32 (if j = 0 then b else 0) (if j = 1 then b else 0) (if j = 2 then b else 0) (if j = 3 then b else 0)

theorem wordWithByte_xorLinear (j : Nat) : XorLinear (wordWithByte j) := fun x y => by
  rw [wordWithByte, wordWithByte, wordWithByte, ← le32_xor]
  congr 1 <;> split <;> simp

theorem le32_eq_xor_wordWithByte (b0 b1 b2 b3 : Byte) :
    le32 b0 b1 b2 b3 = wordWithByte 0 b0 ^^^ wordWithByte 1 b1 ^^^ wordWithByte 2 b2 ^^^ wordWithByte 3 b3 := by
  simp [wordWithByte, ← le32_xor]

theorem rsRem_low_xorLinear : XorLinear fun p => rsRem p 0 := fun p r => rsRem_xor p 0 r 0

theorem rsRem_high_xorLinear : XorLinear fun q => rsRem 0 q := fun q s => rsRem_xor 0 q 0 s

/-- A byte of the low word comes out as its RS column: both are XOR-linear, so eight bits of each byte decide it. -/
theorem rsRem_low_byte {c : Nat} (hc : c < 4) (b : Byte) : rsRem (wordWithByte c b) 0 = rsColumn c b := by
  have hbits : ∀ c, c < 4 → ∀ i, i < 8 → rsRem (wordWithByte c (BitVec.twoPow 8 i)) 0 = rsColumn c (BitVec.twoPow 8 i) := by
    decide
  exact (rsRem_low_xorLinear.comp (wordWithByte_xorLinear c)).eq_of_twoPow (rsColumn_xorLinear c) (hbits c hc) b

/-- A byte of the high word too. -/
theorem rsRem_high_byte {c : Nat} (hc : c < 4) (b : Byte) : rsRem 0 (wordWithByte c b) = rsColumn (c + 4) b := by
  have hbits : ∀ c, c < 4 → ∀ i, i < 8 →
      rsRem 0 (wordWithByte c (BitVec.twoPow 8 i)) = rsColumn (c + 4) (BitVec.twoPow 8 i) := by
    decide
  exact (rsRem_high_xorLinear.comp (wordWithByte_xorLinear c)).eq_of_twoPow (rsColumn_xorLinear (c + 4)) (hbits c hc) b

/-- The shift register's word is the sum of the RS columns of the eight bytes put in. -/
theorem rsRem_le32 (b0 b1 b2 b3 b4 b5 b6 b7 : Byte) :
    rsRem (le32 b0 b1 b2 b3) (le32 b4 b5 b6 b7) =
      rsColumn 0 b0 ^^^ rsColumn 1 b1 ^^^ rsColumn 2 b2 ^^^ rsColumn 3 b3 ^^^
        (rsColumn 4 b4 ^^^ rsColumn 5 b5 ^^^ rsColumn 6 b6 ^^^ rsColumn 7 b7) := by
  have hsplit (p q : Word) : rsRem p q = rsRem p 0 ^^^ rsRem 0 q := by simpa using rsRem_xor p 0 0 q
  rw [hsplit, le32_eq_xor_wordWithByte, le32_eq_xor_wordWithByte]
  simp (disch := decide) only [rsRem_low_xorLinear _ _, rsRem_high_xorLinear _ _, rsRem_low_byte, rsRem_high_byte]

theorem tfKeyWord_even (key : List Byte) (i : Nat) :
    tfKeyWord key (2 * i) =
      le32 (key.getD (8 * i) 0) (key.getD (8 * i + 1) 0) (key.getD (8 * i + 2) 0) (key.getD (8 * i + 3) 0) := by
  rw [tfKeyWord, show 4 * (2 * i) = 8 * i by omega]

theorem tfKeyWord_odd (key : List Byte) (i : Nat) :
    tfKeyWord key (2 * i + 1) =
      le32 (key.getD (8 * i + 4) 0) (key.getD (8 * i + 5) 0) (key.getD (8 * i + 6) 0) (key.getD (8 * i + 7) 0) := by
  rw [tfKeyWord, show 4 * (2 * i + 1) = 8 * i + 4 by omega]

/-- Settles O32: both forms are the sum of the RS columns of the eight key bytes. -/
theorem tfRsFormsAgree : Obligations.TfRsFormsAgree := by
  intro key i
  rw [rsWord_eq_columns, tfKeyWord_even, tfKeyWord_odd, rsRem_le32]
  simp only [BitVec.xor_assoc]

/-! ## The key schedule (40_twofish R65 to R74) -/

theorem tfLookup_tfTables (S : List Word) (j : Fin 4) (x : Byte) :
    tfLookup (tfTables S) j x = mTable j (hLane j S S.length x) := by
  simp [tfLookup, tfTables]

/-- Settles O30: one lookup for each byte of the word. -/
theorem tfTablesGiveH : Obligations.TfTablesGiveH := by
  intro X S
  simp only [tfG0, tfLookup_tfTables]
  rfl

/-- Settles O31: byte `i` of the rotated word is byte `i - 1` of the word. -/
theorem tfG1IsRotatedG0 : Obligations.TfG1IsRotatedG0 := by
  intro M X
  simp (disch := decide) only [tfG0, tfG1, byteOf_rol32_eight]

/-- Settles O29: both subkeys of a pair come from the same two values of `h`. -/
theorem tfSubkeyPairs : Obligations.TfSubkeyPairs := by
  rintro me mo i hi _ _ rfl rfl
  constructor
  · rw [tfSubkeys, table_getD _ _ _ (by omega), tfSubkey, if_pos (by omega), show 2 * i / 2 = i by omega]
    rfl
  · rw [tfSubkeys, table_getD _ _ _ (by omega), tfSubkey, if_neg (by omega), show (2 * i + 1) / 2 = i by omega]
    rfl

theorem le_tfKeySize {L : Nat} (h : L ≤ 32) : L ≤ tfKeySize L := by
  unfold tfKeySize
  split <;> [assumption; split <;> assumption]

theorem tfKeyBytes_length {L : Nat} (h : L ≤ 32) (w : Vector Byte 32) : (tfKeyBytes L w).length = tfKeySize L := by
  have := le_tfKeySize h
  simp only [tfKeyBytes, List.length_append, List.length_take, Vector.length_toList, List.length_replicate]
  omega

/-- The normalized key byte by byte (R65). -/
theorem tfKeyBytes_getElem {L : Nat} (h : L ≤ 32) (w : Vector Byte 32) (i : Nat) (hi : i < (tfKeyBytes L w).length) :
    (tfKeyBytes L w)[i] = if i < L then w.getD i 0 else 0 := by
  simp only [tfKeyBytes, List.getElem_append, List.length_take, Vector.length_toList, Nat.min_eq_left h, List.getElem_take,
    Vector.getElem_toList, List.getElem_replicate]
  split
  · next hlt => simp [Vector.getD, show i < 32 by omega]
  · rfl

/-- Zero bytes put after a key of the same size leave the normalized key (R80). -/
theorem tfKeyBytes_zero_extended {L L' : Nat} {w w' : Vector Byte 32} (hle : L ≤ L') (hmax : L' ≤ 32)
    (hsize : tfKeySize L = tfKeySize L') (hsame : ∀ i, i < L → w'.getD i 0 = w.getD i 0)
    (hzero : ∀ i, L ≤ i → i < L' → w'.getD i 0 = 0) : tfKeyBytes L w = tfKeyBytes L' w' := by
  have hmin : L ≤ 32 := by omega
  refine List.ext_getElem (by rw [tfKeyBytes_length hmin, tfKeyBytes_length hmax, hsize]) fun i h1 h2 => ?_
  rw [tfKeyBytes_getElem hmin, tfKeyBytes_getElem hmax]
  by_cases hlow : i < L
  · rw [if_pos hlow, if_pos (by omega), hsame i hlow]
  · rw [if_neg hlow]
    split
    · next hlt => exact (hzero i (by omega) hlt).symm
    · rfl

/-- Settles O33: the two keys have the same normalized bytes and the same size, which are all the schedule takes. -/
theorem tfZeroExtendedKey : Obligations.TfZeroExtendedKey := by
  intro L L' w w' hle hmax hsize hsame hzero
  simp only [tfScheduleK, tfScheduleM, tfKLen, hsize, tfKeyBytes_zero_extended hle hmax hsize hsame hzero, and_self]

/-! ## The rounds (40_twofish R75, R76) -/

/-- A round of R75 with the subkeys of round `n` on the words 0 and 1, which changes the words 2 and 3. -/
def tfEvenRound (K : Vector Word 40) (M : Vector (Vector Word 256) 4) (n : Nat) (r : Quad) : Quad :=
  let y := tfForward M r.w0 r.w1 r.w2 r.w3 (tfKey K (8 + 2 * n)) (tfKey K (9 + 2 * n))
  ⟨r.w0, r.w1, y.1, y.2⟩

/-- The same round on the words 2 and 3, which changes the words 0 and 1. -/
def tfOddRound (K : Vector Word 40) (M : Vector (Vector Word 256) 4) (n : Nat) (r : Quad) : Quad :=
  let y := tfForward M r.w2 r.w3 r.w0 r.w1 (tfKey K (8 + 2 * n)) (tfKey K (9 + 2 * n))
  ⟨y.1, y.2, r.w2, r.w3⟩

/-- A double-round is an even round and the odd one after it (R76). -/
theorem tfDouble_eq (K : Vector Word 40) (M : Vector (Vector Word 256) 4) (j : Nat) (r : Quad) :
    tfDouble K M j r = tfOddRound K M (2 * j + 1) (tfEvenRound K M (2 * j) r) := by
  simp only [tfDouble, tfOddRound, tfEvenRound, show 8 + 2 * (2 * j) = 8 + 4 * j by omega,
    show 9 + 2 * (2 * j) = 9 + 4 * j by omega, show 8 + 2 * (2 * j + 1) = 10 + 4 * j by omega,
    show 9 + 2 * (2 * j + 1) = 11 + 4 * j by omega]

/-- Settles O34: by induction, `k` double-rounds lead to entry `2 * k` of the sequence. -/
theorem tfSixteenRounds : Obligations.TfSixteenRounds := by
  intro K M x r hstart heven hodd
  have hdouble (j : Nat) (hj : j < 8) : tfDouble K M j (r (2 * j)) = r (2 * (j + 1)) := by
    have h1 : r (2 * j + 1) = tfEvenRound K M (2 * j) (r (2 * j)) := heven (2 * j) (by omega) (by omega)
    have h2 : r (2 * j + 1 + 1) = tfOddRound K M (2 * j + 1) (r (2 * j + 1)) := hodd (2 * j + 1) (by omega) (by omega)
    rw [tfDouble_eq, ← h1, ← h2]
    rfl
  have hrounds (k : Nat) (hk : k ≤ 8) : (List.range k).foldl (fun y j => tfDouble K M j y) (r 0) = r (2 * k) := by
    induction k with
    | zero => rfl
    | succ k ih => rw [List.range_succ, List.foldl_append, ih (by omega)]; exact hdouble k hk
  have hwhite : xorQuad x (tfWhiteIn K) = r 0 := hstart.symm
  rw [tfEncQuad, hwhite, hrounds 8 (Nat.le_refl 8)]
  rfl

/-! ## Decryption undoes encryption (40_twofish R75 to R77) -/

theorem tfInverse_tfForward (M : Vector (Vector Word 256) 4) (a b c d ka kb : Word) :
    tfInverse M a b (tfForward M a b c d ka kb).1 (tfForward M a b c d ka kb).2 ka kb = (c, d) := by
  simp [tfInverse, tfForward, rol32_ror32, ror32_rol32]

theorem tfForward_tfInverse (M : Vector (Vector Word 256) 4) (a b c d ka kb : Word) :
    tfForward M a b (tfInverse M a b c d ka kb).1 (tfInverse M a b c d ka kb).2 ka kb = (c, d) := by
  simp [tfInverse, tfForward, rol32_ror32, ror32_rol32]

theorem tfUndouble_tfDouble (K : Vector Word 40) (M : Vector (Vector Word 256) 4) (j : Nat) (r : Quad) :
    tfUndouble K M j (tfDouble K M j r) = r := by
  simp only [tfUndouble, tfDouble, tfInverse_tfForward]

theorem tfDouble_tfUndouble (K : Vector Word 40) (M : Vector (Vector Word 256) 4) (j : Nat) (r : Quad) :
    tfDouble K M j (tfUndouble K M j r) = r := by
  simp only [tfUndouble, tfDouble, tfForward_tfInverse]

/-- Steps taken back in the opposite order. -/
theorem foldr_foldl_of_inverse {α β : Type} {f : β → α → β} {g : α → β → β} (h : ∀ j r, g j (f r j) = r) (l : List α)
    (x : β) : l.foldr g (l.foldl f x) = x := by
  induction l generalizing x with
  | nil => rfl
  | cons j l ih => rw [List.foldl_cons, List.foldr_cons, ih, h]

theorem foldl_foldr_of_inverse {α β : Type} {f : β → α → β} {g : α → β → β} (h : ∀ j r, f (g j r) j = r) (l : List α)
    (x : β) : l.foldl f (l.foldr g x) = x := by
  induction l with
  | nil => rfl
  | cons j l ih => rw [List.foldr_cons, List.foldl_cons, h, ih]

theorem xorQuad_xorQuad_cancel (x k : Quad) : xorQuad (xorQuad x k) k = x := by
  simp [xorQuad]

theorem tfSwap_tfSwap (r : Quad) : tfSwap (tfSwap r) = r := rfl

theorem tfDecQuad_tfEncQuad (K : Vector Word 40) (M : Vector (Vector Word 256) 4) (x : Quad) :
    tfDecQuad K M (tfEncQuad K M x) = x := by
  rw [tfDecQuad, tfEncQuad, xorQuad_xorQuad_cancel, tfSwap_tfSwap, foldr_foldl_of_inverse (tfUndouble_tfDouble K M),
    xorQuad_xorQuad_cancel]

theorem tfEncQuad_tfDecQuad (K : Vector Word 40) (M : Vector (Vector Word 256) 4) (x : Quad) :
    tfEncQuad K M (tfDecQuad K M x) = x := by
  rw [tfDecQuad, tfEncQuad, xorQuad_xorQuad_cancel, foldl_foldr_of_inverse (tfDouble_tfUndouble K M), tfSwap_tfSwap,
    xorQuad_xorQuad_cancel]

theorem quadOfBlock_blockOfQuad (q : Quad) : quadOfBlock (blockOfQuad q) = q := by
  simp [quadOfBlock, blockOfQuad, le32_byteOf]

theorem blockOfQuad_quadOfBlock (b : Block) : blockOfQuad (quadOfBlock b) = b := by
  refine vector_ext fun i hi => ?_
  interval_cases i <;> simp [quadOfBlock, blockOfQuad, byteOf_le32]

theorem tfDecBlock_tfEncBlock (K : Vector Word 40) (M : Vector (Vector Word 256) 4) (b : Block) :
    tfDecBlock K M (tfEncBlock K M b) = b := by
  rw [tfDecBlock, tfEncBlock, quadOfBlock_blockOfQuad, tfDecQuad_tfEncQuad, blockOfQuad_quadOfBlock]

theorem tfEncBlock_tfDecBlock (K : Vector Word 40) (M : Vector (Vector Word 256) 4) (b : Block) :
    tfEncBlock K M (tfDecBlock K M b) = b := by
  rw [tfDecBlock, tfEncBlock, quadOfBlock_blockOfQuad, tfEncQuad_tfDecQuad, blockOfQuad_quadOfBlock]

/-! ## The commands (40_twofish R76 to R79, 41_serpent R114) -/

theorem checkIdle_of_not_runOpen {s : State} (h : ¬ s.runOpen) : (checkIdle s).1 = true := by
  obtain ⟨hopened, hstepping⟩ := not_or.1 h
  cases hp : s.phase <;> simp_all [checkIdle, State.isIdle]

/-- Settles O28: with no run open and a working key no check fails. -/
theorem tfKeyxRule : Obligations.TfKeyxRule := by
  intro s he hidle hkey
  refine exec_done (i := .tfKeyx 0) he (firstFailing_eq_none.2 ?_)
  simp [checksOf, checkIdle_of_not_runOpen hidle, checkWkey, hkey, checkZ, WellFormed.argZero]

/-- Settles O46: with no run open no check fails. -/
theorem engineCloseRules : Obligations.EngineCloseRules := by
  intro s he hidle
  have hchecks : firstFailing [checkZ 0, checkIdle s] = none := by
    simp [checkIdle_of_not_runOpen hidle, checkZ, WellFormed.argZero]
  exact ⟨⟨_, _, _, exec_done (i := .tfClose 0) he hchecks⟩, ⟨_, _, exec_done (i := .spClose 0) he hchecks⟩⟩

theorem firstFailing_tfBlockChecks {s : State} {off : Nat} (hidle : ¬ s.runOpen) (hdata : s.dataValid = true)
    (hkey : s.tfxValid = true) (hlen : off + 16 ≤ s.dlen.toNat) : firstFailing (tfBlockChecks off s) = none := by
  simp [tfBlockChecks, checkIdle_of_not_runOpen hidle, checkData, hdata, hkey, checkBlock, hlen]

theorem exec_tfEncb {s : State} {off : BitVec 24} (he : s.err = false)
    (hchecks : firstFailing (tfBlockChecks off.toNat s) = none) :
    exec (.tfEncb off) s = .next (s.blockUpdate (tfEncBlock s.tfK s.tfM) off.toNat) :=
  exec_done (i := .tfEncb off) he hchecks

theorem exec_tfDecb {s : State} {off : BitVec 24} (he : s.err = false)
    (hchecks : firstFailing (tfBlockChecks off.toNat s) = none) :
    exec (.tfDecb off) s = .next (s.blockUpdate (tfDecBlock s.tfK s.tfM) off.toNat) :=
  exec_done (i := .tfDecb off) he hchecks

/-- A block update writes only DBUF, and there a function of a block the command can read. -/
theorem blockUpdate_rule (f : Block → Block) (o : Nat) (s : State) :
    ∃ B m draws, s.reads o B ∧ s.blockUpdate f o = { s with dbuf := m, draws := draws } ∧
      ∀ a, Memory.find? m a = if o ≤ a ∧ a < o + 16 then some ((f B).getD (a - o) 0) else s.dbuf? a :=
  ⟨s.readBlock o, _, _, reads_readBlock s o, rfl, dbuf?_blockUpdate f o s⟩

/-- Settles O35: each command is the block update with its transform. -/
theorem tfBlockRule : Obligations.TfBlockRule := by
  intro s off he hidle hdata hkey hlen
  have hchecks := firstFailing_tfBlockChecks hidle hdata hkey hlen
  rw [exec_tfEncb he hchecks, exec_tfDecb he hchecks]
  obtain ⟨B, m, d, hreads, heq, hbytes⟩ := blockUpdate_rule (tfEncBlock s.tfK s.tfM) off.toNat s
  obtain ⟨B', m', d', hreads', heq', hbytes'⟩ := blockUpdate_rule (tfDecBlock s.tfK s.tfM) off.toNat s
  exact ⟨⟨B, m, d, hreads, congrArg _ heq, hbytes⟩, ⟨B', m', d', hreads', congrArg _ heq', hbytes'⟩⟩

/-- A block update and its inverse at the same place give sixteen specified bytes back. -/
theorem dbuf?_blockUpdate_inverse {f g : Block → Block} {s : State} {o : Nat} (hinv : ∀ b, g (f b) = b)
    (hspec : ∀ i, i < 16 → (s.dbuf? (o + i)).isSome) (a : Nat) :
    ((s.blockUpdate f o).blockUpdate g o).dbuf? a = s.dbuf? a := by
  rw [dbuf?_blockUpdate, readBlock_blockUpdate, hinv, dbuf?_blockUpdate]
  split
  · next h =>
    obtain ⟨v, hv⟩ := Option.isSome_iff_exists.1 (hspec (a - o) (by omega))
    rw [show o + (a - o) = a by omega] at hv
    rw [readBlock_getD _ _ _ (by omega), show o + (a - o) = a by omega, byteAt_of_some hv, hv]
  · rfl

/-- Two block commands that undo each other, one after the other, leave DBUF as it was. -/
theorem runCommands_inverse_blocks {i j : Instr} {f g : Block → Block} {s : State} {o : Nat} (he : s.err = false)
    (hi : exec i s = .next (s.blockUpdate f o))
    (hj : exec j (s.blockUpdate f o) = .next ((s.blockUpdate f o).blockUpdate g o)) (hinv : ∀ b, g (f b) = b)
    (hspec : ∀ k, k < 16 → (s.dbuf? (o + k)).isSome) :
    ∃ t, runCommands [i, j] s = .next t ∧ t.err = false ∧ ∀ a, t.dbuf? a = s.dbuf? a :=
  ⟨(s.blockUpdate f o).blockUpdate g o, by rw [runCommands_cons hi, runCommands_cons hj]; rfl, he,
    dbuf?_blockUpdate_inverse hinv hspec⟩

/-- A block update leaves everything TF.ENCB and TF.DECB check and the expanded key, so either can follow it. -/
theorem exec_tf_after_blockUpdate {s : State} {off : BitVec 24} (he : s.err = false)
    (hchecks : firstFailing (tfBlockChecks off.toNat s) = none) (f : Block → Block) (o : Nat) :
    exec (.tfEncb off) (s.blockUpdate f o) =
        .next ((s.blockUpdate f o).blockUpdate (tfEncBlock s.tfK s.tfM) off.toNat) ∧
      exec (.tfDecb off) (s.blockUpdate f o) =
        .next ((s.blockUpdate f o).blockUpdate (tfDecBlock s.tfK s.tfM) off.toNat) := by
  have hagain : firstFailing (tfBlockChecks off.toNat (s.blockUpdate f o)) = none := hchecks
  have herr : (s.blockUpdate f o).err = false := he
  exact ⟨exec_tfEncb herr hagain, exec_tfDecb herr hagain⟩

/-- Settles O36: each command can follow the other, and its transform undoes the other's. -/
theorem tfDecryptUndoesEncrypt : Obligations.TfDecryptUndoesEncrypt := by
  intro s off he hidle hdata hkey hlen hspec
  have hchecks := firstFailing_tfBlockChecks hidle hdata hkey hlen
  have hafter (f : Block → Block) := exec_tf_after_blockUpdate he hchecks f off.toNat
  constructor
  · exact runCommands_inverse_blocks he (exec_tfEncb he hchecks) (hafter _).2 (tfDecBlock_tfEncBlock s.tfK s.tfM) hspec
  · exact runCommands_inverse_blocks he (exec_tfDecb he hchecks) (hafter _).1 (tfEncBlock_tfDecBlock s.tfK s.tfM) hspec

end Sys2Proof.Machine

/-! ## The Serpent S-boxes and the linear step (41_serpent R100 to R105) -/

namespace Sys2Proof.Machine

theorem getLsbD_wordOfBits (f : Nat → Bool) {n j : Nat} (h : j < n) : (wordOfBits f n).getLsbD j = f j := by
  induction n with
  | zero => omega
  | succ n ih =>
    rw [wordOfBits, BitVec.getLsbD_cons]
    split
    · next hj => rw [hj]
    · exact ih (by omega)

theorem getLsbD_column (x : Quad) (j : Nat) :
    (column x j).getLsbD 0 = x.w0.getLsbD j ∧ (column x j).getLsbD 1 = x.w1.getLsbD j ∧
      (column x j).getLsbD 2 = x.w2.getLsbD j ∧ (column x j).getLsbD 3 = x.w3.getLsbD j := by
  simp [column]

/-- Quadruples with the same thirty-two bit columns are equal. -/
theorem quad_ext_column {x y : Quad} (h : ∀ j, j < 32 → column x j = column y j) : x = y := by
  have hbits (j : Nat) (hj : j < 32) : x.w0.getLsbD j = y.w0.getLsbD j ∧ x.w1.getLsbD j = y.w1.getLsbD j ∧
      x.w2.getLsbD j = y.w2.getLsbD j ∧ x.w3.getLsbD j = y.w3.getLsbD j := by
    obtain ⟨hx0, hx1, hx2, hx3⟩ := getLsbD_column x j
    obtain ⟨hy0, hy1, hy2, hy3⟩ := getLsbD_column y j
    rw [h j hj] at hx0 hx1 hx2 hx3
    exact ⟨hx0.symm.trans hy0, hx1.symm.trans hy1, hx2.symm.trans hy2, hx3.symm.trans hy3⟩
  obtain ⟨x0, x1, x2, x3⟩ := x
  obtain ⟨y0, y1, y2, y3⟩ := y
  rw [Quad.mk.injEq]
  refine ⟨?_, ?_, ?_, ?_⟩
  all_goals
    refine BitVec.eq_of_getLsbD_eq fun j hj => ?_
    obtain ⟨h0, h1, h2, h3⟩ := hbits j hj
    assumption

/-- A slice applies its table to every column (R102). -/
theorem column_slice (T : Nibble → Nibble) (x : Quad) {j : Nat} (hj : j < 32) :
    column (slice T x) j = T (column x j) := by
  obtain ⟨h0, h1, h2, h3⟩ := getLsbD_column (slice T x) j
  simp only [slice, getLsbD_wordOfBits _ hj] at h0 h1 h2 h3
  refine BitVec.eq_of_getLsbD_eq fun k hk => ?_
  interval_cases k <;> assumption

/-- A table that undoes another undoes it on whole words. -/
theorem slice_slice_of_inverse {S T : Nibble → Nibble} (h : ∀ v, S (T v) = v) (x : Quad) : slice S (slice T x) = x :=
  quad_ext_column fun j hj => by rw [column_slice _ _ hj, column_slice _ _ hj, h]

theorem spInverses_spSboxes : ∀ n, n < 8 → ∀ v, nibbleAt spInverses n (nibbleAt spSboxes n v) = v := by decide

theorem spSboxes_spInverses : ∀ n, n < 8 → ∀ v, nibbleAt spSboxes n (nibbleAt spInverses n v) = v := by decide

theorem spSI_spS {n : Nat} (hn : n < 8) (x : Quad) : spSI n (spS n x) = x :=
  slice_slice_of_inverse (spInverses_spSboxes n hn) x

theorem spS_spSI {n : Nat} (hn : n < 8) (x : Quad) : spS n (spSI n x) = x :=
  slice_slice_of_inverse (spSboxes_spInverses n hn) x

theorem xor_two_cancel {n : Nat} (a b c : BitVec n) : a ^^^ b ^^^ c ^^^ b ^^^ c = a := by
  rw [BitVec.xor_assoc (a ^^^ b ^^^ c), BitVec.xor_assoc a, BitVec.xor_assoc, BitVec.xor_self, BitVec.xor_zero]

theorem spLTI_spLT (x : Quad) : spLTI (spLT x) = x := by
  simp (disch := decide) only [spLTI, spLT, ror32_rol32, xor_two_cancel]

theorem spLT_spLTI (x : Quad) : spLT (spLTI x) = x := by
  simp (disch := decide) only [spLTI, spLT, rol32_ror32, xor_two_cancel]

/-- Settles O41: the linear steps undo each other word by word, the boxes column by column. -/
theorem spStepsInvert : Obligations.SpStepsInvert := fun x =>
  ⟨spLTI_spLT x, spLT_spLTI x, fun _ hn => ⟨spSI_spS hn x, spS_spSI hn x⟩⟩

/-! ### The boolean equations (41_serpent R103) -/

/-- A product of words, in one column: the bits of the set are all set there. -/
def productBit (m v : Nibble) : Bool := m &&& v == m

/-- The XOR of the products of a list, in one column. -/
def sumBit (ms : List Nibble) (v : Nibble) : Bool := ms.foldr (fun m acc => productBit m v ^^ acc) false

theorem getLsbD_ite_allOnes (b : Bool) (w : Word) {j : Nat} (hj : j < 32) :
    (if b then w else 0xFFFFFFFF).getLsbD j = (!b || w.getLsbD j) := by
  cases b
  · exact BitVec.getLsbD_allOnes.trans (decide_eq_true hj)
  · rfl

theorem productBit_eq (m v : Nibble) :
    productBit m v = ((!m.getLsbD 0 || v.getLsbD 0) && (!m.getLsbD 1 || v.getLsbD 1) && (!m.getLsbD 2 || v.getLsbD 2) &&
      (!m.getLsbD 3 || v.getLsbD 3)) := by
  decide +revert

theorem getLsbD_spProduct (m : Nibble) (x : Quad) {j : Nat} (hj : j < 32) :
    (spProduct m x).getLsbD j = productBit m (column x j) := by
  obtain ⟨h0, h1, h2, h3⟩ := getLsbD_column x j
  simp only [spProduct, productBit_eq, BitVec.getLsbD_and, getLsbD_ite_allOnes _ _ hj, h0, h1, h2, h3]

theorem getLsbD_spSum (ms : List Nibble) (x : Quad) {j : Nat} (hj : j < 32) :
    (spSum ms x).getLsbD j = sumBit ms (column x j) := by
  induction ms with
  | nil => simp [spSum, sumBit]
  | cons m ms ih =>
    rw [spSum, List.foldr_cons, ← spSum, BitVec.getLsbD_xor, ih, getLsbD_spProduct m x hj]
    rfl

/-- The equations of a box give its table where they do so in one column, for each of its sixteen values. -/
theorem spBoolean_eq_slice {E : List (List (List Nibble))} {T : Nibble → Nibble} {n : Nat}
    (h : ∀ k, k < 4 → ∀ v, sumBit ((E.getD n []).getD k []) v = (T v).getLsbD k) (x : Quad) :
    spBoolean E n x = slice T x := by
  have hword (k : Nat) (hk : k < 4) :
      spSum ((E.getD n []).getD k []) x = wordOfBits (fun j => (T (column x j)).getLsbD k) 32 :=
    BitVec.eq_of_getLsbD_eq fun j hj => by rw [getLsbD_spSum _ _ hj, getLsbD_wordOfBits _ hj, h k hk]
  simp only [spBoolean, slice, hword 0 (by decide), hword 1 (by decide), hword 2 (by decide), hword 3 (by decide)]

theorem sumBit_spEquations : ∀ n, n < 8 → ∀ k, k < 4 → ∀ v,
    sumBit ((spEquations.getD n []).getD k []) v = (nibbleAt spSboxes n v).getLsbD k := by
  decide

theorem sumBit_spInverseEquations : ∀ n, n < 8 → ∀ k, k < 4 → ∀ v,
    sumBit ((spInverseEquations.getD n []).getD k []) v = (nibbleAt spInverses n v).getLsbD k := by
  decide

/-- Settles O42: each equation gives its bit of the table's entry in every column. -/
theorem spEquationsGiveBoxes : Obligations.SpEquationsGiveBoxes := fun n x hn =>
  ⟨spBoolean_eq_slice (sumBit_spEquations n hn) x, spBoolean_eq_slice (sumBit_spInverseEquations n hn) x⟩

/-! ## The Serpent key schedule (41_serpent R106 to R109) -/

/-- Settles O38: the three cases of the normalized key. -/
theorem spNormalizedKey : Obligations.SpNormalizedKey := by
  intro L w hL
  refine ⟨fun i hi => ?_, fun hlt => ?_, fun i hi hi32 => ?_⟩
  · rw [spNormalize, table_getD _ _ _ (by omega), if_pos hi]
  · rw [spNormalize, table_getD _ _ _ hlt, if_neg (by omega), if_pos rfl]
  · rw [spNormalize, table_getD _ _ _ hi32, if_neg (by omega), if_neg (by omega)]

theorem spWords_length (key : Vector Byte 32) (n : Nat) : (spWords key n).length = n + 8 := by
  induction n with
  | zero => rfl
  | succ n ih => rw [spWords, spExtend, List.length_cons, ih]

section
variable {key : Vector Byte 32} {w : Nat → Word}
  (hseed : ∀ i, i < 8 → w i = spSeedWord key i)
  (hnext : ∀ i, i < 132 →
    w (i + 8) = rol32 (w i ^^^ w (i + 3) ^^^ w (i + 5) ^^^ w (i + 7) ^^^ 0x9E3779B9 ^^^ BitVec.ofNat 32 i) 11)
include hseed hnext

/-- The list the schedule builds is the sequence of R107, latest first. -/
theorem spWords_getD_of_recurrence {n : Nat} (hn : n ≤ 132) :
    ∀ j, j < n + 8 → (spWords key n).getD j 0 = w (n + 7 - j) := by
  induction n with
  | zero =>
    intro j hj
    rw [hseed _ (by omega)]
    interval_cases j <;> rfl
  | succ n ih =>
    have ih := ih (by omega)
    intro j hj
    cases j with
    | zero =>
      have hword : (spWords key (n + 1)).getD 0 0 = spNextPrekey (spWords key n) n := rfl
      rw [hword, spNextPrekey, ih 7 (by omega), ih 4 (by omega), ih 2 (by omega), ih 0 (by omega)]
      exact (hnext n (by omega)).symm
    | succ j =>
      have hword : (spWords key (n + 1)).getD (j + 1) 0 = (spWords key n).getD j 0 := rfl
      rw [hword, ih j (by omega), show n + 1 + 7 - (j + 1) = n + 7 - j by omega]

theorem spPrekeys_getD {m : Nat} (hm : m < 132) : (spPrekeys key).getD m 0 = w (m + 8) := by
  have hlen := spWords_length key 132
  have hword := spWords_getD_of_recurrence hseed hnext (Nat.le_refl 132) (131 - m) (by omega)
  rw [show 132 + 7 - (131 - m) = m + 8 by omega, List.getD_eq_getElem _ _ (by omega)] at hword
  rw [← hword, spPrekeys, List.getD_eq_getElem _ _ (by simp [hlen]; omega), List.getElem_drop, List.getElem_reverse]
  congr 1
  omega

end

/-- Four words of SP_K are one round-key quadruple (R108). -/
theorem spKeyQuad_spSchedule (key : Vector Byte 32) {i : Nat} (hi : i < 33) :
    spKeyQuad (spSchedule key) i = spRoundKey (spPrekeys key) i := by
  have hword (j : Nat) (hj : j < 4) :
      (spSchedule key).getD (4 * i + j) 0 = quadWord (spRoundKey (spPrekeys key) i) j := by
    rw [spSchedule, table_getD _ _ _ (by omega), show (4 * i + j) / 4 = i by omega, show (4 * i + j) % 4 = j by omega]
  have hfirst : (spSchedule key).getD (4 * i) 0 = quadWord (spRoundKey (spPrekeys key) i) 0 := hword 0 (by decide)
  rw [spKeyQuad, hfirst, hword 1 (by decide), hword 2 (by decide), hword 3 (by decide)]
  rfl

/-- Settles O39: the prekeys are the sequence from its ninth entry on, and `35 - i` is `3 - i` modulo 8. -/
theorem spRoundKeySchedule : Obligations.SpRoundKeySchedule := by
  intro key w hseed hnext i hi
  have hprekey {m : Nat} (hm : m < 132) := spPrekeys_getD hseed hnext hm
  have hbox : (35 - i) % 8 = ((3 - (i : Int)) % 8).toNat := by omega
  refine (spKeyQuad_spSchedule key hi).trans ?_
  rw [spRoundKey, spPrekeyQuad, hprekey (by omega), hprekey (by omega), hprekey (by omega), hprekey (by omega), hbox]

/-- Settles O37: with no run open and a working key no check fails. -/
theorem spKeyxRule : Obligations.SpKeyxRule := by
  intro s he hidle hkey
  refine exec_done (i := .spKeyx 0) he (firstFailing_eq_none.2 ?_)
  simp [checksOf, checkIdle_of_not_runOpen hidle, checkWkey, hkey, checkZ, WellFormed.argZero]

/-! ## The Serpent rounds (41_serpent R110 to R113) -/

/-- Settles O44: by induction, the first `k` rounds lead to entry `k` of the sequence. -/
theorem spThirtyTwoRounds : Obligations.SpThirtyTwoRounds := by
  intro K x b hstart hround
  have hrounds (k : Nat) (hk : k ≤ 32) : (List.range k).foldl (fun y n => spRound K n y) (b 0) = b k := by
    induction k with
    | zero => rfl
    | succ k ih =>
      rw [List.range_succ, List.foldl_append, ih (by omega)]
      exact (hround k (by omega)).symm
  have hwhite : xorQuad x (spKeyQuad K 0) = b 0 := hstart.symm
  rw [spEncQuad, hwhite, hrounds 32 (Nat.le_refl 32)]

theorem spUnround_spRound (K : Vector Word 132) (n : Nat) (x : Quad) : spUnround K n (spRound K n x) = x := by
  have hn : n % 8 < 8 := Nat.mod_lt n (by decide)
  rw [spUnround, spRound, xorQuad_xorQuad_cancel]
  split
  · rw [spLTI_spLT, spSI_spS hn]
  · rw [spSI_spS hn]

theorem spRound_spUnround (K : Vector Word 132) (n : Nat) (x : Quad) : spRound K n (spUnround K n x) = x := by
  have hn : n % 8 < 8 := Nat.mod_lt n (by decide)
  rw [spUnround, spRound, spS_spSI hn]
  split
  · rw [spLT_spLTI, xorQuad_xorQuad_cancel]
  · rw [xorQuad_xorQuad_cancel]

theorem spDecQuad_spEncQuad (K : Vector Word 132) (x : Quad) : spDecQuad K (spEncQuad K x) = x := by
  rw [spDecQuad, spEncQuad, foldr_foldl_of_inverse (spUnround_spRound K), xorQuad_xorQuad_cancel]

theorem spEncQuad_spDecQuad (K : Vector Word 132) (x : Quad) : spEncQuad K (spDecQuad K x) = x := by
  rw [spDecQuad, spEncQuad, xorQuad_xorQuad_cancel, foldl_foldr_of_inverse (spRound_spUnround K)]

theorem reverseBlock_getD (b : Block) {i : Nat} (hi : i < 16) : (reverseBlock b).getD i 0 = b.getD (15 - i) 0 :=
  table_getD _ i 0 hi

theorem reverseBlock_reverseBlock (b : Block) : reverseBlock (reverseBlock b) = b := by
  refine vector_ext fun i hi => ?_
  rw [reverseBlock, table_getElem, reverseBlock_getD b (by omega), show 15 - (15 - i) = i by omega]
  simp [Vector.getD, hi]

theorem spLoad_spStore (q : Quad) : spLoad (spStore q) = q := by
  rw [spLoad, spStore, reverseBlock_reverseBlock, quadOfBlock_blockOfQuad]

theorem spStore_spLoad (b : Block) : spStore (spLoad b) = b := by
  rw [spLoad, spStore, blockOfQuad_quadOfBlock, reverseBlock_reverseBlock]

theorem spDecBlock_spEncBlock (K : Vector Word 132) (b : Block) : spDecBlock K (spEncBlock K b) = b := by
  rw [spDecBlock, spEncBlock, spLoad_spStore, spDecQuad_spEncQuad, spStore_spLoad]

theorem spEncBlock_spDecBlock (K : Vector Word 132) (b : Block) : spEncBlock K (spDecBlock K b) = b := by
  rw [spDecBlock, spEncBlock, spLoad_spStore, spEncQuad_spDecQuad, spStore_spLoad]

/-! ## The Serpent block commands (41_serpent R112, R113) -/

theorem firstFailing_spBlockChecks {s : State} {off : Nat} (hidle : ¬ s.runOpen) (hdata : s.dataValid = true)
    (hkey : s.spxValid = true) (hlen : off + 16 ≤ s.dlen.toNat) : firstFailing (spBlockChecks off s) = none := by
  simp [spBlockChecks, checkIdle_of_not_runOpen hidle, checkData, hdata, hkey, checkBlock, hlen]

theorem exec_spEncb {s : State} {off : BitVec 24} (he : s.err = false)
    (hchecks : firstFailing (spBlockChecks off.toNat s) = none) :
    exec (.spEncb off) s = .next (s.blockUpdate (spEncBlock s.spK) off.toNat) :=
  exec_done (i := .spEncb off) he hchecks

theorem exec_spDecb {s : State} {off : BitVec 24} (he : s.err = false)
    (hchecks : firstFailing (spBlockChecks off.toNat s) = none) :
    exec (.spDecb off) s = .next (s.blockUpdate (spDecBlock s.spK) off.toNat) :=
  exec_done (i := .spDecb off) he hchecks

/-- A block update whose result is stored through its reversed bytes (R111). -/
theorem blockUpdate_reverse_rule (f : Block → Block) (o : Nat) (s : State) :
    ∃ B m draws, s.reads o B ∧ s.blockUpdate (fun b => reverseBlock (f b)) o = { s with dbuf := m, draws := draws } ∧
      ∀ a, Memory.find? m a =
        if o ≤ a ∧ a < o + 16 then some ((f B).getD (15 - (a - o)) 0) else s.dbuf? a := by
  obtain ⟨B, m, d, hreads, heq, hbytes⟩ := blockUpdate_rule (fun b => reverseBlock (f b)) o s
  refine ⟨B, m, d, hreads, heq, fun a => (hbytes a).trans ?_⟩
  split
  · next h => rw [reverseBlock_getD _ (by omega)]
  · rfl

/-- Settles O43: each command is the block update with its transform, stored in reverse. -/
theorem spBlockRule : Obligations.SpBlockRule := by
  intro s off he hidle hdata hkey hlen
  have hchecks := firstFailing_spBlockChecks hidle hdata hkey hlen
  rw [exec_spEncb he hchecks, exec_spDecb he hchecks]
  obtain ⟨B, m, d, hreads, heq, hbytes⟩ :=
    blockUpdate_reverse_rule (fun b => blockOfQuad (spEncQuad s.spK (spLoad b))) off.toNat s
  obtain ⟨B', m', d', hreads', heq', hbytes'⟩ :=
    blockUpdate_reverse_rule (fun b => blockOfQuad (spDecQuad s.spK (spLoad b))) off.toNat s
  exact ⟨⟨B, m, d, hreads, congrArg _ heq, hbytes⟩, ⟨B', m', d', hreads', congrArg _ heq', hbytes'⟩⟩

/-- A block update leaves everything SP.ENCB and SP.DECB check and the expanded key, so either can follow it. -/
theorem exec_sp_after_blockUpdate {s : State} {off : BitVec 24} (he : s.err = false)
    (hchecks : firstFailing (spBlockChecks off.toNat s) = none) (f : Block → Block) (o : Nat) :
    exec (.spEncb off) (s.blockUpdate f o) = .next ((s.blockUpdate f o).blockUpdate (spEncBlock s.spK) off.toNat) ∧
      exec (.spDecb off) (s.blockUpdate f o) = .next ((s.blockUpdate f o).blockUpdate (spDecBlock s.spK) off.toNat) := by
  have hagain : firstFailing (spBlockChecks off.toNat (s.blockUpdate f o)) = none := hchecks
  have herr : (s.blockUpdate f o).err = false := he
  exact ⟨exec_spEncb herr hagain, exec_spDecb herr hagain⟩

/-- Settles O45: each command can follow the other, and its transform undoes the other's. -/
theorem spDecryptUndoesEncrypt : Obligations.SpDecryptUndoesEncrypt := by
  intro s off he hidle hdata hkey hlen hspec
  have hchecks := firstFailing_spBlockChecks hidle hdata hkey hlen
  have hafter (f : Block → Block) := exec_sp_after_blockUpdate he hchecks f off.toNat
  constructor
  · exact runCommands_inverse_blocks he (exec_spEncb he hchecks) (hafter _).2 (spDecBlock_spEncBlock s.spK) hspec
  · exact runCommands_inverse_blocks he (exec_spDecb he hchecks) (hafter _).1 (spEncBlock_spDecBlock s.spK) hspec

end Sys2Proof.Machine

/-! ## The padding commands (42_padding R130 to R134) -/

namespace Sys2Proof.Machine

/-! ### NP.APPEND and NP.REMOVE (R132, R133) -/

theorem checksOf_noPadding {i : BitVec 24 → Instr} (h : i = .npAppend ∨ i = .npRemove) (arg : BitVec 24) (s : State) :
    checksOf (i arg) s = [checkZ arg, checkIdle s, checkData s] := by
  rcases h with rfl | rfl <;> rfl

theorem actionOf_noPadding {i : BitVec 24 → Instr} (h : i = .npAppend ∨ i = .npRemove) (arg : BitVec 24) (s : State) :
    actionOf (i arg) s = s := by
  rcases h with rfl | rfl <;> rfl

@[simp] theorem checkZ_zero : checkZ 0#24 = (true, .operand) := rfl

theorem checkIdle_of_runOpen {s : State} (h : s.runOpen) : checkIdle s = (false, .phase) :=
  Prod.ext (Bool.eq_false_iff.2 fun hidle => not_runOpen_of_checkIdle hidle h) rfl

theorem firstFailing_paddingChecks {s : State} (hidle : ¬ s.runOpen) (hdata : s.dataValid = true) :
    firstFailing [checkZ 0, checkIdle s, checkData s] = none := by
  simp [checkIdle_of_not_runOpen hidle, checkData, hdata]

/-- Settles O50: in each of the first three clauses the checks before the failing one hold, and in the last one all do. -/
theorem noPaddingRules : Obligations.NoPaddingRules := by
  refine ⟨by decide, fun s i hi he => ⟨fun arg harg => ?_, fun hopen => ?_, fun hidle hdata => ?_, fun hidle hdata => ?_⟩⟩
  · refine exec_refused (c := .operand) he ?_
    simp [checksOf_noPadding hi, checkZ, WellFormed.argZero, harg]
  · refine exec_refused (c := .phase) he ?_
    simp [checksOf_noPadding hi, checkIdle_of_runOpen hopen]
  · refine exec_refused (c := .nullData) he ?_
    simp [checksOf_noPadding hi, checkIdle_of_not_runOpen hidle, checkData, hdata]
  · have hchecks : firstFailing (checksOf (i 0) s) = none :=
      checksOf_noPadding hi 0 s ▸ firstFailing_paddingChecks hidle hdata
    rw [exec_done he hchecks, actionOf_noPadding hi]

/-! ### P7.APPEND (R130) -/

theorem exec_p7Append {s : State} (he : s.err = false) (hidle : ¬ s.runOpen) (hdata : s.dataValid = true)
    (hfits : s.dlen.toNat + p7Count s.dlen.toNat ≤ Config.bufCap) : exec (.p7Append 0) s = .next (p7AppendAct s) := by
  refine exec_done (i := .p7Append 0) he ?_
  simp [checksOf, checkIdle_of_not_runOpen hidle, checkData, hdata, checkAppendFits, hfits]

theorem p7AppendAct_dlen_toNat {s : State} (hfits : s.dlen.toNat + p7Count s.dlen.toNat ≤ Config.bufCap) :
    (p7AppendAct s).dlen.toNat = s.dlen.toNat + p7Count s.dlen.toNat := by
  have hlt := bufCap_lt
  rw [p7AppendAct_dlen, BitVec.toNat_add, BitVec.toNat_ofNat]
  omega

/-- The data, then the padding, then nothing specified (R130, 10_state R19). -/
theorem dbuf?_p7AppendAct {s : State} (hfits : s.dlen.toNat + p7Count s.dlen.toNat ≤ Config.bufCap) (a : Nat) :
    (p7AppendAct s).dbuf? a =
      if a < s.dlen.toNat then s.dbuf? a
      else if a < s.dlen.toNat + p7Count s.dlen.toNat then some (BitVec.ofNat 8 (p7Count s.dlen.toNat)) else none := by
  rw [State.dbuf?, p7AppendAct_dbuf, ← p7AppendAct_dlen, p7AppendAct_dlen_toNat hfits, find?_forgetFrom, find?_writeList,
    List.length_replicate]
  by_cases hdata : a < s.dlen.toNat
  · rw [if_pos hdata, if_pos (by omega), if_neg (by omega)]; rfl
  · rw [if_neg hdata]
    by_cases hpad : a < s.dlen.toNat + p7Count s.dlen.toNat
    · rw [if_pos hpad, if_pos hpad, if_pos (by omega), List.getElem?_replicate, if_pos (by omega)]
    · rw [if_neg hpad, if_neg hpad]

/-- Settles O47: DLEN and DBUF are all that the action changes, and the new DLEN is the next multiple of 16. -/
theorem p7AppendRule : Obligations.P7AppendRule := by
  rintro s _ he hidle hdata rfl hfits
  have hdlen := p7AppendAct_dlen_toNat hfits
  refine ⟨_, _, exec_p7Append he hidle hdata hfits, hdlen, ?_, ?_, dbuf?_p7AppendAct hfits⟩
  all_goals
    refine hdlen ▸ ?_
    rw [p7Count]
    omega

/-! ### P7.REMOVE (R131) -/

theorem exec_p7Remove {s : State} (he : s.err = false) (hidle : ¬ s.runOpen) (hdata : s.dataValid = true) :
    exec (.p7Remove 0) s = .next (p7RemoveAct s) :=
  exec_done (i := .p7Remove 0) he (firstFailing_paddingChecks hidle hdata)

theorem p7RemoveAct_dlen_toNat (s : State) :
    (p7RemoveAct s).dlen.toNat = p7RemoveLen s.dlen.toNat (s.byteAt (s.dlen.toNat - 1)) := by
  rw [p7RemoveAct_dlen, BitVec.toNat_ofNat]
  exact Nat.mod_eq_of_lt ((p7RemoveLen_le _ _).trans_lt s.dlen.isLt)

theorem dbuf?_p7RemoveAct (s : State) (a : Nat) :
    (p7RemoveAct s).dbuf? a = if a < (p7RemoveAct s).dlen.toNat then s.dbuf? a else none :=
  dbuf?_forgetTail ..

/-- A last byte that PKCS7 does not write is removed alone (R131). -/
theorem p7RemoveLen_of_not_count {b : Byte} (hb : b = 0 ∨ 17 ≤ b.toNat) (dlen : Nat) : p7RemoveLen dlen b = dlen - 1 := by
  unfold p7RemoveLen
  rcases hb with rfl | hb
  · have hzero : (0 : Byte).toNat = 0 := rfl
    split_ifs <;> omega
  · split_ifs <;> omega

/-- A last byte from 1 to 16 counts the bytes removed, itself among them, as far as there are bytes (R131). -/
theorem p7RemoveLen_of_count {b : Byte} (hpos : 1 ≤ b.toNat) (hle : b.toNat ≤ 16) (dlen : Nat) :
    p7RemoveLen dlen b = dlen - min b.toNat dlen := by
  unfold p7RemoveLen
  split_ifs <;> omega

/-- Settles O48: the last byte as the command reads it decides the new length. -/
theorem p7RemoveRule : Obligations.P7RemoveRule := by
  intro s he hidle hdata
  have hdlen := p7RemoveAct_dlen_toNat s
  refine ⟨s.byteAt (s.dlen.toNat - 1), _, _, _, fun v _ hv => byteAt_of_some hv, exec_p7Remove he hidle hdata,
    fun hempty => ?_, fun _ hb => ?_, fun _ hpos hle => ?_, fun _ hb => ?_, dbuf?_p7RemoveAct s⟩
  · exact Nat.le_zero.1 (hdlen.trans_le (hempty ▸ p7RemoveLen_le ..))
  · exact hdlen.trans (p7RemoveLen_of_not_count (.inl hb) _)
  · exact hdlen.trans (p7RemoveLen_of_count hpos hle _)
  · exact hdlen.trans (p7RemoveLen_of_not_count (.inr hb) _)

/-! ### The round trip (R134) -/

/-- The last byte after P7.APPEND is the number of bytes it appended. -/
theorem byteAt_p7AppendAct_last {s : State} (hfits : s.dlen.toNat + p7Count s.dlen.toNat ≤ Config.bufCap) :
    (p7AppendAct s).byteAt ((p7AppendAct s).dlen.toNat - 1) = BitVec.ofNat 8 (p7Count s.dlen.toNat) := by
  have hpos : 1 ≤ p7Count s.dlen.toNat := by rw [p7Count]; omega
  refine byteAt_of_some ?_
  rw [p7AppendAct_dlen_toNat hfits, dbuf?_p7AppendAct hfits, if_neg (by omega), if_pos (by omega)]

theorem p7RemoveAct_p7AppendAct_dlen {s : State} (hfits : s.dlen.toNat + p7Count s.dlen.toNat ≤ Config.bufCap) :
    (p7RemoveAct (p7AppendAct s)).dlen = s.dlen := by
  have hcount : (BitVec.ofNat 8 (p7Count s.dlen.toNat)).toNat = p7Count s.dlen.toNat := by
    rw [BitVec.toNat_ofNat, p7Count]; omega
  have hrange : 1 ≤ p7Count s.dlen.toNat ∧ p7Count s.dlen.toNat ≤ 16 := by rw [p7Count]; omega
  refine BitVec.eq_of_toNat_eq ?_
  rw [p7RemoveAct_dlen_toNat, byteAt_p7AppendAct_last hfits, p7AppendAct_dlen_toNat hfits,
    p7RemoveLen_of_count (by omega) (by omega)]
  omega

/-- Settles O49: P7.REMOVE reads the count P7.APPEND wrote, and the data lies below the padding. -/
theorem p7RemoveUndoesAppend : Obligations.P7RemoveUndoesAppend := by
  intro s he hidle hdata hfits
  have hdlen := p7RemoveAct_p7AppendAct_dlen hfits
  refine ⟨p7RemoveAct (p7AppendAct s), ?_, he, hdlen, fun a ha => ?_⟩
  · rw [runCommands_cons (exec_p7Append he hidle hdata hfits),
      runCommands_cons (exec_p7Remove (s := p7AppendAct s) he hidle hdata)]
    rfl
  · rw [dbuf?_p7RemoveAct, hdlen, if_pos ha, dbuf?_p7AppendAct hfits, if_pos ha]

end Sys2Proof.Machine

/-! ## The CBC mode driver (43_cbc R140 to R150) -/

namespace Sys2Proof.Machine

/-! ### Direction and engine of the session -/

theorem isDecrypt_eq_true {s : State} (h : cfgDir s.cfg = 1#1) : s.isDecrypt = true := by
  simp [State.isDecrypt, h]

theorem isDecrypt_eq_false {s : State} (h : cfgDir s.cfg = 0#1) : s.isDecrypt = false := by
  simp [State.isDecrypt, h]

theorem cfgAlg_eq_zero_or_one (cfg : Word) : cfgAlg cfg = 0#1 ∨ cfgAlg cfg = 1#1 := by
  generalize cfgAlg cfg = alg
  decide +revert

theorem engineKeyx_eq (s : State) :
    engineKeyx s = if cfgAlg s.cfg = 1#1 then spKeyxAct s else tfKeyxAct s := by
  simp [engineKeyx, State.isSerpent]

theorem engineEnc_eq_blockUpdate (o : Nat) (s : State) : engineEnc o s = s.blockUpdate s.encryption o := by
  by_cases h : cfgAlg s.cfg = 1#1 <;> simp [engineEnc, State.isSerpent, State.encryption, h]

theorem engineDec_eq_blockUpdate (o : Nat) (s : State) : engineDec o s = s.blockUpdate s.decryption o := by
  by_cases h : cfgAlg s.cfg = 1#1 <;> simp [engineDec, State.isSerpent, State.decryption, h]

/-- A release leaves all but the engine's expanded key and its flag. -/
theorem engineClose_eq (s : State) :
    engineClose s =
      { s with
        tfK := (engineClose s).tfK, tfM := (engineClose s).tfM, spK := (engineClose s).spK, draws := s.draws + 1
        tfxValid := s.tfxValid && cfgAlg s.cfg == 1#1, spxValid := s.spxValid && cfgAlg s.cfg == 0#1 } := by
  rcases cfgAlg_eq_zero_or_one s.cfg with h | h <;> simp [engineClose, State.isSerpent, h, tfCloseAct, spCloseAct]

/-! ### CBC.OPEN (R140 to R142) -/

theorem exec_cbcOpen {s : State} (he : s.err = false) (hready : s.sessionReady) (hw : s.wkeyValid = true)
    (hopen : s.openable) : exec (.cbcOpen 0) s = .next (cbcOpenAct s) := by
  obtain ⟨hdata, hmod, hlen⟩ := hopen
  have hstart : (checkStartable s).1 = true := by simpa [checkStartable] using hready
  have hlegal : (checkOpenLength s).1 = true ∧ (checkOpenFits s).1 = true := by
    cases hd : s.isDecrypt <;> simp_all [checkOpenLength, checkOpenFits]
  refine exec_done (i := .cbcOpen 0) he (firstFailing_eq_none.2 ?_)
  simp [checksOf, hstart, hlegal, checkWkey, hw, checkData, hdata]

theorem cbcOpenAct_of_encrypt {s : State} (hdir : s.isDecrypt = false) :
    cbcOpenAct s = (openEncrypt (engineKeyx s)).forgetTail := by
  rw [cbcOpenAct, hdir]; rfl

theorem cbcOpenAct_of_decrypt {s : State} (hdir : s.isDecrypt = true) :
    cbcOpenAct s = (openDecrypt (engineKeyx s)).forgetTail := by
  rw [cbcOpenAct, hdir]; rfl

/-- An open is the key schedule and the registers of the run. -/
theorem cbcOpenAct_eq (s : State) :
    cbcOpenAct s =
      { engineKeyx s with
        ivreg := (cbcOpenAct s).ivreg, cur := 16, rem := (cbcOpenAct s).rem, dlen := (cbcOpenAct s).dlen, phase := .opened
        dbuf := (cbcOpenAct s).dbuf, draws := (cbcOpenAct s).draws } := by
  cases hd : s.isDecrypt with
  | true => simp only [cbcOpenAct_of_decrypt hd, openDecrypt, State.forgetTail]
  | false => simp only [cbcOpenAct_of_encrypt hd, openEncrypt, State.forgetTail]

theorem dbuf?_openEncrypt (s : State) (a : Nat) :
    (openEncrypt s).dbuf? a =
      if a < 16 then some ((rndBlock s).getD a 0) else if a < s.dlen.toNat + 16 then s.dbuf? (a - 16) else none := by
  rw [State.dbuf?, openEncrypt_dbuf, find?_writeList, find?_shiftUp, find?_forgetFrom, Vector.length_toList]
  by_cases hiv : a < 16
  · simp [hiv, Vector.getD]
  · rw [if_neg (by omega), if_neg hiv, if_pos (by omega)]
    exact if_congr (by omega) rfl rfl

/-- The free IV, then the data moved up by a block (R141). -/
theorem dbuf?_cbcOpenAct_encrypt {s : State} (hdir : s.isDecrypt = false) (hopen : s.openable) (a : Nat) :
    (cbcOpenAct s).dbuf? a =
      if a < 16 then some ((cbcOpenAct s).ivreg.getD a 0)
      else if a < s.dlen.toNat + 16 then s.dbuf? (a - 16) else none := by
  have hdlen : (cbcOpenAct s).dlen.toNat = s.dlen.toNat + 16 := by rw [cbcOpenAct_dlen_toNat hopen, hdir]; rfl
  rw [cbcOpenAct_of_encrypt hdir, forgetTail_dlen] at hdlen
  rw [cbcOpenAct_of_encrypt hdir, dbuf?_forgetTail, hdlen, dbuf?_openEncrypt, engineKeyx_dlen,
    dbuf?_of_dbuf_eq (engineKeyx_dbuf s), forgetTail_ivreg, openEncrypt_ivreg]
  by_cases hlow : a < s.dlen.toNat + 16
  · rw [if_pos hlow]
  · rw [if_neg hlow, if_neg (by omega), if_neg hlow]

theorem dbuf?_cbcOpenAct_decrypt {s : State} (hdir : s.isDecrypt = true) (a : Nat) :
    (cbcOpenAct s).dbuf? a = if a < s.dlen.toNat then s.dbuf? a else none := by
  rw [cbcOpenAct_of_decrypt hdir, dbuf?_forgetTail, openDecrypt_dlen, engineKeyx_dlen,
    dbuf?_of_dbuf_eq (s := s) (by simp)]

/-- The decrypting open takes the first block as the IV (R142). -/
theorem reads_cbcOpenAct_ivreg {s : State} (hdir : s.isDecrypt = true) : s.reads 0 (cbcOpenAct s).ivreg := by
  intro i v hi hv
  rw [← dbuf?_of_dbuf_eq (engineKeyx_dbuf s)] at hv
  rw [cbcOpenAct_of_decrypt hdir]
  exact reads_readBlock (engineKeyx s) 0 i v hi hv

/-- Settles O51: by `cbcOpenAct_eq` and the bytes of the encrypting open. -/
theorem cbcOpenEncrypt : Obligations.CbcOpenEncrypt := by
  intro s he hready hw hdata hdir hmod hlen hfits
  have hd := isDecrypt_eq_false hdir
  have hopen : s.openable := ⟨hdata, hmod, by simp [hd, hlen, hfits]⟩
  have hrem : (cbcOpenAct s).rem = s.dlen := by simp [hd]
  refine ⟨(cbcOpenAct s).ivreg, (cbcOpenAct s).dbuf, (cbcOpenAct s).dlen, (cbcOpenAct s).draws, ?_, ?_,
    dbuf?_cbcOpenAct_encrypt hd hopen⟩
  · rw [exec_cbcOpen he hready hw hopen]
    exact congrArg _ ((cbcOpenAct_eq s).trans (by rw [hrem, engineKeyx_eq]; rfl))
  · rw [cbcOpenAct_dlen_toNat hopen, hd]; rfl

/-- Settles O52: by `cbcOpenAct_eq`; the IV is the first block as the open reads it. -/
theorem cbcOpenDecrypt : Obligations.CbcOpenDecrypt := by
  intro s he hready hw hdata hdir hmod hlen
  have hd := isDecrypt_eq_true hdir
  have hopen : s.openable := ⟨hdata, hmod, by simp [hd, hlen]⟩
  have hdlen : (cbcOpenAct s).dlen = (engineKeyx s).dlen := by simp [hd]
  refine ⟨(cbcOpenAct s).ivreg, (cbcOpenAct s).dbuf, (cbcOpenAct s).rem, (cbcOpenAct s).draws,
    reads_cbcOpenAct_ivreg hd, ?_, ?_, dbuf?_cbcOpenAct_decrypt hd⟩
  · rw [exec_cbcOpen he hready hw hopen]
    exact congrArg _ ((cbcOpenAct_eq s).trans (by rw [hdlen, engineKeyx_eq]; rfl))
  · rw [cbcOpenAct_rem_toNat hopen, hdlen, engineKeyx_dlen]

/-! ### CBC.STEP (R143 to R145) -/

theorem exec_cbcStep {s : State} (he : s.err = false) (hrun : s.runOpen) (hleft : s.cur.toNat + 16 ≤ s.dlen.toNat) :
    exec (.cbcStep 0) s = .next (cbcStepAct s) := by
  refine exec_done (i := .cbcStep 0) he (firstFailing_eq_none.2 ?_)
  simpa [checksOf, checkRunning, checkBlockLeft, hleft] using hrun

theorem cbcStepAct_of_encrypt {s : State} (hdir : s.isDecrypt = false) : cbcStepAct s = (stepEncrypt s).forgetTail := by
  rw [cbcStepAct, hdir]; rfl

theorem cbcStepAct_of_decrypt {s : State} (hdir : s.isDecrypt = true) : cbcStepAct s = (stepDecrypt s).forgetTail := by
  rw [cbcStepAct, hdir]; rfl

/-- A step leaves all but DBUF and the registers of the run. -/
theorem cbcStepAct_eq (s : State) :
    cbcStepAct s =
      { s with
        dbuf := (cbcStepAct s).dbuf, ivreg := if s.isDecrypt then s.readBlock s.cur.toNat else s.ivreg
        cur := (cbcStepAct s).cur, rem := (cbcStepAct s).rem, phase := .stepping, draws := (cbcStepAct s).draws } := by
  cases hd : s.isDecrypt with
  | true =>
    simp only [cbcStepAct_of_decrypt hd, stepDecrypt, engineDec_eq_blockUpdate, advance, State.blockUpdate, State.forgetTail,
      if_true]
  | false =>
    simp only [cbcStepAct_of_encrypt hd, stepEncrypt, engineEnc_eq_blockUpdate, advance, State.blockUpdate,
      State.forgetTail, Bool.false_eq_true, if_false]

theorem encryption_blockUpdate (f : Block → Block) (o : Nat) (s : State) :
    (s.blockUpdate f o).encryption = s.encryption := rfl

theorem dbuf?_stepEncrypt (s : State) (a : Nat) :
    (stepEncrypt s).dbuf? a =
      if s.cur.toNat ≤ a ∧ a < s.cur.toNat + 16 then
        some ((s.encryption (xorBlock (s.readBlock s.cur.toNat) (s.readBlock (s.cur.toNat - 16)))).getD (a - s.cur.toNat) 0)
      else s.dbuf? a := by
  rw [dbuf?_of_dbuf_eq (stepEncrypt_dbuf s), engineEnc_eq_blockUpdate, dbuf?_blockUpdate, readBlock_blockUpdate,
    dbuf?_blockUpdate, encryption_blockUpdate]
  exact ite_congr rfl (fun _ => rfl) fun hout => if_neg hout

theorem dbuf?_stepDecrypt (s : State) (a : Nat) :
    (stepDecrypt s).dbuf? a =
      if s.cur.toNat ≤ a ∧ a < s.cur.toNat + 16 then
        some ((xorBlock (s.decryption (s.readBlock s.cur.toNat)) s.ivreg).getD (a - s.cur.toNat) 0)
      else s.dbuf? a := by
  rw [dbuf?_of_dbuf_eq (stepDecrypt_dbuf s), engineDec_eq_blockUpdate, dbuf?_blockUpdate, readBlock_blockUpdate,
    dbuf?_blockUpdate]
  exact ite_congr rfl (fun _ => rfl) fun hout => if_neg hout

/-- DBUF after a step: the block at CUR is replaced, every other byte below DLEN is as before, and none above is specified. -/
def State.stepsTo (s t : State) (B : Block) : Prop :=
  ∀ a, t.dbuf? a =
    if s.cur.toNat ≤ a ∧ a < s.cur.toNat + 16 then some (B.getD (a - s.cur.toNat) 0)
    else if a < s.dlen.toNat then s.dbuf? a else none

/-- A step whose result replaces the block at CUR forgets only what lies above DLEN. -/
theorem stepsTo_forgetTail {s t : State} {B : Block} (hleft : s.cur.toNat + 16 ≤ s.dlen.toNat) (hdlen : t.dlen = s.dlen)
    (hbytes : ∀ a, t.dbuf? a =
      if s.cur.toNat ≤ a ∧ a < s.cur.toNat + 16 then some (B.getD (a - s.cur.toNat) 0) else s.dbuf? a) :
    s.stepsTo t.forgetTail B := by
  intro a
  rw [dbuf?_forgetTail, hbytes, hdlen]
  by_cases hin : s.cur.toNat ≤ a ∧ a < s.cur.toNat + 16
  · rw [if_pos (by omega)]
    simp only [hin, and_self, if_true]
  · simp only [hin, if_false]

theorem cbcStepAct_encrypts {s : State} (hdir : s.isDecrypt = false) (hleft : s.cur.toNat + 16 ≤ s.dlen.toNat) :
    s.stepsTo (cbcStepAct s)
      (s.encryption (xorBlock (s.readBlock s.cur.toNat) (s.readBlock (s.cur.toNat - 16)))) :=
  cbcStepAct_of_encrypt hdir ▸ stepsTo_forgetTail hleft (stepEncrypt_dlen s) (dbuf?_stepEncrypt s)

theorem cbcStepAct_decrypts {s : State} (hdir : s.isDecrypt = true) (hleft : s.cur.toNat + 16 ≤ s.dlen.toNat) :
    s.stepsTo (cbcStepAct s) (xorBlock (s.decryption (s.readBlock s.cur.toNat)) s.ivreg) :=
  cbcStepAct_of_decrypt hdir ▸ stepsTo_forgetTail hleft (stepDecrypt_dlen s) (dbuf?_stepDecrypt s)

theorem cbcStepAct_rem_toNat_cur {s : State} (hleft : s.cur.toNat + 16 ≤ s.dlen.toNat) :
    (cbcStepAct s).rem.toNat = s.dlen.toNat - (cbcStepAct s).cur.toNat := by
  rw [cbcStepAct_rem_toNat hleft, cbcStepAct_cur_toNat hleft]

/-- Settles O53: the frame is `cbcStepAct_eq`, the bytes are `cbcStepAct_encrypts`. -/
theorem cbcStepEncrypt : Obligations.CbcStepEncrypt := by
  intro s he hrun _ hleft hdir
  have hd := isDecrypt_eq_false hdir
  refine ⟨_, _, (cbcStepAct s).dbuf, (cbcStepAct s).cur, (cbcStepAct s).rem, (cbcStepAct s).draws, reads_readBlock s _,
    reads_readBlock s _, ?_, cbcStepAct_cur_toNat hleft, cbcStepAct_rem_toNat_cur hleft, cbcStepAct_encrypts hd hleft⟩
  rw [exec_cbcStep he hrun hleft]
  exact congrArg _ ((cbcStepAct_eq s).trans (by rw [hd]; rfl))

/-- Settles O54: the frame is `cbcStepAct_eq`, the bytes are `cbcStepAct_decrypts`. -/
theorem cbcStepDecrypt : Obligations.CbcStepDecrypt := by
  intro s he hrun hleft hdir
  have hd := isDecrypt_eq_true hdir
  refine ⟨_, (cbcStepAct s).dbuf, (cbcStepAct s).cur, (cbcStepAct s).rem, (cbcStepAct s).draws, reads_readBlock s _, ?_,
    cbcStepAct_cur_toNat hleft, cbcStepAct_rem_toNat_cur hleft, cbcStepAct_decrypts hd hleft⟩
  rw [exec_cbcStep he hrun hleft]
  exact congrArg _ ((cbcStepAct_eq s).trans (by rw [hd]; rfl))

/-! ### CBC.CLOSE (R146 to R149) -/

theorem exec_cbcClose {s : State} (he : s.err = false) (hp : s.phase = .stepping) (hcur : s.cur = s.dlen) :
    exec (.cbcClose 0) s = .next (cbcCloseAct s) := by
  refine exec_done (i := .cbcClose 0) he (firstFailing_eq_none.2 ?_)
  simp [checksOf, checkStepping, hp, checkAllDone, hcur]

theorem cbcCloseAct_of_encrypt {s : State} (hdir : s.isDecrypt = false) :
    cbcCloseAct s = (endRun (engineClose s)).forgetTail := by
  rw [cbcCloseAct, hdir]; rfl

/-- A decrypting close after its strip and its trim, where the padding still stands (R147, R148). -/
def State.trimmed (s : State) : State := trimZeros (stripIv (engineClose s))

theorem cbcCloseAct_of_decrypt {s : State} (hdir : s.isDecrypt = true) :
    cbcCloseAct s = (endRun (removePadding s.trimmed)).forgetTail := by
  rw [cbcCloseAct, hdir]; rfl

theorem removePadding_eq (s : State) :
    removePadding s =
      { s with
        dlen := (removePadding s).dlen, dbuf := (removePadding s).dbuf, draws := (removePadding s).draws } := by
  unfold removePadding
  split <;> rfl

/-- What the decrypting close does to the data leaves all but DLEN, DBUF and the draws. -/
theorem removePadding_trimmed_eq (s : State) :
    removePadding s.trimmed =
      { engineClose s with
        dlen := (removePadding s.trimmed).dlen, dbuf := (removePadding s.trimmed).dbuf
        draws := (removePadding s.trimmed).draws } :=
  (removePadding_eq s.trimmed).trans (by simp only [State.trimmed, trimZeros, stripIv, State.forgetTail])

/-- A close leaves all but the data, the registers of the run and the engine's expanded key. -/
theorem cbcCloseAct_eq (s : State) :
    cbcCloseAct s =
      { s with
        phase := .closed, cur := 0, rem := 0, ivreg := (cbcCloseAct s).ivreg, dlen := (cbcCloseAct s).dlen
        dbuf := (cbcCloseAct s).dbuf, tfK := (cbcCloseAct s).tfK, tfM := (cbcCloseAct s).tfM, spK := (cbcCloseAct s).spK
        draws := (cbcCloseAct s).draws
        tfxValid := s.tfxValid && cfgAlg s.cfg == 1#1, spxValid := s.spxValid && cfgAlg s.cfg == 0#1 } := by
  cases hd : s.isDecrypt with
  | true =>
    simp only [cbcCloseAct_of_decrypt hd]
    rw [removePadding_trimmed_eq, engineClose_eq]
    simp only [endRun, State.forgetTail]
  | false =>
    simp only [cbcCloseAct_of_encrypt hd]
    rw [engineClose_eq]
    simp only [endRun, State.forgetTail]

theorem cbcCloseAct_otherEngine (s : State) :
    (cfgAlg s.cfg = 1#1 → (cbcCloseAct s).tfK = s.tfK ∧ (cbcCloseAct s).tfM = s.tfM) ∧
      (cfgAlg s.cfg = 0#1 → (cbcCloseAct s).spK = s.spK) :=
  ⟨fun h => cbcCloseAct_serpent (isSerpent_eq_true h), fun h => cbcCloseAct_twofish (isSerpent_eq_false h)⟩

theorem dbuf?_cbcCloseAct_encrypt {s : State} (hdir : s.isDecrypt = false) (a : Nat) :
    (cbcCloseAct s).dbuf? a = if a < s.dlen.toNat then s.dbuf? a else none := by
  rw [cbcCloseAct_of_encrypt hdir, dbuf?_forgetTail, endRun_dlen, engineClose_dlen, dbuf?_of_dbuf_eq (s := s) (by simp)]

/-- Settles O55: the frame is `cbcCloseAct_eq`; nothing but the tail of DBUF is forgotten. -/
theorem cbcCloseEncrypt : Obligations.CbcCloseEncrypt := by
  intro s he hp hcur hdir
  have hd := isDecrypt_eq_false hdir
  have hdlen : (cbcCloseAct s).dlen = s.dlen := by simp [cbcCloseAct_of_encrypt hd]
  obtain ⟨hserpent, htwofish⟩ := cbcCloseAct_otherEngine s
  refine ⟨(cbcCloseAct s).dbuf, (cbcCloseAct s).ivreg, (cbcCloseAct s).tfK, (cbcCloseAct s).tfM, (cbcCloseAct s).spK,
    (cbcCloseAct s).draws, ?_, hserpent, htwofish, dbuf?_cbcCloseAct_encrypt hd⟩
  rw [exec_cbcClose he hp hcur]
  exact congrArg _ ((cbcCloseAct_eq s).trans (by rw [hdlen]))

/-! The decrypting close: the IV goes (R147), then the zero bytes at the end (R148), then the padding (R149). -/

theorem trimLen_congr {f g : Nat → Byte} {n : Nat} (h : ∀ a, a < n → f a = g a) : trimLen f n = trimLen g n := by
  induction n with
  | zero => rfl
  | succ n ih => rw [trimLen, trimLen, h n (by omega), ih fun a ha => h a (by omega)]

theorem byte_eq_zero_of_trimLen_le {f : Nat → Byte} {n a : Nat} (ha : trimLen f n ≤ a) (han : a < n) : f a = 0 := by
  induction n with
  | zero => omega
  | succ n ih =>
    unfold trimLen at ha
    split at ha
    · next hzero =>
      rcases Nat.lt_succ_iff_lt_or_eq.1 han with hlt | rfl
      · exact ih ha hlt
      · exact hzero
    · omega

theorem byte_before_trimLen_ne_zero {f : Nat → Byte} {n : Nat} (h : 0 < trimLen f n) : f (trimLen f n - 1) ≠ 0 := by
  induction n with
  | zero => exact absurd h (Nat.lt_irrefl 0)
  | succ n ih =>
    unfold trimLen at h ⊢
    split
    · next hzero => exact ih (by simpa [hzero] using h)
    · next hne => exact hne

/-- Byte `a` of the data behind the IV, as the trim of a decrypting close reads it: a free value where it is unspecified. -/
def State.decryptedByte (s : State) (a : Nat) : Byte :=
  (s.dbuf? (a + 16)).getD (Config.freeByte .dbuf (engineClose s).draws a)

theorem dbuf?_stripIv_engineClose (s : State) (a : Nat) :
    (stripIv (engineClose s)).dbuf? a = if a + 16 < s.dlen.toNat then s.dbuf? (a + 16) else none := by
  rw [State.dbuf?, stripIv_dbuf, find?_shiftDown, find?_forgetFrom, engineClose_dlen, engineClose_dbuf]; rfl

theorem byteAt_stripIv_engineClose {s : State} {a : Nat} (ha : a + 16 < s.dlen.toNat) :
    (stripIv (engineClose s)).byteAt a = s.decryptedByte a := by
  rw [State.byteAt, dbuf?_stripIv_engineClose, if_pos ha]; rfl

theorem trimZeros_dlen_toNat (s : State) : (trimZeros s).dlen.toNat = trimLen s.byteAt s.dlen.toNat := by
  rw [trimZeros_dlen, BitVec.toNat_ofNat]
  exact Nat.mod_eq_of_lt ((trimLen_le _ _).trans_lt s.dlen.isLt)

theorem trimmed_dlen_toNat {s : State} (hiv : 16 ≤ s.dlen.toNat) :
    s.trimmed.dlen.toNat = trimLen s.decryptedByte (s.dlen.toNat - 16) := by
  have hdlen : (stripIv (engineClose s)).dlen.toNat = s.dlen.toNat - 16 := by
    rw [stripIv_dlen, engineClose_dlen]; bv_omega
  rw [State.trimmed, trimZeros_dlen_toNat, hdlen]
  exact trimLen_congr fun a ha => byteAt_stripIv_engineClose (by omega)

theorem trimmed_dlen_le {s : State} (hiv : 16 ≤ s.dlen.toNat) : s.trimmed.dlen.toNat + 16 ≤ s.dlen.toNat := by
  have hle := trimLen_le s.decryptedByte (s.dlen.toNat - 16)
  rw [trimmed_dlen_toNat hiv]
  omega

/-- The bytes the trim leaves are the ones behind the IV. -/
theorem dbuf?_trimmed {s : State} (hiv : 16 ≤ s.dlen.toNat) {a : Nat} (ha : a < s.trimmed.dlen.toNat) :
    s.trimmed.dbuf? a = s.dbuf? (a + 16) := by
  have hle := trimmed_dlen_le hiv
  calc s.trimmed.dbuf? a
      = (stripIv (engineClose s)).dbuf? a := (dbuf?_forgetTail _ a).trans (if_pos ha)
    _ = s.dbuf? (a + 16) := (dbuf?_stripIv_engineClose s a).trans (if_pos (by omega))

/-- The length P7.REMOVE leaves, by the value of the last byte (42_padding R131). -/
theorem p7RemoveLen_eq (n : Nat) (b : Byte) :
    p7RemoveLen n b = if n = 0 then 0 else if b = 0 ∨ 16 < b.toNat then n - 1 else n - min b.toNat n := by
  by_cases hcount : b = 0 ∨ 16 < b.toNat
  · rw [p7RemoveLen_of_not_count hcount, if_pos hcount]
    split <;> omega
  · obtain ⟨hne, hle⟩ := not_or.1 hcount
    have hpos : 1 ≤ b.toNat := Nat.one_le_iff_ne_zero.2 fun hz => hne (BitVec.eq_of_toNat_eq hz)
    rw [p7RemoveLen_of_count hpos (Nat.not_lt.1 hle), if_neg hcount]
    split <;> omega

theorem removePadding_dlen_toNat (s : State) :
    (removePadding s).dlen.toNat =
      if cfgPad s.cfg = 0#2 then p7RemoveLen s.dlen.toNat (s.byteAt (s.dlen.toNat - 1)) else s.dlen.toNat := by
  by_cases hp : cfgPad s.cfg = 0#2
  · rw [if_pos hp, ← p7RemoveAct_dlen_toNat, removePadding, if_pos (by simp [State.isPkcs7, hp])]
  · rw [if_neg hp, removePadding, if_neg (by simp [State.isPkcs7, hp])]; rfl

theorem removePadding_dlen_le (s : State) : (removePadding s).dlen.toNat ≤ s.dlen.toNat := by
  rw [removePadding_dlen_toNat]
  split
  · exact p7RemoveLen_le _ _
  · exact Nat.le_refl _

theorem dbuf?_removePadding {s : State} {a : Nat} (ha : a < (removePadding s).dlen.toNat) :
    (removePadding s).dbuf? a = s.dbuf? a := by
  unfold removePadding at ha ⊢
  split
  · next hp => rw [if_pos hp] at ha; rw [dbuf?_p7RemoveAct, if_pos ha]
  · rfl

theorem cbcCloseAct_decrypt_dlen {s : State} (hdir : s.isDecrypt = true) :
    (cbcCloseAct s).dlen = (removePadding s.trimmed).dlen := by
  rw [cbcCloseAct_of_decrypt hdir]; rfl

/-- The decrypted bytes, moved down by a block (R147). -/
theorem dbuf?_cbcCloseAct_decrypt {s : State} (hdir : s.isDecrypt = true) (hiv : 16 ≤ s.dlen.toNat) (a : Nat) :
    (cbcCloseAct s).dbuf? a = if a < (cbcCloseAct s).dlen.toNat then s.dbuf? (a + 16) else none := by
  rw [cbcCloseAct_decrypt_dlen hdir, cbcCloseAct_of_decrypt hdir, dbuf?_forgetTail, endRun_dlen]
  refine ite_congr rfl (fun ha => ?_) fun _ => rfl
  calc (endRun (removePadding s.trimmed)).dbuf? a
      = (removePadding s.trimmed).dbuf? a := rfl
    _ = s.trimmed.dbuf? a := dbuf?_removePadding ha
    _ = s.dbuf? (a + 16) := dbuf?_trimmed hiv (ha.trans_le (removePadding_dlen_le _))

/-- The byte that decides the padding is the last one the trim leaves. -/
theorem byteAt_trimmed_last {s : State} (hiv : 16 ≤ s.dlen.toNat) {v : Byte} (hpos : 0 < s.trimmed.dlen.toNat)
    (hv : s.dbuf? (s.trimmed.dlen.toNat + 15) = some v) : s.trimmed.byteAt (s.trimmed.dlen.toNat - 1) = v := by
  refine byteAt_of_some ?_
  rw [dbuf?_trimmed hiv (by omega), ← hv, show s.trimmed.dlen.toNat - 1 + 16 = s.trimmed.dlen.toNat + 15 by omega]

/-- Settles O56: `T` is the length after the trim and `b` the byte P7.REMOVE reads there. -/
theorem cbcCloseDecrypt : Obligations.CbcCloseDecrypt := by
  intro s he hp hcur hdir hiv
  have hd := isDecrypt_eq_true hdir
  have htrim := trimmed_dlen_toNat hiv
  have hcfg : s.trimmed.cfg = s.cfg := engineClose_cfg s
  obtain ⟨hserpent, htwofish⟩ := cbcCloseAct_otherEngine s
  refine ⟨s.decryptedByte, s.trimmed.byteAt (s.trimmed.dlen.toNat - 1), s.trimmed.dlen.toNat, (cbcCloseAct s).dlen,
    (cbcCloseAct s).dbuf, (cbcCloseAct s).ivreg, (cbcCloseAct s).tfK, (cbcCloseAct s).tfM, (cbcCloseAct s).spK,
    (cbcCloseAct s).draws, fun a v hv => ?_, trimmed_dlen_le hiv, fun a hT ha => ?_, fun hpos => ?_,
    fun v hpos hv => byteAt_trimmed_last hiv hpos hv, ?_, ?_, hserpent, htwofish, dbuf?_cbcCloseAct_decrypt hd hiv⟩
  · rw [State.decryptedByte, hv]; rfl
  · exact byte_eq_zero_of_trimLen_le (htrim ▸ hT) (by omega)
  · rw [htrim] at hpos ⊢
    exact byte_before_trimLen_ne_zero hpos
  · rw [cbcCloseAct_decrypt_dlen hd, removePadding_dlen_toNat, hcfg, p7RemoveLen_eq]
  · rw [exec_cbcClose he hp hcur]
    exact congrArg _ (cbcCloseAct_eq s)

/-! ### A run, block by block (R150) -/

theorem getD_append_cons_self {α : Type} (xs : List α) (y : α) (ys : List α) (d : α) :
    (xs ++ y :: ys).getD xs.length d = y := by
  simp

theorem getD_append_cons_of_ne {α : Type} (xs : List α) (y z : α) (ys : List α) (d : α) {i : Nat} (h : i ≠ xs.length) :
    (xs ++ y :: ys).getD i d = (xs ++ z :: ys).getD i d := by
  rcases Nat.lt_or_gt_of_ne h with hbefore | hafter
  · rw [List.getD_append _ _ _ _ hbefore, List.getD_append _ _ _ _ hbefore]
  · obtain ⟨k, rfl⟩ := Nat.exists_eq_add_of_lt hafter
    rw [List.getD_append_right _ _ _ _ hafter.le, List.getD_append_right _ _ _ _ hafter.le,
      show xs.length + k + 1 - xs.length = k + 1 by omega, List.getD_cons_succ, List.getD_cons_succ]

/-- The block at its own place is what a reader of it gets. -/
theorem readBlock_of_holdsBlocks {s : State} {xs ys : List Block} {b : Block} (h : s.holdsBlocks (xs ++ b :: ys)) :
    s.readBlock (16 * xs.length) = b := by
  obtain ⟨-, hbytes⟩ := h
  refine vector_ext fun i hi => ?_
  have hbyte := hbytes (16 * xs.length + i) (by rw [List.length_append, List.length_cons]; omega)
  rw [show (16 * xs.length + i) / 16 = xs.length by omega, show (16 * xs.length + i) % 16 = i by omega,
    getD_append_cons_self] at hbyte
  rw [readBlock_getElem _ _ _ hi, byteAt_of_some hbyte]
  simp [Vector.getD, hi]

/-- A step replaces the block at CUR in the list that DBUF holds. -/
theorem holdsBlocks_of_stepsTo {s t : State} {xs ys : List Block} {b B : Block} (h : s.holdsBlocks (xs ++ b :: ys))
    (hcur : s.cur.toNat = 16 * xs.length) (hdlen : t.dlen = s.dlen) (hstep : s.stepsTo t B) :
    t.holdsBlocks (xs ++ B :: ys) := by
  obtain ⟨hlen, hbytes⟩ := h
  have hsame : (xs ++ B :: ys).length = (xs ++ b :: ys).length := by simp
  refine ⟨by rw [hdlen, hlen, hsame], fun a ha => ?_⟩
  rw [hsame] at ha
  rw [hstep a]
  by_cases hin : s.cur.toNat ≤ a ∧ a < s.cur.toNat + 16
  · rw [if_pos hin, show a / 16 = xs.length by omega, getD_append_cons_self, show a % 16 = a - s.cur.toNat by omega]
  · rw [if_neg hin, if_pos (by omega), hbytes a ha, getD_append_cons_of_ne xs b B ys _ (by omega)]

/-- A run stands between the blocks `done` and the blocks `left` that DBUF holds (10_state R13, R16). -/
structure State.runAt (s : State) (done left : List Block) : Prop where
  err : s.err = false
  runOpen : s.runOpen
  blocks : s.holdsBlocks (done ++ left)
  cur : s.cur.toNat = 16 * done.length
  rem : s.rem.toNat = 16 * left.length

theorem runAt_blockLeft {s : State} {xs ys : List Block} {b : Block} (h : s.runAt xs (b :: ys)) :
    s.cur.toNat + 16 ≤ s.dlen.toNat := by
  obtain ⟨hlen, -⟩ := h.blocks
  have hcur := h.cur
  rw [List.length_append, List.length_cons] at hlen
  omega

/-- One CBC.STEP of a run, whatever the direction: the next block becomes `B` and the run stands behind it. -/
theorem cbcStepAct_runAt {s : State} {xs ys : List Block} {b B : Block} (h : s.runAt xs (b :: ys))
    (hstep : s.stepsTo (cbcStepAct s) B) : (cbcStepAct s).runAt (xs ++ [B]) ys := by
  have hleft := runAt_blockLeft h
  have hcur := cbcStepAct_cur_toNat hleft
  have hrem := cbcStepAct_rem_toNat hleft
  obtain ⟨herr, -, hblocks, hcur0, -⟩ := h
  obtain ⟨hlen, -⟩ := id hblocks
  rw [List.length_append, List.length_cons] at hlen
  refine ⟨by simpa using herr, .inr (cbcStepAct_phase s), ?_, ?_, by omega⟩
  · simpa using holdsBlocks_of_stepsTo hblocks hcur0 (cbcStepAct_dlen s) hstep
  · rw [hcur, hcur0, List.length_append, List.length_singleton]; omega

theorem encryption_cbcStepAct (s : State) : (cbcStepAct s).encryption = s.encryption := by
  simp only [State.encryption, cbcStepAct_cfg, cbcStepAct_spK, cbcStepAct_tfK, cbcStepAct_tfM]

theorem decryption_cbcStepAct (s : State) : (cbcStepAct s).decryption = s.decryption := by
  simp only [State.decryption, cbcStepAct_cfg, cbcStepAct_spK, cbcStepAct_tfK, cbcStepAct_tfM]

/-- The steps of an encryption: each block is chained to the one before it. -/
theorem runCommands_steps_encrypt {s : State} {xs ps : List Block} {c : Block} (hdir : s.isDecrypt = false)
    (h : s.runAt (xs ++ [c]) ps) :
    ∃ t, runCommands (List.replicate ps.length (.cbcStep 0)) s = .next t ∧ t.encryption = s.encryption ∧
      t.runAt (xs ++ c :: cbcChain s.encryption c ps) [] := by
  induction ps generalizing s xs c with
  | nil => exact ⟨s, rfl, rfl, h⟩
  | cons p ps ih =>
    have hleft := runAt_blockLeft h
    have hcur : s.cur.toNat = 16 * (xs ++ [c]).length := h.cur
    have hprev : s.cur.toNat - 16 = 16 * xs.length := by
      rw [hcur, List.length_append, List.length_singleton]; omega
    have hblocks : s.holdsBlocks (xs ++ c :: p :: ps) := by simpa using h.blocks
    have hstep := cbcStepAct_encrypts hdir hleft
    rw [hprev, readBlock_of_holdsBlocks hblocks, hcur, readBlock_of_holdsBlocks h.blocks] at hstep
    obtain ⟨t, ht, henc, hrun⟩ := ih (by rw [isDecrypt_of_cfg (cbcStepAct_cfg s), hdir]) (cbcStepAct_runAt h hstep)
    rw [encryption_cbcStepAct] at henc hrun
    refine ⟨t, ?_, henc, by simpa [cbcChain] using hrun⟩
    rw [List.length_cons, List.replicate_succ, runCommands_cons (exec_cbcStep h.err h.runOpen hleft), ht]

/-- The steps of a decryption: IVREG holds the cipher block before the next one. -/
theorem runCommands_steps_decrypt {s : State} {xs cs : List Block} (hdir : s.isDecrypt = true) (h : s.runAt xs cs) :
    ∃ t, runCommands (List.replicate cs.length (.cbcStep 0)) s = .next t ∧ t.decryption = s.decryption ∧
      t.runAt (xs ++ cbcUnchain s.decryption s.ivreg cs) [] := by
  induction cs generalizing s xs with
  | nil => exact ⟨s, rfl, rfl, by simpa [cbcUnchain] using h⟩
  | cons b bs ih =>
    have hleft := runAt_blockLeft h
    have hblock : s.readBlock s.cur.toNat = b := by rw [h.cur, readBlock_of_holdsBlocks h.blocks]
    have hiv : (cbcStepAct s).ivreg = b := by rw [cbcStepAct_eq, hdir, if_pos rfl, hblock]
    have hstep := cbcStepAct_decrypts hdir hleft
    rw [hblock] at hstep
    obtain ⟨t, ht, hdec, hrun⟩ := ih (by rw [isDecrypt_of_cfg (cbcStepAct_cfg s), hdir]) (cbcStepAct_runAt h hstep)
    rw [decryption_cbcStepAct] at hdec hrun
    refine ⟨t, ?_, hdec, by simpa [cbcUnchain, hiv] using hrun⟩
    rw [List.length_cons, List.replicate_succ, runCommands_cons (exec_cbcStep h.err h.runOpen hleft), ht]

/-- What an open leaves, whatever the direction: the first block done, the others left. -/
theorem cbcOpenAct_runAt {s : State} {iv : Block} {bs : List Block} (he : s.err = false) (hopen : s.openable)
    (hblocks : (cbcOpenAct s).holdsBlocks (iv :: bs)) : (cbcOpenAct s).runAt [iv] bs := by
  obtain ⟨hlen, -⟩ := id hblocks
  have hrem := cbcOpenAct_rem_toNat hopen
  simp only [List.length_cons] at hlen
  exact ⟨by simpa using he, .inl (cbcOpenAct_phase s), hblocks, by simp, by omega⟩

theorem cbcOpenAct_holdsBlocks_encrypt {s : State} {ps : List Block} (hdir : s.isDecrypt = false) (hopen : s.openable)
    (hblocks : s.holdsBlocks ps) : (cbcOpenAct s).holdsBlocks ((cbcOpenAct s).ivreg :: ps) := by
  obtain ⟨hlen, hbytes⟩ := hblocks
  refine ⟨?_, fun a ha => ?_⟩
  · rw [cbcOpenAct_dlen_toNat hopen, hdir, if_neg (by decide), hlen, List.length_cons]; omega
  · rw [List.length_cons] at ha
    rw [dbuf?_cbcOpenAct_encrypt hdir hopen]
    by_cases hiv : a < 16
    · rw [if_pos hiv, show a / 16 = 0 by omega, show a % 16 = a by omega, List.getD_cons_zero]
    · rw [if_neg hiv, if_pos (by omega), hbytes _ (by omega), show a / 16 = (a - 16) / 16 + 1 by omega,
        show (a - 16) % 16 = a % 16 by omega, List.getD_cons_succ]

theorem cbcOpenAct_holdsBlocks_decrypt {s : State} {bs : List Block} (hdir : s.isDecrypt = true)
    (hblocks : s.holdsBlocks bs) : (cbcOpenAct s).holdsBlocks bs := by
  obtain ⟨hlen, hbytes⟩ := hblocks
  refine ⟨by simpa [hdir] using hlen, fun a ha => ?_⟩
  rw [dbuf?_cbcOpenAct_decrypt hdir, if_pos (hlen ▸ ha), hbytes a ha]

/-- The decrypting open takes the first block DBUF holds as the IV (R142). -/
theorem cbcOpenAct_ivreg_decrypt {s : State} {iv : Block} {cs : List Block} (hdir : s.isDecrypt = true)
    (hblocks : s.holdsBlocks (iv :: cs)) : (cbcOpenAct s).ivreg = iv := by
  have hkeyx : (engineKeyx s).holdsBlocks ([] ++ iv :: cs) := by
    simpa [State.holdsBlocks, State.dbuf?] using hblocks
  rw [cbcOpenAct_of_decrypt hdir]
  exact readBlock_of_holdsBlocks hkeyx

theorem runAt_finished {s : State} {xs : List Block} (h : s.runAt xs []) :
    s.err = false ∧ s.rem = 0 ∧ s.holdsBlocks xs :=
  ⟨h.err, BitVec.eq_of_toNat_eq h.rem, by simpa using h.blocks⟩

/-- Settles O57: the open puts the run behind the IV, and each step moves it on by a block of the chain. -/
theorem cbcChains : Obligations.CbcChains := by
  intro s he hready hw hdata
  refine ⟨fun ps hdir hblocks hone hfits => ?_, fun iv cs hdir hblocks hone => ?_⟩
  · have hd := isDecrypt_eq_false hdir
    obtain ⟨hlen, -⟩ := id hblocks
    have hopen : s.openable := ⟨hdata, by omega, by rw [hd, if_neg (by decide)]; omega⟩
    have hrun := cbcOpenAct_runAt he hopen (cbcOpenAct_holdsBlocks_encrypt hd hopen hblocks)
    obtain ⟨t, ht, henc, hend⟩ := runCommands_steps_encrypt (xs := []) (by rw [isDecrypt_of_cfg (cbcOpenAct_cfg s), hd]) hrun
    obtain ⟨hterr, htrem, htblocks⟩ := runAt_finished hend
    exact ⟨t, (cbcOpenAct s).ivreg, (runCommands_cons (exec_cbcOpen he hready hw hopen)).trans ht, hterr, htrem,
      henc ▸ htblocks⟩
  · have hd := isDecrypt_eq_true hdir
    obtain ⟨hlen, -⟩ := id hblocks
    rw [List.length_cons] at hlen
    have hopen : s.openable := ⟨hdata, by omega, by rw [hd, if_pos rfl]; omega⟩
    have hrun := cbcOpenAct_runAt he hopen (cbcOpenAct_holdsBlocks_decrypt hd hblocks)
    obtain ⟨t, ht, hdec, hend⟩ := runCommands_steps_decrypt (by rw [isDecrypt_of_cfg (cbcOpenAct_cfg s), hd]) hrun
    obtain ⟨hterr, htrem, htblocks⟩ := runAt_finished hend
    rw [cbcOpenAct_ivreg_decrypt hd hblocks, ← hdec] at htblocks
    exact ⟨t, (runCommands_cons (exec_cbcOpen he hready hw hopen)).trans ht, hterr, htrem, htblocks⟩

end Sys2Proof.Machine

/-! ## The session sequencer (44_session R160 to R165) -/

namespace Sys2Proof.Machine

/-! ### KEY.CLONE (R162) -/

theorem exec_keyClone {s : State} (he : s.err = false) (hidle : ¬ s.runOpen) (hkey : s.keyValid = true) :
    exec (.keyClone 0) s = .next (keyCloneAct s) := by
  refine exec_done (i := .keyClone 0) he ?_
  simp [checksOf, checkIdle_of_not_runOpen hidle, checkKey, hkey]

/-- The working copy agrees with the caller's key below KEYLEN. -/
theorem keyCloneAct_wkey_getD (s : State) {i : Nat} (hi : i < s.keylen.toNat) :
    (keyCloneAct s).wkey.getD i 0 = s.key.getD i 0 := by
  rw [keyCloneAct_wkey]
  by_cases h32 : i < 32
  · rw [table_getD _ _ _ h32, if_pos hi]
  · simp [Vector.getD, h32]

/-- Settles O22: the copy writes the working key, its length and its flag. -/
theorem keyCloneRule : Obligations.KeyCloneRule := fun s he hidle hkey =>
  ⟨_, _, exec_keyClone he hidle hkey, fun _ _ hi => keyCloneAct_wkey_getD s hi⟩

/-! ### SESS.CREATE (R161) -/

theorem exec_sessCreate {s : State} {alg dir : BitVec 1} {mode pad rsv : BitVec 2} {keybits : BitVec 16}
    (he : s.err = false) (hidle : ¬ s.runOpen) (hfields : WellFormed.cfgFields mode pad rsv = true)
    (hbits : WellFormed.keyBits keybits = true) :
    exec (.sessCreate alg dir mode pad rsv keybits) s =
      .next (sessCreateAct (Instr.sessCreate alg dir mode pad rsv keybits).encode s) := by
  refine exec_done (i := .sessCreate alg dir mode pad rsv keybits) he ?_
  simp [checksOf, checkCfgFields, hfields, checkKeybits, hbits, checkIdle_of_not_runOpen hidle]

/-- The fields of CFG are the operands of the command (30_encoding R51). -/
theorem cfgOf_sessCreate (alg dir : BitVec 1) (mode pad rsv : BitVec 2) (keybits : BitVec 16) :
    cfgAlg (cfgOf (Instr.sessCreate alg dir mode pad rsv keybits).encode) = alg ∧
      cfgDir (cfgOf (Instr.sessCreate alg dir mode pad rsv keybits).encode) = dir ∧
      cfgMode (cfgOf (Instr.sessCreate alg dir mode pad rsv keybits).encode) = mode ∧
      cfgPad (cfgOf (Instr.sessCreate alg dir mode pad rsv keybits).encode) = pad ∧
      cfgKeybits (cfgOf (Instr.sessCreate alg dir mode pad rsv keybits).encode) = keybits := by
  have hfields := createFields_encode alg dir mode pad rsv keybits
  simp only [createFields, Instr.sessCreate.injEq] at hfields
  obtain ⟨halg, hdir, hmode, hpad, -, hkeybits⟩ := hfields
  exact ⟨(cfgOf_extractLsb' _ (by decide)).trans halg, (cfgOf_extractLsb' _ (by decide)).trans hdir,
    (cfgOf_extractLsb' _ (by decide)).trans hmode, (cfgOf_extractLsb' _ (by decide)).trans hpad,
    (cfgOf_extractLsb' _ (by decide)).trans hkeybits⟩

theorem cfgFields_of_pad {pad : BitVec 2} (h : pad = 0 ∨ pad = 1) : WellFormed.cfgFields 0 pad 0 = true := by
  rcases h with rfl | rfl <;> rfl

theorem keyBits_of_size {keybits : BitVec 16} (h : keybits = 128 ∨ keybits = 192 ∨ keybits = 256) :
    WellFormed.keyBits keybits = true := by
  rcases h with rfl | rfl | rfl <;> rfl

/-- Settles O23: the fields of CFG are the operands, and only the bytes from DLEN on are forgotten. -/
theorem sessCreateRule : Obligations.SessCreateRule := by
  intro s alg dir pad keybits he hidle hpad hbits
  obtain ⟨halg, hdir, hmode, hpad', hkeybits⟩ := cfgOf_sessCreate alg dir 0 pad 0 keybits
  exact ⟨_, _, exec_sessCreate he hidle (cfgFields_of_pad hpad) (keyBits_of_size hbits), rfl, halg, hdir, hmode, hpad',
    hkeybits, dbuf?_forgetTail _⟩

/-! ### The checks of SESS.EXEC (R160) -/

/-- What lets SESS.EXEC be Done: the checks 2 to 7 of R160. -/
structure State.executable (s : State) : Prop where
  ready : s.sessionReady
  key : s.keyValid = true
  data : s.dataValid = true
  keylen : s.keylen.toNat * 8 = (cfgKeybits s.cfg).toNat
  length : (checkExecLength s).1 = true
  fits : (checkExecFits s).1 = true

theorem paddedLen_eq_sessionLength (s : State) : paddedLen s = sessionLength s := by
  unfold paddedLen sessionLength p7Count
  by_cases hp : cfgPad s.cfg = 0#2
  · simp only [State.isPkcs7, hp, beq_self_eq_true, if_true]; omega
  · simp [State.isPkcs7, hp]

theorem executable_of_encrypt {s : State} (hready : s.sessionReady) (hkey : s.keyValid = true)
    (hdata : s.dataValid = true) (hkeylen : s.keylen.toNat * 8 = (cfgKeybits s.cfg).toNat) (hdir : s.isDecrypt = false)
    (hlen : cfgPad s.cfg = 0#2 ∨ (16 ≤ s.dlen.toNat ∧ s.dlen.toNat % 16 = 0))
    (hfits : sessionLength s + 16 ≤ Config.bufCap) : s.executable := by
  refine ⟨hready, hkey, hdata, hkeylen, ?_, ?_⟩
  · simpa [checkExecLength, hdir, State.isPkcs7] using hlen
  · simpa [checkExecFits, hdir, paddedLen_eq_sessionLength] using hfits

theorem executable_of_decrypt {s : State} (hready : s.sessionReady) (hkey : s.keyValid = true)
    (hdata : s.dataValid = true) (hkeylen : s.keylen.toNat * 8 = (cfgKeybits s.cfg).toNat) (hdir : s.isDecrypt = true)
    (hlen : 32 ≤ s.dlen.toNat) (hmod : s.dlen.toNat % 16 = 0) : s.executable := by
  refine ⟨hready, hkey, hdata, hkeylen, ?_, ?_⟩
  · simp [checkExecLength, hdir, hlen, hmod]
  · simp [checkExecFits, hdir]

theorem exec_sessExec {s : State} (he : s.err = false) (h : s.executable) :
    exec (.sessExec 0) s = .next (sessExecAct s) := by
  obtain ⟨hready, hkey, hdata, hkeylen, hlen, hfits⟩ := h
  have hstart : (checkStartable s).1 = true := by simpa [checkStartable] using hready
  refine exec_done (i := .sessExec 0) he (firstFailing_eq_none.2 ?_)
  simp [checksOf, sessExecChecks, hstart, checkKey, hkey, checkData, hdata, checkKeylen, hkeylen, hlen, hfits]

theorem failing_eq_none {ok : Bool} {c : Cause} : failing ok c = none ↔ ok = true := by
  cases ok <;> simp [failing]

theorem sessionReady_of_phaseVerdict {s : State} (h : phaseVerdict (.sessExec 0) s.phase = none) : s.sessionReady := by
  cases hp : s.phase with
  | created => exact .inl hp
  | closed => exact .inr hp
  | none | opened | stepping => simp [phaseVerdict, hp] at h

/-- The scheme of R185 names no cause for SESS.EXEC only where the checks of R160 hold. -/
theorem executable_of_refusalCause {s : State} (h : refusalCause (.sessExec 0) s = none) : s.executable := by
  simp only [refusalCause, Option.or_eq_none_iff, presenceCause, rangeCause, failing_eq_none, decide_eq_true_eq] at h
  obtain ⟨-, hphase, ⟨hkey, hdata⟩, hkeylen, hlen⟩ := h
  have hready := sessionReady_of_phaseVerdict hphase
  rcases hdir : s.isDecrypt with _ | _
  · have hd : cfgDir s.cfg ≠ 1#1 := by simpa [State.isDecrypt] using hdir
    simp only [hd, if_false, Option.or_eq_none_iff, failing_eq_none, decide_eq_true_eq] at hlen
    exact executable_of_encrypt hready hkey hdata hkeylen hdir hlen.1 hlen.2
  · have hd : cfgDir s.cfg = 1#1 := by simpa [State.isDecrypt] using hdir
    simp only [hd, if_true, failing_eq_none, decide_eq_true_eq] at hlen
    exact executable_of_decrypt hready hkey hdata hkeylen hdir hlen.1 hlen.2

/-! ### The stages of SESS.EXEC (R160)

SESS.EXEC clones, pads, opens, steps and closes. The two states a proof needs by name are the one after its open and the one
after its steps. -/

/-- SESS.EXEC after its open. -/
def State.sessOpened (s : State) : State := cbcOpenAct (sessAppend (keyCloneAct s))

/-- SESS.EXEC after its steps, where only the close is left. -/
def State.sessStepped (s : State) : State := stepLoop (s.sessOpened.dlen.toNat / 16) s.sessOpened

theorem sessExecAct_eq_close (s : State) : sessExecAct s = cbcCloseAct s.sessStepped := rfl

/-- A run is open and `k` whole blocks are left of it. -/
structure State.runLeft (s : State) (k : Nat) : Prop where
  runOpen : s.runOpen
  left : s.dlen.toNat = s.cur.toNat + 16 * k

theorem cbcStepAct_runLeft {s : State} {k : Nat} (h : s.runLeft (k + 1)) : (cbcStepAct s).runLeft k := by
  have hleft := h.left
  refine ⟨.inr (cbcStepAct_phase s), ?_⟩
  rw [cbcStepAct_dlen, cbcStepAct_cur_toNat (by omega)]
  omega

/-- REM is 0 after the step of the last block. -/
theorem cbcStepAct_rem_eq_zero_iff {s : State} {k : Nat} (h : s.runLeft (k + 1)) : (cbcStepAct s).rem = 0 ↔ k = 0 := by
  have hleft := h.left
  have hrem := cbcStepAct_rem_toNat (s := s) (by omega)
  rw [← BitVec.toNat_inj, hrem, show (0 : Word).toNat = 0 from rfl]
  omega

/-- The repetition takes one step for each block that is left: what holds before the steps and is kept by each of them holds
at the end (43_cbc R151). -/
theorem stepLoop_induct {P : State → Nat → Prop}
    (hstep : ∀ s k, s.runLeft (k + 1) → P s (k + 1) → P (cbcStepAct s) k) {n k : Nat} {s : State} (hn : k < n)
    (hrun : s.runLeft (k + 1)) (h : P s (k + 1)) : (stepLoop n s).runLeft 0 ∧ P (stepLoop n s) 0 := by
  induction k generalizing n s with
  | zero =>
    obtain ⟨n, rfl⟩ := Nat.exists_eq_succ_of_ne_zero (Nat.ne_of_gt hn)
    rw [stepLoop, if_pos ((cbcStepAct_rem_eq_zero_iff hrun).2 rfl)]
    exact ⟨cbcStepAct_runLeft hrun, hstep s 0 hrun h⟩
  | succ k ih =>
    obtain ⟨n, rfl⟩ := Nat.exists_eq_succ_of_ne_zero (Nat.ne_zero_of_lt hn)
    rw [stepLoop, if_neg fun hz => absurd ((cbcStepAct_rem_eq_zero_iff hrun).1 hz) (Nat.succ_ne_zero k)]
    exact ih (Nat.lt_of_succ_lt_succ hn) (cbcStepAct_runLeft hrun) (hstep s _ hrun h)

theorem stepLoop_phase (n : Nat) (s : State) : (stepLoop (n + 1) s).phase = .stepping := by
  induction n generalizing s with
  | zero => simp [stepLoop]
  | succ n ih =>
    rw [stepLoop]
    split
    · exact cbcStepAct_phase s
    · exact ih _

/-- The steps of a run are Done one by one, and the repetition of SESS.EXEC ends where they end. -/
theorem runCommands_steps {n k : Nat} {s : State} (he : s.err = false) (hn : k < n) (hrun : s.runLeft (k + 1)) :
    runCommands (List.replicate (k + 1) (.cbcStep 0)) s = .next (stepLoop n s) := by
  refine (stepLoop_induct (P := fun t j => t.err = false ∧
    runCommands (List.replicate (k + 1) (.cbcStep 0)) s = runCommands (List.replicate j (.cbcStep 0)) t)
    (fun t j hleft ⟨herr, heq⟩ => ⟨by simpa using herr, heq.trans ?_⟩) hn hrun ⟨he, rfl⟩).2.2
  have hblock := hleft.left
  exact runCommands_cons (exec_cbcStep herr hleft.runOpen (by omega))

/-- What SESS.EXEC gives its open: padded data that the open takes. -/
theorem executable_openable {s : State} (h : s.executable) : (sessAppend (keyCloneAct s)).openable :=
  sessAppend_openable (s := keyCloneAct s) h.data h.length h.fits

theorem sessionSteps_eq (s : State) :
    sessionSteps s = if s.isDecrypt then (s.dlen.toNat - 16) / 16 else paddedLen s / 16 := by
  simp [sessionSteps, State.isDecrypt, paddedLen_eq_sessionLength]

/-- The length the steps work on: the IV and one block for each step (43_cbc R151). -/
theorem sessOpened_dlen_toNat {s : State} (h : s.executable) :
    s.sessOpened.dlen.toNat = 16 + 16 * sessionSteps s := by
  have hpadded : (sessAppend (keyCloneAct s)).dlen.toNat = if s.isDecrypt then s.dlen.toNat else paddedLen s := by
    refine sessAppend_dlen_toNat (s := keyCloneAct s) ?_
    have hfits : s.isDecrypt = true ∨ paddedLen s + 16 ≤ Config.bufCap := by simpa [checkExecFits] using h.fits
    exact hfits.imp_right fun hle => Nat.le_of_add_right_le hle
  have hdir : (sessAppend (keyCloneAct s)).isDecrypt = s.isDecrypt := isDecrypt_of_cfg (by simp)
  have hopen := executable_openable h
  rw [State.sessOpened, cbcOpenAct_dlen_toNat hopen, hdir, hpadded, sessionSteps_eq]
  obtain ⟨-, hmod, hlen⟩ := hopen
  rw [hpadded] at hmod
  rw [hdir, hpadded] at hlen
  cases hd : s.isDecrypt <;> simp only [hd, if_true, Bool.false_eq_true, if_false] at hmod hlen ⊢ <;> omega

/-- The open leaves `sessionSteps` blocks, at least one, and the repetition has turns enough for them. -/
theorem sessOpened_run {s : State} (h : s.executable) :
    ∃ k, sessionSteps s = k + 1 ∧ k < s.sessOpened.dlen.toNat / 16 ∧ s.sessOpened.runLeft (k + 1) := by
  have hdlen := sessOpened_dlen_toNat h
  have hlong : 32 ≤ s.sessOpened.dlen.toNat := (cbcOpenAct_length (executable_openable h)).1
  have hcur : s.sessOpened.cur.toNat = 16 := by simp [State.sessOpened]
  exact ⟨sessionSteps s - 1, by omega, by omega, .inl (cbcOpenAct_phase _), by omega⟩

theorem sessStepped_dlen (s : State) : s.sessStepped.dlen = s.sessOpened.dlen := stepLoop_dlen ..

theorem sessStepped_cfg (s : State) : s.sessStepped.cfg = s.cfg := by simp [State.sessStepped, State.sessOpened]

theorem sessStepped_isDecrypt (s : State) : s.sessStepped.isDecrypt = s.isDecrypt := isDecrypt_of_cfg (sessStepped_cfg s)

/-- No block is left for the close. -/
theorem sessStepped_finished {s : State} (h : s.executable) :
    s.sessStepped.phase = .stepping ∧ s.sessStepped.cur = s.sessStepped.dlen := by
  obtain ⟨k, -, hn, hrun⟩ := sessOpened_run h
  have hend := (stepLoop_induct (P := fun _ _ => True) (fun _ _ _ _ => trivial) hn hrun trivial).1.left
  refine ⟨?_, (BitVec.eq_of_toNat_eq hend).symm⟩
  obtain ⟨n, hn'⟩ := Nat.exists_eq_succ_of_ne_zero (Nat.ne_zero_of_lt hn)
  rw [State.sessStepped, hn', stepLoop_phase]

/-! ### The single commands (R163) -/

theorem runCommands_singleton {i : Instr} {s t : State} (h : exec i s = .next t) : runCommands [i] s = .next t :=
  runCommands_cons h

theorem runCommands_trans {is js : List Instr} {s t u : State} (his : runCommands is s = .next t)
    (hjs : runCommands js t = .next u) : runCommands (is ++ js) s = .next u :=
  (runCommands_append his).trans hjs

theorem not_runOpen_of_sessionReady {s : State} (h : s.sessionReady) : ¬ s.runOpen := by
  rcases h with h | h <;> simp [State.runOpen, h]

/-- The padding command that R163 names, if any, is Done and does what SESS.EXEC does. -/
theorem runCommands_padding {s : State} (he : s.err = false) (hidle : ¬ s.runOpen) (hdata : s.dataValid = true)
    (hfits : (checkExecFits s).1 = true) :
    runCommands (if cfgDir s.cfg = 1#1 then [] else if cfgPad s.cfg = 0#2 then [.p7Append 0] else [.npAppend 0]) s =
      .next (sessAppend s) := by
  by_cases hdir : cfgDir s.cfg = 1#1
  · rw [if_pos hdir, sessAppend, if_pos (isDecrypt_eq_true hdir)]
    rfl
  · have hd : ¬ s.isDecrypt = true := by simpa [State.isDecrypt] using hdir
    rw [if_neg hdir, sessAppend, if_neg hd]
    by_cases hpad : cfgPad s.cfg = 0#2
    · have hp : s.isPkcs7 = true := by simp [State.isPkcs7, hpad]
      simp only [checkExecFits, hd, paddedLen, hp, if_true, Bool.false_or, decide_eq_true_eq] at hfits
      rw [if_pos hpad, if_pos hp]
      exact runCommands_singleton (exec_p7Append he hidle hdata (by omega))
    · have hp : ¬ s.isPkcs7 = true := by simpa [State.isPkcs7] using hpad
      rw [if_neg hpad, if_neg hp]
      exact runCommands_singleton (exec_done (i := .npAppend 0) he (firstFailing_paddingChecks hidle hdata))

theorem runCommands_sessionSteps {s : State} (he : s.err = false) (h : s.executable) :
    runCommands (List.replicate (sessionSteps s) (.cbcStep 0)) s.sessOpened = .next s.sessStepped := by
  obtain ⟨k, hk, hn, hrun⟩ := sessOpened_run h
  rw [hk]
  exact runCommands_steps (by simpa [State.sessOpened] using he) hn hrun

/-- Every command of R163 is Done, and the last one ends where SESS.EXEC ends. -/
theorem runCommands_sessionCommands {s : State} (he : s.err = false) (h : s.executable) :
    runCommands (sessionCommands s (sessionSteps s)) s = .next (sessExecAct s) := by
  have hidle := not_runOpen_of_sessionReady h.ready
  have hclone := runCommands_singleton (exec_keyClone he hidle h.key)
  have hpad := runCommands_padding (s := keyCloneAct s) he hidle h.data h.fits
  have hopen : runCommands [.cbcOpen 0] (sessAppend (keyCloneAct s)) = .next s.sessOpened :=
    runCommands_singleton (exec_cbcOpen (by simpa using he) (by simpa [State.sessionReady] using h.ready) (by simp)
      (executable_openable h))
  have hsteps := runCommands_sessionSteps he h
  obtain ⟨hphase, hcur⟩ := sessStepped_finished h
  have hclose := runCommands_singleton (exec_cbcClose (by simpa [State.sessStepped, State.sessOpened] using he) hphase hcur)
  exact runCommands_trans (runCommands_trans (runCommands_trans (runCommands_trans hclone hpad) hopen) hsteps) hclose

theorem sessExecAct_err (s : State) : (sessExecAct s).err = s.err := by simp [sessExecAct, sessRun]

/-- Settles O26: R185 names no cause only where the checks of R160 hold, and then each single command is Done. -/
theorem sessExecEqualsCommandSequence : Obligations.SessExecEqualsCommandSequence := fun s he h =>
  ⟨sessExecAct s, exec_sessExec he (executable_of_refusalCause h),
    runCommands_sessionCommands he (executable_of_refusalCause h), (sessExecAct_err s).trans he⟩

/-! ### What a session leaves (R160, R165) -/

theorem spNormalize_congr {L : Nat} {w w' : Vector Byte 32} (h : ∀ i, i < L → w.getD i 0 = w'.getD i 0) :
    spNormalize L w = spNormalize L w' := by
  refine vector_ext fun i hi => ?_
  rw [spNormalize, spNormalize, table_getElem, table_getElem]
  split
  · exact h _ (by omega)
  · rfl

/-- Serpent's schedule of the working copy is that of the caller's key (R162, 41_serpent R106). -/
theorem sessOpened_serpent {s : State} (h : s.isSerpent = true) :
    s.sessOpened.spK = spSchedule (spNormalize s.keylen.toNat s.key) ∧
      s.sessOpened.wkey = spNormalize s.keylen.toNat s.key ∧ s.sessOpened.wklen = 32 ∧
      s.sessOpened.tfK = s.tfK ∧ s.sessOpened.tfM = s.tfM := by
  obtain ⟨htfK, htfM, hspK, hwkey, hwklen⟩ :=
    cbcOpenAct_serpent (s := sessAppend (keyCloneAct s)) ((isSerpent_of_cfg (by simp)).trans h)
  rw [sessAppend_wkey, sessAppend_wklen, keyCloneAct_wklen,
    spNormalize_congr fun _ hi => keyCloneAct_wkey_getD s hi] at hspK hwkey
  exact ⟨hspK, hwkey, hwklen, htfK.trans (by simp), htfM.trans (by simp)⟩

theorem sessOpened_twofish {s : State} (h : s.isSerpent = false) :
    s.sessOpened.tfK = tfScheduleK s.keylen.toNat (keyCloneAct s).wkey ∧
      s.sessOpened.tfM = tfScheduleM s.keylen.toNat (keyCloneAct s).wkey ∧
      s.sessOpened.wkey = (keyCloneAct s).wkey ∧ s.sessOpened.wklen = s.keylen.toNat ∧ s.sessOpened.spK = s.spK := by
  obtain ⟨htfK, htfM, hspK, hwkey, hwklen⟩ :=
    cbcOpenAct_twofish (s := sessAppend (keyCloneAct s)) ((isSerpent_of_cfg (by simp)).trans h)
  rw [sessAppend_wkey, sessAppend_wklen] at htfK htfM
  exact ⟨htfK, htfM, hwkey.trans (sessAppend_wkey _), hwklen.trans (sessAppend_wklen _), hspK.trans (by simp)⟩

theorem sessExecAct_wkey (s : State) : (sessExecAct s).wkey = s.sessOpened.wkey := by
  simp [sessExecAct_eq_close, State.sessStepped]

theorem sessExecAct_wklen (s : State) : (sessExecAct s).wklen = s.sessOpened.wklen := by
  simp [sessExecAct_eq_close, State.sessStepped]

/-- WKEY after a session: the working copy, which Serpent's key schedule normalizes in place. -/
theorem sessExecAct_workingKey (s : State) :
    (sessExecAct s).wklen = (if cfgAlg s.cfg = 1#1 then 32 else s.keylen.toNat) ∧
      (cfgAlg s.cfg = 1#1 → (sessExecAct s).wkey = spNormalize s.keylen.toNat s.key) ∧
      (cfgAlg s.cfg = 0#1 → ∀ i, i < 32 → i < s.keylen.toNat → (sessExecAct s).wkey.getD i 0 = s.key.getD i 0) := by
  rw [sessExecAct_wkey, sessExecAct_wklen]
  rcases cfgAlg_eq_zero_or_one s.cfg with halg | halg
  · obtain ⟨-, -, hwkey, hwklen, -⟩ := sessOpened_twofish (isSerpent_eq_false halg)
    exact ⟨by simp [halg, hwklen], by simp [halg], fun _ i _ hi => hwkey ▸ keyCloneAct_wkey_getD s hi⟩
  · obtain ⟨-, hwkey, hwklen, -⟩ := sessOpened_serpent (isSerpent_eq_true halg)
    exact ⟨by simp [halg, hwklen], fun _ => hwkey, by simp [halg]⟩

/-- A session leaves the expanded key of the other engine (70 R208). -/
theorem sessExecAct_otherEngine (s : State) :
    (cfgAlg s.cfg = 1#1 → (sessExecAct s).tfK = s.tfK ∧ (sessExecAct s).tfM = s.tfM) ∧
      (cfgAlg s.cfg = 0#1 → (sessExecAct s).spK = s.spK) := by
  obtain ⟨hserpent, htwofish⟩ := cbcCloseAct_otherEngine s.sessStepped
  rw [sessStepped_cfg] at hserpent htwofish
  refine ⟨fun halg => ?_, fun halg => ?_⟩
  · obtain ⟨hK, hM⟩ := hserpent halg
    obtain ⟨-, -, -, htfK, htfM⟩ := sessOpened_serpent (isSerpent_eq_true halg)
    exact ⟨hK.trans ((stepLoop_tfK ..).trans htfK), hM.trans ((stepLoop_tfM ..).trans htfM)⟩
  · obtain ⟨-, -, -, -, hspK⟩ := sessOpened_twofish (isSerpent_eq_false halg)
    exact (htwofish halg).trans ((stepLoop_spK ..).trans hspK)

/-- The frame of SESS.EXEC: what it writes, and that it writes nothing else (R160, "State written"). -/
theorem sessExecAct_eq (s : State) :
    sessExecAct s =
      { s with
        phase := .closed, cur := 0, rem := 0, dlen := (sessExecAct s).dlen, dbuf := (sessExecAct s).dbuf
        wkey := (sessExecAct s).wkey, wklen := (sessExecAct s).wklen, wkeyValid := true, ivreg := (sessExecAct s).ivreg
        tfK := (sessExecAct s).tfK, tfM := (sessExecAct s).tfM, spK := (sessExecAct s).spK, draws := (sessExecAct s).draws
        tfxValid := s.tfxValid && cfgAlg s.cfg == 1#1, spxValid := s.spxValid && cfgAlg s.cfg == 0#1 } := by
  refine (cbcCloseAct_eq s.sessStepped).trans ?_
  -- Field by field: what the close leaves, the steps, the open, the padding and the copy leave too.
  rcases cfgAlg_eq_zero_or_one s.cfg with halg | halg <;> congr 1 <;>
    simp [sessExecAct_wkey, sessExecAct_wklen, State.sessStepped, State.sessOpened, State.isSerpent, halg]

theorem cbcStepAct_replacesBlock {s : State} (hleft : s.cur.toNat + 16 ≤ s.dlen.toNat) :
    ∃ B, s.stepsTo (cbcStepAct s) B := by
  cases hd : s.isDecrypt with
  | true => exact ⟨_, cbcStepAct_decrypts hd hleft⟩
  | false => exact ⟨_, cbcStepAct_encrypts hd hleft⟩

/-- Every byte from `lo` up to CUR is specified. -/
def State.specifiedFrom (lo : Nat) (s : State) : Prop := ∀ a, lo ≤ a → a < s.cur.toNat → (s.dbuf? a).isSome

/-- A step specifies the block it replaces. -/
theorem cbcStepAct_specifiedFrom {lo : Nat} {s : State} (hleft : s.cur.toNat + 16 ≤ s.dlen.toNat)
    (h : s.specifiedFrom lo) : (cbcStepAct s).specifiedFrom lo := by
  obtain ⟨B, hB⟩ := cbcStepAct_replacesBlock hleft
  intro a hlo ha
  rw [cbcStepAct_cur_toNat hleft] at ha
  rw [hB a]
  by_cases hold : a < s.cur.toNat
  · rw [if_neg (by omega), if_pos (by omega)]
    exact h a hlo hold
  · rw [if_pos (by omega)]
    rfl

/-- After the steps every byte of the data is specified, and of the IV where the open wrote it. -/
theorem sessStepped_specified {s : State} (h : s.executable) {a : Nat} (hiv : s.isDecrypt = true → 16 ≤ a)
    (ha : a < s.sessStepped.dlen.toNat) : (s.sessStepped.dbuf? a).isSome := by
  obtain ⟨k, -, hn, hrun⟩ := sessOpened_run h
  have hstart : s.sessOpened.specifiedFrom (if s.isDecrypt then 16 else 0) := by
    intro b hlo hb
    have hb16 : b < 16 := by simpa [State.sessOpened] using hb
    cases hd : s.isDecrypt with
    | true => simp only [hd, if_true] at hlo; omega
    | false =>
      have hdir : (sessAppend (keyCloneAct s)).isDecrypt = false := (isDecrypt_of_cfg (by simp)).trans hd
      rw [State.sessOpened, dbuf?_cbcOpenAct_encrypt hdir (executable_openable h), if_pos hb16]
      rfl
  obtain ⟨hend, hspec⟩ := stepLoop_induct (P := fun t _ => t.specifiedFrom (if s.isDecrypt then 16 else 0))
    (fun t k hleft ht => cbcStepAct_specifiedFrom (by have := hleft.left; omega) ht) hn hrun hstart
  refine hspec a ?_ (ha.trans_eq hend.left)
  split
  · next hd => exact hiv hd
  · exact Nat.zero_le a

/-- A decrypting close takes at least the IV away (R147). -/
theorem cbcCloseAct_decrypt_dlen_le {s : State} (hdir : s.isDecrypt = true) (hiv : 16 ≤ s.dlen.toNat) :
    (cbcCloseAct s).dlen.toNat + 16 ≤ s.dlen.toNat := by
  have hremoved := removePadding_dlen_le s.trimmed
  have htrimmed := trimmed_dlen_le hiv
  rw [cbcCloseAct_decrypt_dlen hdir]
  omega

/-- P7.REMOVE takes at least the last byte away (42_padding R131). -/
theorem p7RemoveLen_le_pred (n : Nat) (b : Byte) : p7RemoveLen n b ≤ n - 1 := by
  unfold p7RemoveLen
  split_ifs <;> omega

/-- With PKCS7 the close takes a byte more, where there is one behind the IV (R149, R165). -/
theorem cbcCloseAct_pkcs7_dlen_le {s : State} (hdir : s.isDecrypt = true) (hpad : cfgPad s.cfg = 0#2)
    (hiv : 17 ≤ s.dlen.toNat) : (cbcCloseAct s).dlen.toNat + 17 ≤ s.dlen.toNat := by
  have htrimmed := trimmed_dlen_le (s := s) (by omega)
  have hremoved := p7RemoveLen_le_pred s.trimmed.dlen.toNat (s.trimmed.byteAt (s.trimmed.dlen.toNat - 1))
  have hcfg : s.trimmed.cfg = s.cfg := engineClose_cfg s
  rw [cbcCloseAct_decrypt_dlen hdir, removePadding_dlen_toNat, hcfg, if_pos hpad]
  omega

theorem cbcCloseAct_encrypt_dlen {s : State} (hdir : s.isDecrypt = false) : (cbcCloseAct s).dlen = s.dlen := by
  simp [cbcCloseAct_of_encrypt hdir]

/-- The bytes a session leaves are all specified, and none behind them is (R160, 10_state R19). -/
theorem sessExecAct_specified {s : State} (h : s.executable) (a : Nat) :
    ((sessExecAct s).dbuf? a).isSome ↔ a < (sessExecAct s).dlen.toNat := by
  rw [sessExecAct_eq_close]
  cases hd : s.isDecrypt with
  | true =>
    have hdir := (sessStepped_isDecrypt s).trans hd
    have hiv : 16 ≤ s.sessStepped.dlen.toNat := by rw [sessStepped_dlen, sessOpened_dlen_toNat h]; omega
    have hshorter := cbcCloseAct_decrypt_dlen_le hdir hiv
    rw [dbuf?_cbcCloseAct_decrypt hdir hiv]
    split
    · next ha => simp [ha, sessStepped_specified h (a := a + 16) (fun _ => by omega) (by omega)]
    · next ha => simp [ha]
  | false =>
    have hdir := (sessStepped_isDecrypt s).trans hd
    rw [dbuf?_cbcCloseAct_encrypt hdir, cbcCloseAct_encrypt_dlen hdir]
    split
    · next ha => simp [ha, sessStepped_specified h (by simp [hd]) ha]
    · next ha => simp [ha]

/-- An encrypting session leaves the IV and the padded data (R165). -/
theorem sessExecAct_encrypt_dlen_toNat {s : State} (h : s.executable) (hdir : s.isDecrypt = false) :
    (sessExecAct s).dlen.toNat = 16 + 16 * sessionSteps s := by
  rw [sessExecAct_eq_close, cbcCloseAct_encrypt_dlen ((sessStepped_isDecrypt s).trans hdir), sessStepped_dlen,
    sessOpened_dlen_toNat h]

/-- Settles O24: the frame is `sessExecAct_eq`, the length is that of the open, and the steps specify every byte. -/
theorem sessExecEncrypts : Obligations.SessExecEncrypts := by
  intro s he hready hkey hdata hkeylen hdir hlen hfits
  have hd := isDecrypt_eq_false hdir
  have h := executable_of_encrypt hready hkey hdata hkeylen hd hlen hfits
  obtain ⟨hwklen, hserpent, htwofish⟩ := sessExecAct_workingKey s
  obtain ⟨htf, hsp⟩ := sessExecAct_otherEngine s
  refine ⟨_, _, _, _, _, _, _, _, _, (exec_sessExec he h).trans (congrArg _ (sessExecAct_eq s)), ?_, hwklen, hserpent,
    htwofish, htf, hsp, sessExecAct_specified h⟩
  rw [sessExecAct_encrypt_dlen_toNat h hd, sessionSteps, sessionLength, hdir, if_neg (by decide)]
  split
  · omega
  · next hpad => have := hlen.resolve_left hpad; omega

/-- The length before and after a decrypting open is the same. -/
theorem sessStepped_decrypt_dlen {s : State} (hdir : s.isDecrypt = true) : s.sessStepped.dlen = s.dlen := by
  have hd : (sessAppend (keyCloneAct s)).isDecrypt = true := (isDecrypt_of_cfg (by simp)).trans hdir
  have hclone : (keyCloneAct s).isDecrypt = true := hdir
  rw [sessStepped_dlen, State.sessOpened, cbcOpenAct_dlen, hd, if_pos rfl, sessAppend, if_pos hclone, keyCloneAct_dlen]

/-- Settles O25: the frame is `sessExecAct_eq`, and the bounds are those of the decrypting close. -/
theorem sessExecDecrypts : Obligations.SessExecDecrypts := by
  intro s he hready hkey hdata hkeylen hdir hlen hmod
  have hd := isDecrypt_eq_true hdir
  have h := executable_of_decrypt hready hkey hdata hkeylen hd hlen hmod
  obtain ⟨hwklen, hserpent, htwofish⟩ := sessExecAct_workingKey s
  obtain ⟨htf, hsp⟩ := sessExecAct_otherEngine s
  have hbefore := sessStepped_decrypt_dlen hd
  have hclosing := (sessStepped_isDecrypt s).trans hd
  refine ⟨_, _, _, _, _, _, _, _, _, (exec_sessExec he h).trans (congrArg _ (sessExecAct_eq s)), fun hpad => ?_, ?_,
    hwklen, hserpent, htwofish, htf, hsp, sessExecAct_specified h⟩
  · have hle := cbcCloseAct_pkcs7_dlen_le hclosing ((sessStepped_cfg s).symm ▸ hpad) (by rw [hbefore]; omega)
    rwa [hbefore] at hle
  · have hle := cbcCloseAct_decrypt_dlen_le hclosing (by rw [hbefore]; omega)
    rwa [hbefore] at hle

/-! ### The round trip (R164) -/

theorem holdsBlocks_of_same {s t : State} {bs : List Block} (h : s.holdsBlocks bs) (hdlen : t.dlen = s.dlen)
    (hbytes : ∀ a, a < s.dlen.toNat → t.dbuf? a = s.dbuf? a) : t.holdsBlocks bs := by
  obtain ⟨hlen, hold⟩ := h
  exact ⟨hdlen ▸ hlen, fun a ha => (hbytes a (by omega)).trans (hold a ha)⟩

/-- Specified data of whole blocks is a list of blocks. -/
theorem exists_holdsBlocks {s : State} (hmod : s.dlen.toNat % 16 = 0)
    (hspec : ∀ a, a < s.dlen.toNat → (s.dbuf? a).isSome) : ∃ bs, s.holdsBlocks bs := by
  refine ⟨(List.range (s.dlen.toNat / 16)).map fun k => s.readBlock (16 * k), ?_, fun a ha => ?_⟩
  · rw [List.length_map, List.length_range]; omega
  · rw [List.length_map, List.length_range] at ha
    obtain ⟨v, hv⟩ := Option.isSome_iff_exists.1 (hspec a (by omega))
    rw [List.getD_eq_getElem _ _ (by rw [List.length_map, List.length_range]; omega), List.getElem_map, List.getElem_range,
      readBlock_getD _ _ _ (by omega), show 16 * (a / 16) + a % 16 = a by omega, byteAt_of_some hv, hv]

/-- Blocks behind an IV stand sixteen bytes higher than without it. -/
theorem dbuf?_behind_iv {s t : State} {iv : Block} {bs : List Block} (hs : s.holdsBlocks (iv :: bs)) (ht : t.holdsBlocks bs)
    {a : Nat} (ha : a < t.dlen.toNat) : s.dbuf? (a + 16) = t.dbuf? a := by
  obtain ⟨-, hsbytes⟩ := hs
  obtain ⟨hlen, htbytes⟩ := ht
  rw [hsbytes _ (by rw [List.length_cons]; omega), htbytes a (by omega), show (a + 16) / 16 = a / 16 + 1 by omega,
    show (a + 16) % 16 = a % 16 by omega, List.getD_cons_succ]

theorem xorBlock_xorBlock_cancel (b c : Block) : xorBlock (xorBlock b c) c = b := by
  refine vector_ext fun i hi => ?_
  simp [xorBlock, Vector.getD, hi]

/-- Where each block decrypts to what was encrypted, the chain gives the blocks back (43_cbc R150). -/
theorem cbcUnchain_cbcChain {E D : Block → Block} (h : ∀ b, D (E b) = b) (c : Block) (ps : List Block) :
    cbcUnchain D c (cbcChain E c ps) = ps := by
  induction ps generalizing c with
  | nil => rfl
  | cons p ps ih => rw [cbcChain, cbcUnchain, h, xorBlock_xorBlock_cancel, ih]

/-- Twofish's expanded key depends on the key bytes below WKLEN only (40_twofish R80). -/
theorem tfSchedule_congr {L : Nat} {w w' : Vector Byte 32} (hL : L ≤ 32) (h : ∀ i, i < L → w'.getD i 0 = w.getD i 0) :
    tfScheduleK L w = tfScheduleK L w' ∧ tfScheduleM L w = tfScheduleM L w' :=
  tfZeroExtendedKey L L w w' (Nat.le_refl L) hL rfl h fun _ hlow hhigh => absurd hhigh (Nat.not_lt.2 hlow)

/-- Two sessions of one engine under one key: the second decrypts what the first encrypts, whatever the bytes of WKEY above
KEYLEN are in each. -/
theorem sessOpened_decryption_encryption {s t : State} (halg : cfgAlg t.cfg = cfgAlg s.cfg) (hkey : t.key = s.key)
    (hkeylen : t.keylen = s.keylen) (hmax : s.keylen.toNat ≤ 32) (b : Block) :
    t.sessOpened.decryption (s.sessOpened.encryption b) = b := by
  have hs : s.sessOpened.cfg = s.cfg := by simp [State.sessOpened]
  have ht : t.sessOpened.cfg = t.cfg := by simp [State.sessOpened]
  rw [State.decryption, State.encryption, hs, ht, halg]
  rcases cfgAlg_eq_zero_or_one s.cfg with h | h
  · obtain ⟨hsK, hsM, -⟩ := sessOpened_twofish (isSerpent_eq_false h)
    obtain ⟨htK, htM, -⟩ := sessOpened_twofish (isSerpent_eq_false (halg.trans h))
    obtain ⟨hK, hM⟩ := tfSchedule_congr (w := (keyCloneAct s).wkey) (w' := (keyCloneAct t).wkey) hmax fun i hi => by
      rw [keyCloneAct_wkey_getD s hi, keyCloneAct_wkey_getD t (hkeylen ▸ hi), hkey]
    rw [h, if_neg (by decide), if_neg (by decide), hsK, hsM, htK, htM, hkeylen, ← hK, ← hM, tfDecBlock_tfEncBlock]
  · obtain ⟨hsK, -⟩ := sessOpened_serpent (isSerpent_eq_true h)
    obtain ⟨htK, -⟩ := sessOpened_serpent (isSerpent_eq_true (halg.trans h))
    rw [h, if_pos rfl, if_pos rfl, hsK, htK, hkey, hkeylen, spDecBlock_spEncBlock]

theorem sessOpened_blocks_length {s : State} {iv : Block} {bs : List Block} (h : s.executable)
    (hblocks : s.sessOpened.holdsBlocks (iv :: bs)) : bs.length = sessionSteps s := by
  have hdlen := sessOpened_dlen_toNat h
  obtain ⟨hlen, -⟩ := hblocks
  rw [List.length_cons] at hlen
  omega

/-- An encrypting session leaves an IV and the chain of the padded blocks. -/
theorem sessExecAct_encrypts {s : State} {ps : List Block} (he : s.err = false) (h : s.executable)
    (hdir : s.isDecrypt = false) (hblocks : (sessAppend (keyCloneAct s)).holdsBlocks ps) :
    ∃ iv, (sessExecAct s).holdsBlocks (iv :: cbcChain s.sessOpened.encryption iv ps) := by
  have hopen := executable_openable h
  have hd : (sessAppend (keyCloneAct s)).isDecrypt = false := (isDecrypt_of_cfg (by simp)).trans hdir
  have hopened := cbcOpenAct_holdsBlocks_encrypt hd hopen hblocks
  have hrun := cbcOpenAct_runAt (by simpa using he) hopen hopened
  obtain ⟨t, ht, -, hend⟩ :=
    runCommands_steps_encrypt (xs := []) ((isDecrypt_of_cfg (cbcOpenAct_cfg _)).trans hd) hrun
  rw [sessOpened_blocks_length h hopened] at ht
  cases (runCommands_sessionSteps he h).symm.trans ht
  obtain ⟨-, -, hstepped⟩ := runAt_finished hend
  have hclosing := (sessStepped_isDecrypt s).trans hdir
  exact ⟨_, holdsBlocks_of_same hstepped (cbcCloseAct_encrypt_dlen hclosing) fun a ha =>
    (dbuf?_cbcCloseAct_encrypt hclosing a).trans (if_pos ha)⟩

/-- A decrypting session undoes the chain before it closes. -/
theorem sessStepped_decrypts {s : State} {iv : Block} {cs : List Block} (he : s.err = false) (h : s.executable)
    (hdir : s.isDecrypt = true) (hblocks : s.holdsBlocks (iv :: cs)) :
    s.sessStepped.holdsBlocks (iv :: cbcUnchain s.sessOpened.decryption iv cs) := by
  have hclone : (keyCloneAct s).isDecrypt = true := hdir
  have happend : sessAppend (keyCloneAct s) = keyCloneAct s := by rw [sessAppend, if_pos hclone]
  have hopen := executable_openable h
  have hopened : s.sessOpened.holdsBlocks (iv :: cs) := by
    rw [State.sessOpened, happend]
    exact cbcOpenAct_holdsBlocks_decrypt hclone hblocks
  have hiv : s.sessOpened.ivreg = iv := by
    rw [State.sessOpened, happend]
    exact cbcOpenAct_ivreg_decrypt hclone hblocks
  have hrun := cbcOpenAct_runAt (by simpa using he) hopen hopened
  obtain ⟨t, ht, -, hend⟩ := runCommands_steps_decrypt (s := s.sessOpened)
    ((isDecrypt_of_cfg (by simp [State.sessOpened])).trans hdir) hrun
  rw [sessOpened_blocks_length h hopened] at ht
  cases (runCommands_sessionSteps he h).symm.trans ht
  obtain ⟨-, -, hstepped⟩ := runAt_finished hend
  rwa [hiv] at hstepped

theorem trimLen_eq_self {f : Nat → Byte} {n : Nat} (hpos : 0 < n) (h : f (n - 1) ≠ 0) : trimLen f n = n := by
  obtain ⟨n, rfl⟩ := Nat.exists_eq_succ_of_ne_zero (Nat.ne_of_gt hpos)
  exact if_neg h

/-- The padding ends in its own count, which is not 0, so the trim of a close takes none of it (R148). -/
theorem trimmed_of_padded {s q : State} {iv : Block} {ps : List Block}
    (hfits : q.dlen.toNat + p7Count q.dlen.toNat ≤ Config.bufCap) (hs : s.holdsBlocks (iv :: ps))
    (hq : (p7AppendAct q).holdsBlocks ps) :
    s.trimmed.dlen.toNat = (p7AppendAct q).dlen.toNat ∧
      s.trimmed.byteAt (s.trimmed.dlen.toNat - 1) = (p7AppendAct q).byteAt ((p7AppendAct q).dlen.toNat - 1) := by
  have hcount : 1 ≤ p7Count q.dlen.toNat ∧ p7Count q.dlen.toNat ≤ 16 := by rw [p7Count]; omega
  have hplen := p7AppendAct_dlen_toNat hfits
  have hslen : s.dlen.toNat = (p7AppendAct q).dlen.toNat + 16 := by
    rw [hs.1, hq.1, List.length_cons]; omega
  have hlast : s.dbuf? ((p7AppendAct q).dlen.toNat - 1 + 16) = some (BitVec.ofNat 8 (p7Count q.dlen.toNat)) := by
    rw [dbuf?_behind_iv hs hq (by omega), dbuf?_p7AppendAct hfits, if_neg (by omega), if_pos (by omega)]
  have hne : s.decryptedByte ((p7AppendAct q).dlen.toNat - 1) ≠ 0 := by
    rw [State.decryptedByte, hlast, Option.getD_some]
    rw [Ne, ← BitVec.toNat_inj, BitVec.toNat_ofNat, show (0 : Byte).toNat = 0 from rfl]
    omega
  have htrim : s.trimmed.dlen.toNat = (p7AppendAct q).dlen.toNat := by
    rw [trimmed_dlen_toNat (by omega), hslen, Nat.add_sub_cancel, trimLen_eq_self (by omega) hne]
  refine ⟨htrim, ?_⟩
  rw [byteAt_p7AppendAct_last hfits]
  refine byteAt_trimmed_last (by omega) (by omega) ?_
  rw [← hlast, htrim, show (p7AppendAct q).dlen.toNat - 1 + 16 = (p7AppendAct q).dlen.toNat + 15 by omega]

/-- The decrypting close of an IV and padded blocks leaves what was padded (R147 to R149, 42_padding R134). -/
theorem cbcCloseAct_undoes_padding {s q : State} {iv : Block} {ps : List Block} (hdir : s.isDecrypt = true)
    (hpad : cfgPad s.cfg = 0#2) (hfits : q.dlen.toNat + p7Count q.dlen.toNat ≤ Config.bufCap)
    (hs : s.holdsBlocks (iv :: ps)) (hq : (p7AppendAct q).holdsBlocks ps) :
    (cbcCloseAct s).dlen = q.dlen ∧ ∀ a, a < q.dlen.toNat → (cbcCloseAct s).dbuf? a = q.dbuf? a := by
  obtain ⟨hlen, hlast⟩ := trimmed_of_padded hfits hs hq
  have hcfg : s.trimmed.cfg = s.cfg := engineClose_cfg s
  have hdlen : (cbcCloseAct s).dlen = q.dlen := by
    refine BitVec.eq_of_toNat_eq ?_
    rw [cbcCloseAct_decrypt_dlen hdir, removePadding_dlen_toNat, hcfg, if_pos hpad, hlast, hlen, ← p7RemoveAct_dlen_toNat,
      p7RemoveAct_p7AppendAct_dlen hfits]
  have hiv : 16 ≤ s.dlen.toNat := by rw [hs.1, List.length_cons]; omega
  refine ⟨hdlen, fun a ha => ?_⟩
  rw [dbuf?_cbcCloseAct_decrypt hdir hiv, hdlen, if_pos ha,
    dbuf?_behind_iv hs hq (by rw [p7AppendAct_dlen_toNat hfits]; omega), dbuf?_p7AppendAct hfits, if_pos ha]

/-- SESS.CREATE with PKCS7, as an effect on the state. -/
def createPkcs7 (alg dir : BitVec 1) (keybits : BitVec 16) (s : State) : State :=
  sessCreateAct (Instr.sessCreate alg dir 0 0 0 keybits).encode s

theorem createPkcs7_cfg (alg dir : BitVec 1) (keybits : BitVec 16) (s : State) :
    cfgAlg (createPkcs7 alg dir keybits s).cfg = alg ∧ cfgDir (createPkcs7 alg dir keybits s).cfg = dir ∧
      cfgPad (createPkcs7 alg dir keybits s).cfg = 0#2 ∧ cfgKeybits (createPkcs7 alg dir keybits s).cfg = keybits := by
  obtain ⟨halg, hdir, -, hpad, hkeybits⟩ := cfgOf_sessCreate alg dir 0 0 0 keybits
  exact ⟨halg, hdir, hpad, hkeybits⟩

theorem dbuf?_createPkcs7 (alg dir : BitVec 1) (keybits : BitVec 16) {s : State} {a : Nat} (ha : a < s.dlen.toNat) :
    (createPkcs7 alg dir keybits s).dbuf? a = s.dbuf? a :=
  (dbuf?_forgetTail _ a).trans (if_pos ha)

/-- The session of the same engine and key size that decrypts what the session of `s` left. -/
def State.reversed (s : State) : State := createPkcs7 (cfgAlg s.cfg) 1 (cfgKeybits s.cfg) (sessExecAct s)

theorem reversed_cfg (s : State) :
    cfgAlg s.reversed.cfg = cfgAlg s.cfg ∧ cfgDir s.reversed.cfg = 1#1 ∧ cfgPad s.reversed.cfg = 0#2 ∧
      cfgKeybits s.reversed.cfg = cfgKeybits s.cfg :=
  createPkcs7_cfg ..

theorem reversed_callerKey (s : State) :
    s.reversed.key = s.key ∧ s.reversed.keylen = s.keylen ∧ s.reversed.keyValid = s.keyValid ∧
      s.reversed.dataValid = s.dataValid :=
  actionOf_callerKey (.sessExec 0) s nofun

/-- What an encrypting session leaves is long enough to be decrypted. -/
theorem reversed_executable {s : State} (h : s.executable) (hdir : s.isDecrypt = false) : s.reversed.executable := by
  obtain ⟨-, hrdir, -, hrkeybits⟩ := reversed_cfg s
  obtain ⟨-, hkeylen, hkeyValid, hdataValid⟩ := reversed_callerKey s
  have hdlen : s.reversed.dlen.toNat = 16 + 16 * sessionSteps s := sessExecAct_encrypt_dlen_toNat h hdir
  obtain ⟨k, hk, -⟩ := sessOpened_run h
  exact executable_of_decrypt (.inl rfl) (hkeyValid.trans h.key) (hdataValid.trans h.data)
    (by rw [hkeylen, hrkeybits]; exact h.keylen) (isDecrypt_eq_true hrdir) (by omega) (by omega)

theorem sessAppend_of_pkcs7 {s : State} (hdir : s.isDecrypt = false) (hpad : cfgPad s.cfg = 0#2) :
    sessAppend s = p7AppendAct s := by
  simp [sessAppend, hdir, State.isPkcs7, hpad]

/-- The capacity check of SESS.EXEC leaves room for the padding (R160 check 7). -/
theorem padding_fits {s : State} (h : (checkExecFits s).1 = true) (hdir : s.isDecrypt = false)
    (hpad : cfgPad s.cfg = 0#2) : s.dlen.toNat + p7Count s.dlen.toNat ≤ Config.bufCap := by
  simp only [checkExecFits, hdir, paddedLen, State.isPkcs7, hpad, beq_self_eq_true, if_true, Bool.false_or,
    decide_eq_true_eq] at h
  omega

theorem p7AppendAct_specified {s : State} (hfits : s.dlen.toNat + p7Count s.dlen.toNat ≤ Config.bufCap)
    (hspec : ∀ a, a < s.dlen.toNat → (s.dbuf? a).isSome) {a : Nat} (ha : a < (p7AppendAct s).dlen.toNat) :
    ((p7AppendAct s).dbuf? a).isSome := by
  rw [p7AppendAct_dlen_toNat hfits] at ha
  rw [dbuf?_p7AppendAct hfits]
  split
  · next hdata => exact hspec a hdata
  · rfl

/-- An encrypting session with PKCS7 and then the reversed one leave the data as it was. -/
theorem sessExecAct_reversed {s : State} (he : s.err = false) (h : s.executable) (hdir : s.isDecrypt = false)
    (hpad : cfgPad s.cfg = 0#2) (hmax : s.keylen.toNat ≤ 32) (hspec : ∀ a, a < s.dlen.toNat → (s.dbuf? a).isSome) :
    (sessExecAct s.reversed).dlen = s.dlen ∧
      ∀ a, a < s.dlen.toNat → (sessExecAct s.reversed).dbuf? a = s.dbuf? a := by
  have happend : sessAppend (keyCloneAct s) = p7AppendAct (keyCloneAct s) := sessAppend_of_pkcs7 hdir hpad
  have hfits : (keyCloneAct s).dlen.toNat + p7Count (keyCloneAct s).dlen.toNat ≤ Config.bufCap :=
    padding_fits h.fits hdir hpad
  obtain ⟨ps, hps⟩ := exists_holdsBlocks (s := p7AppendAct (keyCloneAct s)) (happend ▸ (executable_openable h).2.1)
    fun _ => p7AppendAct_specified hfits hspec
  obtain ⟨iv, hiv⟩ := sessExecAct_encrypts he h hdir (happend ▸ hps)
  obtain ⟨halg, hrdir, hrpad, -⟩ := reversed_cfg s
  obtain ⟨hkey, hkeylen, -⟩ := reversed_callerKey s
  have hr := isDecrypt_eq_true hrdir
  have hcipher := holdsBlocks_of_same (t := s.reversed) hiv rfl fun a ha => dbuf?_createPkcs7 _ _ _ ha
  have hplain := sessStepped_decrypts (s := s.reversed) ((sessExecAct_err s).trans he) (reversed_executable h hdir) hr hcipher
  rw [cbcUnchain_cbcChain (sessOpened_decryption_encryption halg hkey hkeylen hmax)] at hplain
  exact cbcCloseAct_undoes_padding ((sessStepped_isDecrypt _).trans hr) ((sessStepped_cfg _).symm ▸ hrpad) hfits hplain hps

/-- Settles O27: each CREATE makes a session that is executable, and the second undoes the first. -/
theorem sessionRoundTrip : Obligations.SessionRoundTrip := by
  intro s alg keybits x he hidle hkey hdata hbits hkeylen hfits hspec
  obtain ⟨halg, hdir, hpad, hkeybits⟩ := createPkcs7_cfg alg 0 keybits s
  have hd := isDecrypt_eq_false hdir
  have hexec : (createPkcs7 alg 0 keybits s).executable :=
    executable_of_encrypt (.inl rfl) hkey hdata (by rw [hkeybits]; exact hkeylen) hd (.inl hpad)
      (by rw [sessionLength, if_pos hpad]; exact hfits)
  have hmax : s.keylen.toNat ≤ 32 := by rcases hbits with rfl | rfl | rfl <;> simp at hkeylen <;> omega
  have hbytes (a : Nat) (ha : a < s.dlen.toNat) : (createPkcs7 alg 0 keybits s).dbuf? a = some (x a) :=
    (dbuf?_createPkcs7 _ _ _ ha).trans (hspec a ha)
  obtain ⟨hdlen, hback⟩ := sessExecAct_reversed (s := createPkcs7 alg 0 keybits s) he hexec hd hpad hmax
    fun a ha => by rw [hbytes a ha]; rfl
  have hcreate (dir : BitVec 1) {u : State} (hu : u.err = false) (hidle : ¬ u.runOpen) :
      exec (.sessCreate alg dir 0 0 0 keybits) u = .next (createPkcs7 alg dir keybits u) :=
    exec_sessCreate hu hidle rfl (keyBits_of_size hbits)
  have hmid : (sessExecAct (createPkcs7 alg 0 keybits s)).err = false := (sessExecAct_err _).trans he
  have hclosed : ¬ (sessExecAct (createPkcs7 alg 0 keybits s)).runOpen :=
    not_runOpen_of_sessionReady (.inr (cbcCloseAct_phase _))
  have hreversed : (createPkcs7 alg 0 keybits s).reversed =
      createPkcs7 alg 1 keybits (sessExecAct (createPkcs7 alg 0 keybits s)) := by
    rw [State.reversed, halg, hkeybits]
  refine ⟨sessExecAct (createPkcs7 alg 0 keybits s).reversed, ?_, (sessExecAct_err _).trans hmid, hdlen, fun a ha =>
    (hback a ha).trans (hbytes a ha)⟩
  rw [runCommands_cons (hcreate 0 he hidle), runCommands_cons (exec_sessExec (s := createPkcs7 alg 0 keybits s) he hexec),
    runCommands_cons (hcreate 1 hmid hclosed), ← hreversed]
  exact runCommands_singleton (exec_sessExec hmid (reversed_executable hexec hd))

end Sys2Proof.Machine

/-! ## Refusals, priority and phases (60_exceptions R182 to R190) -/

namespace Sys2Proof.Machine

/-! ### While an error is pending (R184) -/

/-- ERR.ACK and SYS.RESET are the opcodes 1 and 2 (30_encoding R52). -/
theorem actsWhileError_iff_opcode (i : Instr) : actsWhileError i = true ↔ i.opcode = 0x01#8 ∨ i.opcode = 0x02#8 := by
  cases i <;> simp [actsWhileError, Instr.opcode]

theorem format_z_of_actsWhileError {i : Instr} (h : actsWhileError i = true) : commandFormat i = .z := by
  cases i with
  | sysReset _ | errAck _ => rfl
  | _ => cases h

/-- While an error is pending a command changes nothing, unless it acts then and passes its checks (R183, R184). -/
theorem exec_of_err {i : Instr} {s : State} (he : s.err = true)
    (h : actsWhileError i = true → firstFailing (checksOf i s) ≠ none) : exec i s = .next s := by
  obtain ⟨t, ht⟩ := exec_next i s
  rcases exec_cases ht with rfl | ⟨hnone, -, hrun⟩ | ⟨hok, -⟩
  · exact ht
  · exact absurd hnone (h (hrun.resolve_left (by simp [he])))
  · simp [he] at hok

theorem runWord_of_err {w : Word} {s : State} (he : s.err = true)
    (h : ∀ i, decode w = some i → actsWhileError i = true → firstFailing (checksOf i s) ≠ none) :
    runWord w s = .next s := by
  cases hd : decode w with
  | none => rw [runWord_of_decode_none hd, refuse_of_err he]
  | some i => rw [runWord_of_decode hd, exec_of_err he (h i hd)]

/-- Settles O16: no other opcode acts, and the argument is the first check of the two that do. -/
theorem pendingErrorDropsCommands : Obligations.PendingErrorDropsCommands := by
  refine fun w s he => ⟨fun ⟨hreset, hack⟩ => runWord_of_err he fun i hd hacts => ?_,
    fun _ harg => runWord_of_err he fun i hd hacts => ?_⟩
  · rw [actsWhileError_iff_opcode, (decode_fields hd).1] at hacts
    exact absurd hacts (not_or.2 ⟨hreset, hack⟩)
  · have hbits : i.argBits ≠ 0#24 := argBits_of_decode hd ▸ harg
    simp [firstFailing_format_z (format_z_of_actsWhileError hacts) hbits s]

/-! ### The order of the checks (R185) -/

theorem failing_or (ok : Bool) (c : Cause) (o : Option Cause) : (failing ok c).or o = if ok then o else some c := by
  cases ok <;> rfl

theorem firstFailing_cons_eq_or (c : Check) (l : List Check) :
    firstFailing (c :: l) = (failing c.1 c.2).or (firstFailing l) := by
  rw [firstFailing_cons, failing_or]

theorem firstFailing_append (l m : List Check) : firstFailing (l ++ m) = (firstFailing l).or (firstFailing m) := by
  induction l with
  | nil => rfl
  | cons c l ih => simp only [List.cons_append, firstFailing_cons_eq_or, ih, Option.or_assoc]

/-- The checks of R185 step 2. -/
def argumentChecks : Instr → List Check
  | .sessCreate _ _ mode pad rsv keybits => [checkCfgFields mode pad rsv, checkKeybits keybits]
  | .tfEncb _ | .tfDecb _ | .spEncb _ | .spDecb _ => []
  | i => [checkZ i.argBits]

/-- The check of R185 step 3. -/
def phaseChecks (i : Instr) (s : State) : List Check :=
  match i with
  | .sysReset _ | .errAck _ => []
  | .sessExec _ | .cbcOpen _ => [checkStartable s]
  | .cbcStep _ => [checkRunning s]
  | .cbcClose _ => [checkStepping s]
  | _ => [checkIdle s]

/-- The checks of R185 steps 4 to 9. -/
def operandChecks (i : Instr) (s : State) : List Check :=
  match i with
  | .keyClone _ => [checkKey s]
  | .tfKeyx _ | .spKeyx _ => [checkWkey s]
  | .sessExec _ => [checkKey s, checkData s, checkKeylen s, checkExecLength s, checkExecFits s]
  | .tfEncb off | .tfDecb off => [checkData s, (s.tfxValid, .noKeySched), checkBlock (offsetOf off) s]
  | .spEncb off | .spDecb off => [checkData s, (s.spxValid, .noKeySched), checkBlock (offsetOf off) s]
  | .p7Append _ => [checkData s, checkAppendFits s]
  | .p7Remove _ | .npAppend _ | .npRemove _ => [checkData s]
  | .cbcOpen _ => [checkWkey s, checkData s, checkOpenLength s, checkOpenFits s]
  | .cbcStep _ => [checkBlockLeft s]
  | .cbcClose _ => [checkAllDone s]
  | _ => []

/-- The rule of every command lists its checks in the order of R185. -/
theorem checksOf_eq_append (i : Instr) (s : State) :
    checksOf i s = argumentChecks i ++ (phaseChecks i s ++ operandChecks i s) := by
  cases i <;> rfl

theorem extractLsb'_argBits (i : Instr) {start len : Nat} (h : start + len ≤ 24) :
    i.argBits.extractLsb' start len = i.encode.extractLsb' (8 + start) len := by
  rw [← argField_encode, argField]
  ext k hk
  simp [show start + k < 24 by omega, Nat.add_assoc]

theorem firstFailing_argumentChecks (i : Instr) : firstFailing (argumentChecks i) = argumentCause i := by
  cases i with
  | sessCreate alg dir mode pad rsv keybits =>
    have hfields := createFields_encode alg dir mode pad rsv keybits
    simp only [createFields, Instr.sessCreate.injEq] at hfields
    obtain ⟨-, -, hmode, hpad, hrsv, hkeybits⟩ := hfields
    simp only [argumentChecks, firstFailing_cons_eq_or, argumentCause, commandFormat,
      extractLsb'_argBits _ (show 6 + 2 ≤ 24 by decide), extractLsb'_argBits _ (show 2 + 2 ≤ 24 by decide),
      extractLsb'_argBits _ (show 4 + 2 ≤ 24 by decide), extractLsb'_argBits _ (show 8 + 16 ≤ 24 by decide),
      Nat.reduceAdd, hmode, hpad, hrsv, hkeybits, firstFailing_nil, Option.or_none]
    rfl
  | _ => rfl

theorem firstFailing_phaseChecks (i : Instr) (s : State) : firstFailing (phaseChecks i s) = phaseVerdict i s.phase := by
  cases i with
  | sysReset _ | errAck _ => rfl
  | sessExec _ | cbcOpen _ => cases h : s.phase <;> simp [phaseChecks, phaseVerdict, checkStartable, sessionCause, h]
  | cbcStep _ => cases h : s.phase <;> simp [phaseChecks, phaseVerdict, checkRunning, sessionCause, h]
  | cbcClose _ => cases h : s.phase <;> simp [phaseChecks, phaseVerdict, checkStepping, sessionCause, h]
  | _ => cases h : s.phase <;> simp [phaseChecks, phaseVerdict, checkIdle, State.isIdle, h]

theorem rangeCause_cbcOpen (arg : BitVec 24) (s : State) :
    rangeCause (.cbcOpen arg) s = firstFailing [checkOpenLength s, checkOpenFits s] := by
  by_cases hdir : cfgDir s.cfg = 1#1 <;>
    simp [rangeCause, ↓failing_or, failing, checkOpenLength, checkOpenFits, State.isDecrypt, hdir]

theorem rangeCause_sessExec (arg : BitVec 24) (s : State) :
    rangeCause (.sessExec arg) s = firstFailing [checkKeylen s, checkExecLength s, checkExecFits s] := by
  by_cases hdir : cfgDir s.cfg = 1#1 <;>
    simp [rangeCause, ↓failing_or, failing, checkKeylen, checkExecLength, checkExecFits, paddedLen_eq_sessionLength,
      State.isDecrypt, State.isPkcs7, hdir]

theorem rangeCause_cbcClose (arg : BitVec 24) (s : State) :
    rangeCause (.cbcClose arg) s = firstFailing [checkAllDone s] := by
  simp [rangeCause, failing, checkAllDone]

theorem firstFailing_operandChecks (i : Instr) (s : State) :
    firstFailing (operandChecks i s) = (presenceCause i s).or (rangeCause i s) := by
  cases i with
  | sysReset _ | errAck _ | sessCreate _ _ _ _ _ _ | tfClose _ | spClose _ => rfl
  | cbcClose arg => exact (rangeCause_cbcClose arg s).symm
  | cbcOpen _ | sessExec _ =>
    simp only [operandChecks, presenceCause, rangeCause_cbcOpen, rangeCause_sessExec, firstFailing_cons_eq_or,
      Option.or_assoc]
    rfl
  | _ =>
    simp only [operandChecks, presenceCause, rangeCause, firstFailing_cons_eq_or, Option.or_assoc, firstFailing_nil,
      Option.or_none]
    rfl

/-- A command is refused with the cause that the scheme of R185 names. -/
theorem firstFailing_checksOf (i : Instr) (s : State) : firstFailing (checksOf i s) = refusalCause i s := by
  rw [checksOf_eq_append, firstFailing_append, firstFailing_append, firstFailing_argumentChecks, firstFailing_phaseChecks,
    firstFailing_operandChecks, refusalCause]

/-- Settles O17: the failing check of a decoded word is the one `refusalCause` names, and no action sets ERR. -/
theorem refusalPriority : Obligations.RefusalPriority := by
  refine fun w s => ⟨fun he hreset hack => (pendingErrorDropsCommands w s he).1 ⟨hreset, hack⟩, fun he hopc => ?_,
    fun he hopc => ?_⟩
  · rw [runWord_of_decode_none ((decode_eq_none_iff w).2 hopc), refuse_of_ok he]; rfl
  · have hsome : decode w ≠ none := fun hnone => (decode_eq_none_iff w).1 hnone hopc
    obtain ⟨i, hd⟩ := Option.ne_none_iff_exists'.1 hsome
    refine ⟨i, hd, encodeDecodeRoundTrip w i hd, fun c hc => ?_, fun hnone => ?_⟩
    · exact runWord_refused he hd ((firstFailing_checksOf i s).trans hc)
    · exact ⟨actionOf i s, (runWord_of_decode hd s).trans (exec_done he ((firstFailing_checksOf i s).trans hnone)),
        actionOf_keeps_err_false i he⟩

/-! ### The phase table (R190) -/

theorem argumentCause_of_wellFormed {i : Instr} (h : i.wellFormed = true) : argumentCause i = none := by
  rw [← firstFailing_argumentChecks, firstFailing_eq_none]
  cases i with
  | sessCreate _ _ _ _ _ _ => simpa [argumentChecks, checkCfgFields, checkKeybits, Instr.wellFormed] using h
  | tfEncb _ | tfDecb _ | spEncb _ | spDecb _ => simp [argumentChecks]
  | _ => simpa [argumentChecks, checkZ, Instr.argBits, Instr.wellFormed] using h

theorem exists_check_of_firstFailing {l : List Check} {c : Cause} (h : firstFailing l = some c) : ∃ k ∈ l, k.2 = c := by
  induction l with
  | nil => cases h
  | cons k l ih =>
    rw [firstFailing_cons] at h
    split at h
    · obtain ⟨k', hmem, hk'⟩ := ih h
      exact ⟨k', List.mem_cons_of_mem _ hmem, hk'⟩
    · exact ⟨k, List.mem_cons_self, Option.some.inj h⟩

/-- PHASE and NOSESSION are the causes of step 3 only. -/
theorem operandChecks_cause (i : Instr) (s : State) : ∀ k ∈ operandChecks i s, k.2 ≠ .phase ∧ k.2 ≠ .noSession := by
  cases i <;>
    simp [operandChecks, checkKey, checkWkey, checkData, checkBlock, checkKeylen, checkExecLength, checkExecFits,
      checkOpenLength, checkOpenFits, checkAppendFits, checkBlockLeft, checkAllDone]

theorem errcodeOf_eq_phase_iff (c : Cause) : errcodeOf c = errcodeOf .phase ↔ c = .phase := by
  cases c <;> decide

theorem errcodeOf_eq_noSession_iff (c : Cause) : errcodeOf c = errcodeOf .noSession ↔ c = .noSession := by
  cases c <;> decide

/-- A command that raises an error is refused, with the cause of its first failing check (R183). -/
theorem exec_raises {i : Instr} {s t : State} (he : s.err = false) (ht : exec i s = .next t) (hte : t.err = true) :
    ∃ c, refusalCause i s = some c ∧ t = s.recordError c i.encode := by
  rcases exec_cases ht with rfl | ⟨-, rfl, -⟩ | ⟨-, c, hc, rfl⟩
  · simp [he] at hte
  · simp [actionOf_keeps_err_false i he] at hte
  · exact ⟨c, (firstFailing_checksOf i s).symm.trans hc, rfl⟩

/-- Settles O18: the phase check comes first after the argument's, and no later check raises PHASE or NOSESSION. -/
theorem phaseTable : Obligations.PhaseTable := by
  intro i s he hwf
  have harg := argumentCause_of_wellFormed hwf
  refine ⟨fun c hc => exec_refused he ?_, fun hphase => ?_⟩
  · rw [firstFailing_checksOf, refusalCause, harg, hc]; rfl
  · obtain ⟨t, ht⟩ := exec_next i s
    refine ⟨t, ht, fun hte => ?_⟩
    obtain ⟨c, hc, rfl⟩ := exec_raises he ht hte
    rw [refusalCause, harg, hphase, Option.none_or, Option.none_or, ← firstFailing_operandChecks] at hc
    obtain ⟨k, hk, rfl⟩ := exists_check_of_firstFailing hc
    obtain ⟨hnotPhase, hnotSession⟩ := operandChecks_cause i s k hk
    exact ⟨mt (errcodeOf_eq_phase_iff k.2).1 hnotPhase, mt (errcodeOf_eq_noSession_iff k.2).1 hnotSession⟩

/-- The rows of the table that name PHASE throughout an open run. -/
theorem phaseVerdict_of_runOpen {i : Instr} {s : State} (hopen : s.runOpen) (hstep : ∀ arg, i ≠ .cbcStep arg)
    (hclose : ∀ arg, i ≠ .cbcClose arg) (hack : ∀ arg, i ≠ .errAck arg) (hreset : ∀ arg, i ≠ .sysReset arg) :
    phaseVerdict i s.phase = some .phase := by
  cases i with
  | cbcStep arg => exact absurd rfl (hstep arg)
  | cbcClose arg => exact absurd rfl (hclose arg)
  | errAck arg => exact absurd rfl (hack arg)
  | sysReset arg => exact absurd rfl (hreset arg)
  | _ => rcases hopen with hp | hp <;> rw [hp] <;> rfl

/-- Settles O19: the command is dropped or refused, because its phase check fails. -/
theorem openRunIsFrozen : Obligations.OpenRunIsFrozen := by
  intro i s t hopen hstep hclose hack hreset ht
  have hphase := phaseVerdict_of_runOpen hopen hstep hclose hack hreset
  rcases exec_cases ht with rfl | ⟨hnone, -⟩ | ⟨-, c, -, rfl⟩
  · exact ⟨_, _, _, rfl⟩
  · rw [firstFailing_checksOf, refusalCause] at hnone
    simp [hphase] at hnone
  · exact ⟨_, _, _, rfl⟩

/-! ### The acknowledge (R186) -/

theorem exec_errAck (s : State) : exec (.errAck 0) s = .next s.acknowledge := rfl

/-- With no error pending there is nothing to clear (10_state R14). -/
theorem acknowledge_of_ok {s : State} (hok : s.errorOk) (he : s.err = false) : s.acknowledge = s := by
  obtain ⟨hcode, hcmd⟩ := hok.2 he
  cases s
  cases he; cases hcode; cases hcmd
  rfl

/-- The acknowledge undoes a refusal: only the error registers had changed (R183). -/
theorem acknowledge_recordError (c : Cause) (w : Word) (s : State) :
    (s.recordError c w).acknowledge = s.acknowledge := rfl

/-! ### What clears ERR (R184, R186) -/

theorem refuse_err (c : Cause) (w : Word) (s : State) : (s.refuse c w).err = true := by
  unfold State.refuse
  split
  · assumption
  · rfl

theorem wordRegion_eq_cmd_iff (off : Nat) : wordRegion off = .cmd ↔ off = cmdOffset := by
  unfold cmdOffset
  fun_cases wordRegion off <;> simp only [reduceCtorEq, true_iff, false_iff] <;> omega

theorem byteRegion_ne_cmd (off : Nat) : byteRegion off ≠ .cmd := by
  fun_cases byteRegion off <;> exact nofun

/-- Only an access by words at offset 0 names CMD (10_state R26). -/
theorem regionOf_cmd {width : Width} {off : Nat} (h : regionOf width off = .cmd) : width = .word ∧ off = cmdOffset := by
  cases width with
  | byte => exact absurd h (byteRegion_ne_cmd off)
  | half => cases h
  | word =>
    simp only [regionOf] at h
    split at h
    · exact ⟨rfl, (wordRegion_eq_cmd_iff off).1 h⟩
    · cases h

theorem readDbuf_err (i : Nat) (s : State) : (readDbuf i s).err = s.err := by
  unfold readDbuf; split <;> rfl

theorem writeKeylen_keeps_err {s : State} (he : s.err = true) (v : Word) : (writeKeylen v s).err = true := by
  unfold writeKeylen; split
  · exact refuse_err ..
  · exact he

theorem writeDlen_keeps_err {s : State} (he : s.err = true) (v : Word) : (writeDlen v s).err = true := by
  unfold writeDlen; split
  · exact refuse_err ..
  · split
    · exact refuse_err ..
    · exact he

theorem serveRead_err {width : Width} {off : Nat} {s t : State} (ht : serveRead width off s = .next t) :
    t.err = s.err := by
  unfold serveRead at ht
  cases hr : regionOf width off with
  | unlisted => simp [hr] at ht
  | dbuf i => simp only [hr] at ht; cases ht; exact readDbuf_err i s
  | _ => simp only [hr] at ht; cases ht; rfl

/-- A host write that clears ERR is a word for CMD. -/
theorem serveWrite_clears_err {width : Width} {off : Nat} {v : Word} {s t : State} (he : s.err = true)
    (ht : serveWrite width off v s = .next t) (hclear : t.err = false) :
    width = .word ∧ off = cmdOffset ∧ runWord v s = .next t := by
  unfold serveWrite at ht
  cases hr : regionOf width off with
  | unlisted => simp [hr] at ht
  | cmd =>
    obtain ⟨hwidth, hoff⟩ := regionOf_cmd hr
    simp only [hr] at ht
    exact ⟨hwidth, hoff, ht⟩
  | keylen => simp only [hr] at ht; cases ht; simp [writeKeylen_keeps_err he] at hclear
  | dlen => simp only [hr] at ht; cases ht; simp [writeDlen_keeps_err he] at hclear
  | _ => simp only [hr] at ht; cases ht; simp [he] at hclear

/-- A command that clears ERR is a legal ERR.ACK or SYS.RESET (R184). -/
theorem exec_clears_err {i : Instr} {s t : State} (he : s.err = true) (ht : exec i s = .next t) (hclear : t.err = false) :
    i = .sysReset 0 ∨ i = .errAck 0 := by
  rcases exec_cases ht with rfl | ⟨hnone, -, hrun⟩ | ⟨hok, -⟩
  · simp [he] at hclear
  · have hacts : actsWhileError i = true := hrun.resolve_left (by simp [he])
    have harg : i.argBits = 0#24 := by
      by_contra harg
      simp [firstFailing_format_z (format_z_of_actsWhileError hacts) harg s] at hnone
    cases i with
    | sysReset arg => exact .inl (congrArg _ harg)
    | errAck arg => exact .inr (congrArg _ harg)
    | _ => cases hacts
  · simp [he] at hok

theorem runWord_clears_err {w : Word} {s t : State} (he : s.err = true) (ht : runWord w s = .next t)
    (hclear : t.err = false) : w = 0x00000001 ∨ w = 0x00000002 := by
  cases hd : decode w with
  | none =>
    rw [runWord_of_decode_none hd] at ht
    cases ht
    simp [refuse_err] at hclear
  | some i =>
    rw [runWord_of_decode hd] at ht
    rw [← encodeDecodeRoundTrip w i hd]
    exact (exec_clears_err he ht hclear).imp (congrArg Instr.encode) (congrArg Instr.encode)

/-- A step that clears ERR serves a word for CMD that is ERR.ACK or SYS.RESET. -/
theorem step_clears_err {s t : State} (he : s.err = true) (ht : step s = .next t) (hclear : t.err = false) :
    ∃ w rest, s.host = commandAccess w :: rest ∧ (w = 0x00000001 ∨ w = 0x00000002) := by
  rcases hhost : s.host with _ | ⟨⟨width, off⟩ | ⟨width, off, w⟩, rest⟩
  · simp only [step, hhost] at ht
    cases ht
    simp [he] at hclear
  · rw [step_of_read hhost] at ht
    exact absurd (hclear.symm.trans (serveRead_err ht)) (by simp [he])
  · rw [step_of_write hhost] at ht
    obtain ⟨rfl, rfl, hw⟩ := serveWrite_clears_err (s := { s with host := rest }) he ht hclear
    exact ⟨w, rest, rfl, runWord_clears_err (s := { s with host := rest }) he hw hclear⟩

/-- Settles O20: the acknowledge writes the error registers only, which are all that a refusal has changed. -/
theorem errAckRule : Obligations.ErrAckRule := by
  have hbad {arg : BitVec 24} (harg : arg ≠ 0#24) (s : State) : firstFailing (checksOf (.errAck arg) s) = some .operand :=
    firstFailing_format_z (i := .errAck arg) rfl harg s
  refine ⟨by decide, fun s => ⟨exec_errAck s, fun hok he => ?_, fun arg harg he => exec_refused he (hbad harg s),
    fun arg harg he => exec_of_err he fun _ => by simp [hbad harg s], fun i t hok he ht hte => ?_,
    fun t he ht hclear => step_clears_err he ht hclear⟩⟩
  · rw [exec_errAck, acknowledge_of_ok hok he]
  · obtain ⟨c, -, rfl⟩ := exec_raises he ht hte
    rw [exec_errAck, acknowledge_recordError, acknowledge_of_ok hok he]

end Sys2Proof.Machine

/-! ## The working key across commands, and the idle block (70_reset_and_hazards R204, R211) -/

namespace Sys2Proof.Machine

/-- A key of all 32 bytes is reversed and nothing is appended (41_serpent R106). -/
theorem spNormalize_full_getD (w : Vector Byte 32) {i : Nat} (hi : i < 32) :
    (spNormalize 32 w).getD i 0 = w.getD (31 - i) 0 := by
  obtain ⟨hreversed, -, -⟩ := spNormalizedKey 32 w (Nat.le_refl 32)
  exact hreversed i hi

/-- Settles O40: the first SP.KEYX leaves WKLEN at 32 and the working key valid, so the second normalizes a full key. -/
theorem spSecondKeyxReverses : Obligations.SpSecondKeyxReverses := by
  intro s he hidle hkey
  have hfirst : exec (.spKeyx 0) s = .next (spKeyxAct s) := spKeyxRule s he hidle hkey
  have hsecond : exec (.spKeyx 0) (spKeyxAct s) = .next (spKeyxAct (spKeyxAct s)) :=
    spKeyxRule (spKeyxAct s) he hidle hkey
  refine ⟨spKeyxAct s, spKeyxAct (spKeyxAct s), hfirst, hsecond, spKeyxAct_wklen s, spKeyxAct_wklen _, fun i hi => ?_, ?_⟩
  · rw [spKeyxAct_wkey (spKeyxAct s), spKeyxAct_wklen, spNormalize_full_getD _ hi]
  · rw [spKeyxAct_spK, spKeyxAct_wkey (spKeyxAct s)]

/-- Settles O6: the step serves the oldest access, and there is none. -/
theorem idleStepWaits : Obligations.IdleStepWaits := by
  intro s hnone
  simp only [step, hnone]

end Sys2Proof.Machine
